-- ==== Sys2Proof/Word.lean ====
section
/-! DEFINITION. The word types of the machine (00_scope.md R8, R9; 10_state.md R15, R17, R19). Bit 0 of every value is its
least significant bit (R9). -/

namespace Sys2Proof

/-- One byte of memory or of an instruction. -/
abbrev Byte := BitVec 8

/-- A linear address, and a value of a general register (R8: XLEN = 64; R28). -/
abbrev Addr := BitVec 64

/-- A vector register, MAXVL = 512 bits (R7, R15). `XMM[n]` and `YMM[n]` are its low 128 and 256 bits (R16). -/
abbrev Zmm := BitVec 512

/-- An opmask register, KW = 64 bits (R8, R17). -/
abbrev Opmask := BitVec 64

end Sys2Proof
end

