-- ==== Sys2Proof/Config.lean ====
section
/-! DEFINITION. What an implementation fixes (the parameters of 00_scope.md R8) and the free values: the points on which the
spec gives no value. A free value is an opaque constant, so no proof can rest on what it is. -/

namespace Sys2Proof

/-- FEAT: the CPUID feature flags that are 1 (R3, R8, R25). Constants of one processor. -/
structure Features where
  avx2 : Bool
  avx512f : Bool
  avx512bw : Bool
  avx512vl : Bool
deriving DecidableEq, Repr

/-- The parameters of the processor that no instruction changes: FEAT (R8, R25), whether five-level paging gives 57
virtual-address bits in place of 48 (R8, decision D12), and, THE MODEL'S OWN (log 8), whether forms with a segment-override or
address-size prefix are admitted: without it they are refused, as R57, R44 and D15 decide; with it they have the effect that R44
gives them for an extender. -/
structure Params where
  feat : Features
  fiveLevel : Bool
  legacyPrefixes : Bool
deriving DecidableEq, Repr

namespace Config

/-- VA_BITS: the number of implemented virtual-address bits (R8, decision D12: 48, or 57 with five-level paging). -/
def vaBits (p : Params) : Nat := if p.fiveLevel then 57 else 48

/-- The spec's default parameters: all four feature flags are 1, VA_BITS is 48 (R8; log 5), no legacy prefix is admitted (R57,
D15). -/
def defaultParams : Params := ⟨⟨true, true, true, true⟩, false, false⟩

/-- The longest instruction in bytes (R70). -/
def maxInstrBytes : Nat := 15

/-- FREE VALUE (R116; log 11): whether the n-th draw makes a misaligned broadcast read raise #AC while alignment checking
is active. Safe: nothing fixes it. -/
opaque alignmentDraw : Nat → Bool

/-- FREE VALUE (R45, R115; log 12): which of several faulting pages the n-th draw makes a page fault report. Safe: nothing
fixes it. -/
opaque pageDraw : Nat → Nat

/-- FREE VALUE (R44, R113, R114; log 9): whether the n-th draw takes an operand that has a CS, DS, ES or SS override to be
addressed through SS, where the override and the default segment disagree. Safe: nothing fixes it. -/
opaque segmentDraw : Nat → Bool

/-- FREE VALUE (R44; log 10): of an FS and a GS override on one instruction, whether FS is the segment, as a function of the
prefix bytes. Safe: nothing fixes it. -/
opaque overrideChoice : List Byte → Bool

end Config

end Sys2Proof
end

