-- ==== Sys2Proof/Syntax.lean ====
section
/-! DEFINITION. The syntax of the family: the thirteen forms of 00_scope.md R2 with their operands (30_encoding.md R56,
R62 to R66), and the instruction length (R70). -/

namespace Sys2Proof

/-- The legacy prefixes that are legal before a VEX or EVEX prefix (R57): six segment overrides and the address-size prefix.
Their effect on the address is R44's. -/
inductive LegacyPrefix where
  | es | cs | ss | ds | fs | gs | addr32
deriving DecidableEq, Repr

/-- The displacement of a base-register address (R64): none, one byte, or four bytes. -/
inductive Disp where
  | none
  | d8 (d : BitVec 8)
  | d32 (d : BitVec 32)
deriving DecidableEq, Repr

/-- A memory operand as ModRM, SIB and displacement write it (R41, R62 to R64). Register numbers are the four-bit numbers
that the extension bits B and X complete. -/
inductive MemOperand where
  /-- `[base + disp]`, no SIB byte. -/
  | base (b : BitVec 4) (d : Disp)
  /-- RIP-relative (R43). -/
  | rip (d : BitVec 32)
  /-- SIB byte with a base register; index number 4 means no index register. -/
  | sib (scale : BitVec 2) (index : BitVec 4) (b : BitVec 4) (d : Disp)
  /-- SIB byte with no base register and a four-byte displacement. -/
  | sibNoBase (scale : BitVec 2) (index : BitVec 4) (d : BitVec 32)
deriving DecidableEq, Repr

/-- Operand 3, the count operand: a vector register with an `n`-bit number, or memory (R82). -/
inductive Count (n : Nat) where
  | reg (r : BitVec n)
  | mem (m : MemOperand)
deriving DecidableEq, Repr

/-- The operands of a VEX form (Op/En A, R56, R65): four-bit register numbers, no mask. -/
structure VexArgs where
  prefixes : List LegacyPrefix
  dest : BitVec 4
  src1 : BitVec 4
  count : Count 4
deriving DecidableEq, Repr

/-- The operands of an EVEX form (Op/En B and C, R56, R66): five-bit register numbers, the opmask number `aaa` (0: no
writemask, R18), the zeroing bit `z` (R85) and the broadcast bit `b` (R86). -/
structure EvexArgs where
  prefixes : List LegacyPrefix
  dest : BitVec 5
  src1 : BitVec 5
  count : Count 5
  aaa : BitVec 3
  z : Bool
  b : Bool
deriving DecidableEq, Repr

/-- The instructions: one constructor for each of the thirteen rows of R2, in the order of the table. -/
inductive Instr where
  | vpsllvdVex128 (a : VexArgs)
  | vpsllvqVex128 (a : VexArgs)
  | vpsllvdVex256 (a : VexArgs)
  | vpsllvqVex256 (a : VexArgs)
  | vpsllvwEvex128 (a : EvexArgs)
  | vpsllvwEvex256 (a : EvexArgs)
  | vpsllvwEvex512 (a : EvexArgs)
  | vpsllvdEvex128 (a : EvexArgs)
  | vpsllvdEvex256 (a : EvexArgs)
  | vpsllvdEvex512 (a : EvexArgs)
  | vpsllvqEvex128 (a : EvexArgs)
  | vpsllvqEvex256 (a : EvexArgs)
  | vpsllvqEvex512 (a : EvexArgs)
deriving DecidableEq, Repr

/-- The element width of a form: words, doublewords, quadwords (R12, R13). -/
inductive Elem where
  | word | dword | qword
deriving DecidableEq, Repr

/-- Element width in bits (R13). -/
def Elem.bits : Elem → Nat
  | .word => 16
  | .dword => 32
  | .qword => 64

/-- The vector length of a form (R12). -/
inductive VLen where
  | v128 | v256 | v512
deriving DecidableEq, Repr

/-- VL in bits (R12). -/
def VLen.bits : VLen → Nat
  | .v128 => 128
  | .v256 => 256
  | .v512 => 512

/-- What tells one form from another (40_common_semantics.md, introduction): the prefix kind, the element width and the
vector length. -/
structure Form where
  evex : Bool
  elem : Elem
  vl : VLen
deriving DecidableEq, Repr

/-- KL, the number of elements (R12). -/
def Form.lanes (f : Form) : Nat := f.vl.bits / f.elem.bits

/-- The form of an instruction: its row of R2. -/
def Instr.form : Instr → Form
  | .vpsllvdVex128 _ => ⟨false, .dword, .v128⟩
  | .vpsllvqVex128 _ => ⟨false, .qword, .v128⟩
  | .vpsllvdVex256 _ => ⟨false, .dword, .v256⟩
  | .vpsllvqVex256 _ => ⟨false, .qword, .v256⟩
  | .vpsllvwEvex128 _ => ⟨true, .word, .v128⟩
  | .vpsllvwEvex256 _ => ⟨true, .word, .v256⟩
  | .vpsllvwEvex512 _ => ⟨true, .word, .v512⟩
  | .vpsllvdEvex128 _ => ⟨true, .dword, .v128⟩
  | .vpsllvdEvex256 _ => ⟨true, .dword, .v256⟩
  | .vpsllvdEvex512 _ => ⟨true, .dword, .v512⟩
  | .vpsllvqEvex128 _ => ⟨true, .qword, .v128⟩
  | .vpsllvqEvex256 _ => ⟨true, .qword, .v256⟩
  | .vpsllvqEvex512 _ => ⟨true, .qword, .v512⟩

/-- An instruction's operands are those of a VEX form or those of an EVEX form. -/
inductive Args where
  | vex (a : VexArgs)
  | evex (a : EvexArgs)
deriving DecidableEq, Repr

/-- The operands of an instruction. -/
def Instr.args : Instr → Args
  | .vpsllvdVex128 a | .vpsllvqVex128 a | .vpsllvdVex256 a | .vpsllvqVex256 a => .vex a
  | .vpsllvwEvex128 a | .vpsllvwEvex256 a | .vpsllvwEvex512 a => .evex a
  | .vpsllvdEvex128 a | .vpsllvdEvex256 a | .vpsllvdEvex512 a => .evex a
  | .vpsllvqEvex128 a | .vpsllvqEvex256 a | .vpsllvqEvex512 a => .evex a

/-- The legacy prefixes of an instruction (R57). -/
def Instr.prefixes (i : Instr) : List LegacyPrefix :=
  match i.args with
  | .vex a => a.prefixes
  | .evex a => a.prefixes

/-- Bytes of displacement (R64). -/
def Disp.length : Disp → Nat
  | .none => 0
  | .d8 _ => 1
  | .d32 _ => 4

/-- Bytes after the ModRM byte of a memory operand: SIB byte and displacement (R70: S + Dn). -/
def MemOperand.tailLength : MemOperand → Nat
  | .base _ d => d.length
  | .rip _ => 4
  | .sib _ _ _ d => 1 + d.length
  | .sibNoBase _ _ _ => 5

/-- Bytes after the ModRM byte of a count operand. -/
def Count.tailLength {n : Nat} : Count n → Nat
  | .reg _ => 0
  | .mem m => m.tailLength

/-- Length of a VEX form (R70 with P = 3), and one byte for each legacy prefix. -/
def VexArgs.length (a : VexArgs) : Nat := a.prefixes.length + (3 + 1 + 1) + a.count.tailLength

/-- Length of an EVEX form (R70 with P = 4), and one byte for each legacy prefix. -/
def EvexArgs.length (a : EvexArgs) : Nat := a.prefixes.length + (4 + 1 + 1) + a.count.tailLength

/-- Instruction length in bytes (R70). -/
def Instr.length (i : Instr) : Nat :=
  match i.args with
  | .vex a => a.length
  | .evex a => a.length

end Sys2Proof
end

