-- ==== Sys2Proof/WellFormed.lean ====
section
/-! DEFINITION. Which terms of the syntax some bytes encode: the presence rules of ModRM, SIB and displacement (30_encoding.md
R62 to R64), the illegal EVEX encodings (R72), the length limit (R70). Every list of legal prefixes is a term (R57); which
of these a machine admits is a parameter (`decodeAdmitted`; log 8). -/

namespace Sys2Proof

/-- Without a displacement a base register whose low three bits are 101 has no encoding (R41, R64). -/
def Disp.fits (d : Disp) (low : BitVec 3) : Bool :=
  match d with
  | .none => low != 5#3
  | _ => true

/-- A base register without SIB byte is not numbered x100 (R41: SIB follows); see `Disp.fits`. -/
def MemOperand.wf : MemOperand → Bool
  | .base b d => b.extractLsb' 0 3 != 4#3 && d.fits (b.extractLsb' 0 3)
  | .rip _ => true
  | .sib _ _ b d => d.fits (b.extractLsb' 0 3)
  | .sibNoBase _ _ _ => true

def Count.wf {n : Nat} : Count n → Bool
  | .reg _ => true
  | .mem m => m.wf

/-- R72 on the fields of an EVEX form: zeroing needs a mask register; broadcast needs a memory operand and an element width
other than words. -/
def EvexArgs.legal (e : Elem) (a : EvexArgs) : Bool :=
  !(a.z && a.aaa == 0#3) &&
  (!a.b || (e != .word && match a.count with | .reg _ => false | .mem _ => true))

/-- A well-formed instruction: one that some bytes of at most 15 encode. -/
def Instr.wf (i : Instr) : Bool :=
  decide (i.length ≤ Config.maxInstrBytes) &&
  match i.args with
  | .vex a => a.count.wf
  | .evex a => a.count.wf && a.legal i.form.elem

end Sys2Proof
end

