-- ==== Sys2Proof/Decode.lean ====
section
/-! DEFINITION. The decoder and the encoder of the family (30_encoding.md R54 to R73): total on any bytes, with a name for
each way of not being an instruction. -/

namespace Sys2Proof

/-! ### Bit fields -/

/-- Bit `i` of a byte (R9). -/
def bitOf (b : Byte) (i : Nat) : Bool := b.getLsbD i

/-- The four bytes of a displacement, least significant at the lowest address (R35, R64). -/
def le32 (b0 b1 b2 b3 : Byte) : BitVec 32 := b3 ++ b2 ++ b1 ++ b0

def bytes32 (d : BitVec 32) : List Byte :=
  [d.extractLsb' 0 8, d.extractLsb' 8 8, d.extractLsb' 16 8, d.extractLsb' 24 8]

/-- A ModRM byte from its fields, and a SIB byte from its (R62, R63). -/
def packFields (hi : BitVec 2) (mid lo : BitVec 3) : Byte := hi ++ mid ++ lo

/-! ### Legacy prefixes (R57) -/

/-- The byte of a legal legacy prefix. -/
def LegacyPrefix.byte : LegacyPrefix → Byte
  | .es => 0x26#8
  | .cs => 0x2E#8
  | .ss => 0x36#8
  | .ds => 0x3E#8
  | .fs => 0x64#8
  | .gs => 0x65#8
  | .addr32 => 0x67#8

/-- The legal legacy prefix that a byte is. -/
def legalPrefix (b : Byte) : Option LegacyPrefix :=
  if b = 0x26#8 then some .es
  else if b = 0x2E#8 then some .cs
  else if b = 0x36#8 then some .ss
  else if b = 0x3E#8 then some .ds
  else if b = 0x64#8 then some .fs
  else if b = 0x65#8 then some .gs
  else if b = 0x67#8 then some .addr32
  else none

/-- The prefix bytes that make a VEX or EVEX instruction illegal: `66H`, `F2H`, `F3H`, LOCK `F0H` and REX `40H` to `4FH`. -/
def isIllegalPrefix (b : Byte) : Bool :=
  b == 0x66#8 || b == 0xF2#8 || b == 0xF3#8 || b == 0xF0#8 || b.extractLsb' 4 4 == 4#4

/-- The prefix bytes at the front: the legal ones in order, whether an illegal one stands among them, and the bytes after. -/
def splitPrefixes : List Byte → List LegacyPrefix × Bool × List Byte
  | [] => ([], false, [])
  | b :: bs =>
    match legalPrefix b with
    | some p => let r := splitPrefixes bs; (p :: r.1, r.2.1, r.2.2)
    | none =>
      if isIllegalPrefix b then let r := splitPrefixes bs; (r.1, true, r.2.2)
      else ([], false, b :: bs)

/-! ### ModRM, SIB, displacement (R62 to R64) -/

/-- What the `r/m` field names before the extension bits complete a register number. -/
inductive RmField where
  | reg (rm : BitVec 3)
  | mem (m : MemOperand)
deriving DecidableEq, Repr

/-- Four displacement bytes. -/
def takeD32 : List Byte → Option (BitVec 32 × List Byte)
  | b0 :: b1 :: b2 :: b3 :: rest => some (le32 b0 b1 b2 b3, rest)
  | _ => none

/-- The displacement that `mod` announces beside a base register (R64). -/
def takeDisp (mod : BitVec 2) (bs : List Byte) : Option (Disp × List Byte) :=
  if mod = 0#2 then some (.none, bs)
  else if mod = 1#2 then
    match bs with
    | b :: rest => some (.d8 b, rest)
    | [] => none
  else (takeD32 bs).map fun r => (.d32 r.1, r.2)

/-- The operand after a SIB byte (R41, R63); `x` and `b` are the extension bits after inversion. -/
def takeSib (x b : Bool) (mod : BitVec 2) : List Byte → Option (MemOperand × List Byte)
  | [] => none
  | sib :: bs =>
    let scale := sib.extractLsb' 6 2
    let index : BitVec 4 := BitVec.ofBool x ++ sib.extractLsb' 3 3
    let low := sib.extractLsb' 0 3
    if mod = 0#2 ∧ low = 5#3 then
      (takeD32 bs).map fun r => (.sibNoBase scale index r.1, r.2)
    else
      (takeDisp mod bs).map fun r => (.sib scale index (BitVec.ofBool b ++ low) r.1, r.2)

/-- The ModRM byte and what follows it: the `reg` field, the `r/m` operand, the bytes after. None where the bytes end. -/
def takeModRm (x b : Bool) : List Byte → Option (BitVec 3 × RmField × List Byte)
  | [] => none
  | modrm :: bs =>
    let mod := modrm.extractLsb' 6 2
    let reg := modrm.extractLsb' 3 3
    let rm := modrm.extractLsb' 0 3
    if mod = 3#2 then some (reg, .reg rm, bs)
    else if rm = 4#3 then (takeSib x b mod bs).map fun r => (reg, .mem r.1, r.2)
    else if mod = 0#2 ∧ rm = 5#3 then (takeD32 bs).map fun r => (reg, .mem (.rip r.1), r.2)
    else (takeDisp mod bs).map fun r => (reg, .mem (.base (BitVec.ofBool b ++ rm) r.1), r.2)

/-! ### Outcomes of decoding -/

/-- Why an encoding is illegal, #UD (R71, R72). -/
inductive UdReason where
  /-- `66H`, `F2H`, `F3H`, `F0H` or a REX byte before the VEX or EVEX prefix. -/
  | illegalPrefix
  /-- `P0[3:2]` is not 00 or `P1[2]` is not 1. -/
  | reservedEvexBits
  /-- `L'L` is 11. -/
  | vectorLength
  /-- `z` is 1 and `aaa` is 000. -/
  | zeroingWithoutMask
  /-- `b` is 1 with a register count operand. -/
  | broadcastRegister
  /-- `b` is 1 in a VPSLLVW form. -/
  | broadcastWord
deriving DecidableEq, Repr

/-- What the decoder makes of bytes: an instruction and the bytes after it, or a named rejection. -/
inductive Decoded where
  | ok (i : Instr) (rest : List Byte)
  /-- An illegal encoding of the family: #UD (R71, R72). -/
  | undefined (why : UdReason)
  /-- Not a form of the family: no meaning (R59, R68, R73). -/
  | notInFamily
  /-- A form of the family with a segment-override or address-size prefix, which the admitted subset does not have: no meaning
  (R57, D15). -/
  | notAdmitted
  /-- The bytes end inside the instruction. -/
  | truncated
deriving DecidableEq, Repr

/-! ### The forms (R67) -/

/-- The VEX form that `W` and `L` select. -/
def vexInstr (w l : Bool) (a : VexArgs) : Instr :=
  match w, l with
  | false, false => .vpsllvdVex128 a
  | true, false => .vpsllvqVex128 a
  | false, true => .vpsllvdVex256 a
  | true, true => .vpsllvqVex256 a

/-- The EVEX form of an element width and a vector length. -/
def evexInstr (e : Elem) (vl : VLen) (a : EvexArgs) : Instr :=
  match e, vl with
  | .word, .v128 => .vpsllvwEvex128 a
  | .word, .v256 => .vpsllvwEvex256 a
  | .word, .v512 => .vpsllvwEvex512 a
  | .dword, .v128 => .vpsllvdEvex128 a
  | .dword, .v256 => .vpsllvdEvex256 a
  | .dword, .v512 => .vpsllvdEvex512 a
  | .qword, .v128 => .vpsllvqEvex128 a
  | .qword, .v256 => .vpsllvqEvex256 a
  | .qword, .v512 => .vpsllvqEvex512 a

/-- The element width that the opcode byte and `W` select in an EVEX form; none outside the family. -/
def evexElem (opcode : Byte) (w : Bool) : Option Elem :=
  if opcode = 0x47#8 then some (if w then .qword else .dword)
  else if opcode = 0x12#8 ∧ w = true then some .word
  else none

/-- The vector length of `L'L`; none for the illegal 11. -/
def evexLength (ll : BitVec 2) : Option VLen :=
  if ll = 0#2 then some .v128
  else if ll = 1#2 then some .v256
  else if ll = 2#2 then some .v512
  else none

/-- The illegal settings of an EVEX form's own fields (R72): `memory` says that the count operand is memory. -/
def illegalFields (e : Elem) (z b : Bool) (aaa : BitVec 3) (memory : Bool) : Option UdReason :=
  if z = true ∧ aaa = 0#3 then some .zeroingWithoutMask
  else if b = true ∧ e = .word then some .broadcastWord
  else if b = true ∧ memory = false then some .broadcastRegister
  else none

/-! ### The decoder (R68) -/

/-- A VEX form, from the byte after `C4` on (R58, R65). -/
def decodeVex (ps : List LegacyPrefix) : List Byte → Decoded
  | p1 :: p2 :: opcode :: bs =>
    if p1.extractLsb' 0 5 = 2#5 ∧ p2.extractLsb' 0 2 = 1#2 ∧ opcode = 0x47#8 then
      let b := !bitOf p1 5
      match takeModRm (!bitOf p1 6) b bs with
      | none => .truncated
      | some (reg, rm, rest) =>
        .ok (vexInstr (bitOf p2 7) (bitOf p2 2)
          { prefixes := ps
            dest := BitVec.ofBool (!bitOf p1 7) ++ reg
            src1 := ~~~ p2.extractLsb' 3 4
            count := match rm with
              | .reg r => .reg (BitVec.ofBool b ++ r)
              | .mem m => .mem m }) rest
    else .notInFamily
  | _ => .truncated

/-- The operands of an EVEX form from its prefix bytes and what the ModRM byte gives (R60, R66). -/
def evexArgs (ps : List LegacyPrefix) (p0 p1 p2 : Byte) (reg : BitVec 3) (rm : RmField) : EvexArgs where
  prefixes := ps
  dest := BitVec.ofBool (!bitOf p0 4) ++ BitVec.ofBool (!bitOf p0 7) ++ reg
  src1 := BitVec.ofBool (!bitOf p2 3) ++ ~~~ p1.extractLsb' 3 4
  count := match rm with
    | .reg r => .reg (BitVec.ofBool (!bitOf p0 6) ++ BitVec.ofBool (!bitOf p0 5) ++ r)
    | .mem m => .mem m
  aaa := p2.extractLsb' 0 3
  z := bitOf p2 7
  b := bitOf p2 4

/-- An EVEX form, from the byte after `62` on (R60, R66, R72), in the order of R68. The answer stands as soon as the bytes read so far
settle it, whether or not the bytes after them could be fetched: DESIGN CHOICE against the order of R120 (log 35). -/
def decodeEvex (ps : List LegacyPrefix) : List Byte → Decoded
  | p0 :: p1 :: p2 :: opcode :: bs =>
    if p0.extractLsb' 2 2 ≠ 0#2 ∨ bitOf p1 2 = false then .undefined .reservedEvexBits
    else if p0.extractLsb' 0 2 ≠ 2#2 ∨ p1.extractLsb' 0 2 ≠ 1#2 then .notInFamily
    else
      match evexElem opcode (bitOf p1 7) with
      | none => .notInFamily
      | some e =>
        match evexLength (p2.extractLsb' 5 2) with
        | none => .undefined .vectorLength
        | some vl =>
          match takeModRm (!bitOf p0 6) (!bitOf p0 5) bs with
          | none => .truncated
          | some (reg, rm, rest) =>
            let memory := match rm with | .reg _ => false | .mem _ => true
            match illegalFields e (bitOf p2 7) (bitOf p2 4) (p2.extractLsb' 0 3) memory with
            | some why => .undefined why
            | none => .ok (evexInstr e vl (evexArgs ps p0 p1 p2 reg rm)) rest
  | _ => .truncated

/-- The bytes after the legacy prefixes: the escape byte chooses VEX or EVEX; the two-byte VEX prefix `C5` cannot encode a
form of the family (R59). -/
def decodeEscape (ps : List LegacyPrefix) : List Byte → Decoded
  | [] => .truncated
  | b0 :: bs =>
    if b0 = 0xC4#8 then decodeVex ps bs
    else if b0 = 0x62#8 then decodeEvex ps bs
    else .notInFamily

/-- Whether bytes begin with an escape byte that R57 names: `C4` or `62`, not `C5` (log 26). -/
def startsWithEscape : List Byte → Bool
  | [] => false
  | b0 :: _ => b0 == 0xC4#8 || b0 == 0x62#8

/-- What bytes encode on the hardware, segment-override and address-size prefixes included. An illegal prefix makes any VEX or EVEX
instruction illegal (R57, R71, R72). -/
def decode (bs : List Byte) : Decoded :=
  let r := splitPrefixes bs
  match decodeEscape r.1 r.2.2 with
  | .truncated => .truncated
  | d =>
    if r.2.1 && startsWithEscape r.2.2 then .undefined .illegalPrefix else d

/-- An instruction of the admitted subset: it has no legacy prefix (R57, D15), or the parameters admit them (log 8). -/
def Instr.admitted (p : Params) (i : Instr) : Bool := i.prefixes.isEmpty || p.legacyPrefixes

/-- The decoder of the machine: it refuses an instruction outside the admitted subset (the last sentence of R57, D15). Only whole
legal instructions are refused so: that an illegal encoding after a segment-override or address-size prefix is #UD (R57, R72), and is
not refused at the prefix, is DESIGN CHOICE (log 34), as is the order of such a prefix and bytes that end too early. -/
def decodeAdmitted (p : Params) (bs : List Byte) : Decoded :=
  match decode bs with
  | .ok i rest => if i.admitted p then .ok i rest else .notAdmitted
  | d => d

/-! ### The encoder -/

/-- The extension bit of a memory operand's base register, and of its index register (R41). Where the operand has no such
register the bit is ignored (R75), and the encoder writes it as 0. -/
def MemOperand.extB : MemOperand → Bool
  | .base b _ => b.getLsbD 3
  | .sib _ _ b _ => b.getLsbD 3
  | _ => false

def MemOperand.extX : MemOperand → Bool
  | .sib _ i _ _ => i.getLsbD 3
  | .sibNoBase _ i _ => i.getLsbD 3
  | _ => false

def Disp.mod : Disp → BitVec 2
  | .none => 0#2
  | .d8 _ => 1#2
  | .d32 _ => 2#2

def Disp.bytes : Disp → List Byte
  | .none => []
  | .d8 d => [d]
  | .d32 d => bytes32 d

/-- ModRM, SIB and displacement (R62 to R64). -/
def encodeModRm (reg : BitVec 3) : RmField → List Byte
  | .reg rm => [packFields 3#2 reg rm]
  | .mem (.base b d) => packFields d.mod reg (b.extractLsb' 0 3) :: d.bytes
  | .mem (.rip d) => packFields 0#2 reg 5#3 :: bytes32 d
  | .mem (.sib s i b d) =>
    packFields d.mod reg 4#3 :: packFields s (i.extractLsb' 0 3) (b.extractLsb' 0 3) :: d.bytes
  | .mem (.sibNoBase s i d) =>
    packFields 0#2 reg 4#3 :: packFields s (i.extractLsb' 0 3) 5#3 :: bytes32 d

/-- The three bytes of a VEX prefix from its fields before inversion (R58). -/
def vexPrefix (r x b w : Bool) (vvvv : BitVec 4) (l : Bool) : List Byte :=
  [0xC4#8,
   BitVec.ofBool (!r) ++ BitVec.ofBool (!x) ++ BitVec.ofBool (!b) ++ 2#5,
   BitVec.ofBool w ++ ~~~ vvvv ++ BitVec.ofBool l ++ 1#2]

/-- The four bytes of an EVEX prefix from its fields before inversion (R60). -/
def evexPrefix (r x b r' w : Bool) (vvvv : BitVec 4) (z : Bool) (ll : BitVec 2) (bc v' : Bool) (aaa : BitVec 3) : List Byte :=
  [0x62#8,
   BitVec.ofBool (!r) ++ BitVec.ofBool (!x) ++ BitVec.ofBool (!b) ++ BitVec.ofBool (!r') ++ 0#2 ++ 2#2,
   BitVec.ofBool w ++ ~~~ vvvv ++ 1#1 ++ 1#2,
   BitVec.ofBool z ++ ll ++ BitVec.ofBool bc ++ BitVec.ofBool (!v') ++ aaa]

/-- A VEX form (R55, R58, R65). -/
def encodeVex (w l : Bool) (a : VexArgs) : List Byte :=
  let xbrm : Bool × Bool × RmField := match a.count with
    | .reg r => (false, r.getLsbD 3, .reg (r.extractLsb' 0 3))
    | .mem m => (m.extX, m.extB, .mem m)
  a.prefixes.map LegacyPrefix.byte ++
    (vexPrefix (a.dest.getLsbD 3) xbrm.1 xbrm.2.1 w a.src1 l ++
      0x47#8 :: encodeModRm (a.dest.extractLsb' 0 3) xbrm.2.2)

/-- An EVEX form (R55, R60, R66). -/
def encodeEvex (opcode : Byte) (w : Bool) (ll : BitVec 2) (a : EvexArgs) : List Byte :=
  let xbrm : Bool × Bool × RmField := match a.count with
    | .reg r => (r.getLsbD 4, r.getLsbD 3, .reg (r.extractLsb' 0 3))
    | .mem m => (m.extX, m.extB, .mem m)
  a.prefixes.map LegacyPrefix.byte ++
    (evexPrefix (a.dest.getLsbD 3) xbrm.1 xbrm.2.1 (a.dest.getLsbD 4) w (a.src1.extractLsb' 0 4) a.z ll a.b
        (a.src1.getLsbD 4) a.aaa ++
      opcode :: encodeModRm (a.dest.extractLsb' 0 3) xbrm.2.2)

/-- The bytes of an instruction, by the rows of R67. -/
def encode : Instr → List Byte
  | .vpsllvdVex128 a => encodeVex false false a
  | .vpsllvqVex128 a => encodeVex true false a
  | .vpsllvdVex256 a => encodeVex false true a
  | .vpsllvqVex256 a => encodeVex true true a
  | .vpsllvwEvex128 a => encodeEvex 0x12#8 true 0#2 a
  | .vpsllvwEvex256 a => encodeEvex 0x12#8 true 1#2 a
  | .vpsllvwEvex512 a => encodeEvex 0x12#8 true 2#2 a
  | .vpsllvdEvex128 a => encodeEvex 0x47#8 false 0#2 a
  | .vpsllvdEvex256 a => encodeEvex 0x47#8 false 1#2 a
  | .vpsllvdEvex512 a => encodeEvex 0x47#8 false 2#2 a
  | .vpsllvqEvex128 a => encodeEvex 0x47#8 true 0#2 a
  | .vpsllvqEvex256 a => encodeEvex 0x47#8 true 1#2 a
  | .vpsllvqEvex512 a => encodeEvex 0x47#8 true 2#2 a

/-! ### Words of the opcode table -/

/-- The low `n` bytes of a number, least significant first. -/
def leBytes : Nat → Nat → List Byte
  | 0, _ => []
  | n + 1, w => BitVec.ofNat 8 w :: leBytes n (w / 256)

def isForm : Decoded → Bool
  | .ok _ _ => true
  | _ => false

/-- The bytes of a table word in address order, zeros up to the longest instruction. Bit 0 of the word is the least significant
bit of the first byte. Where that reading is no form of the family and the other one is, the word is read as
spec/opcode_table.json writes its match strings, "first byte most significant" (log 17). Both are read by the decoder of the
default parameters. -/
def tableBytes (nbits w : Nat) : List Byte :=
  let n := (nbits + 7) / 8
  let pad := List.replicate (Config.maxInstrBytes - n) 0#8
  let low := leBytes n (w % 2 ^ nbits)
  let form := fun bs => isForm (decodeAdmitted Config.defaultParams bs)
  if !form (low ++ pad) && form (low.reverse ++ pad) then low.reverse ++ pad else low ++ pad

/-- The instruction the decoder reads from a table word. -/
def decodeTableWord (nbits w : Nat) : Option Instr :=
  match decodeAdmitted Config.defaultParams (tableBytes nbits w) with
  | .ok i _ => some i
  | _ => none

end Sys2Proof
end

