-- ==== Sys2Proof/Machine/State.lean ====
section
/-! DEFINITION. The state of the machine, plain data (10_state.md), the reasons a step stops (60_exceptions.md R108, R119), and
the state after reset (R31). -/

namespace Sys2Proof.Machine

/-- Why memory is accessed: the data read of a count operand, or the fetch of instruction bytes (R28, R115). -/
inductive AccessKind where
  | read | fetch
deriving DecidableEq, Repr

/-- One answer of the parameter Translate that denies an access (R45, R49, D12): the addresses `base .. base + size - 1` are
one page, whose accesses of this kind at this privilege level page-fault. The flags are the parts of the error code that the
translation supplies (R115): protection violation (P), reserved bit (RSVD), protection key (PK), and, for a fetch, that
execute-disable is enabled (I/D). The page's size is the translation's own: the spec names none (log 6). -/
structure PageDenial where
  base : Nat
  size : Nat
  kind : AccessKind
  cpl : BitVec 2
  protection : Bool
  reservedBit : Bool
  protectionKey : Bool
  executeDisable : Bool
deriving DecidableEq, Repr

/-- A range of addresses, `base .. base + size - 1`. -/
structure Region where
  base : Nat
  size : Nat
deriving DecidableEq, Repr

/-- Memory: (address, byte) pairs, addresses strictly rising, no entry equal to what an unlisted address reads as. -/
abbrev Memory := List Host.Cell

/-- The state: every piece of state the spec gives the machine (INVENTORY.md, State). -/
structure State where
  /-- `ZMM[0..31]` (R15); `XMM[n]` and `YMM[n]` are the low 128 and 256 bits (R16). -/
  zmm : Vector Zmm 32
  /-- `K[0..7]` (R17). -/
  k : Vector Opmask 8
  /-- `x[0..15]`: RAX, RCX, RDX, RBX, RSP, RBP, RSI, RDI, R8 to R15 (R19). -/
  gpr : Vector Addr 16
  /-- RIP (R20). -/
  pc : Addr
  /-- RFLAGS (R21); 64 bits is PRESUMED (log 19). -/
  rflags : BitVec 64
  /-- MXCSR (R22); 32 bits is PRESUMED (log 19). -/
  mxcsr : BitVec 32
  /-- CR0 (R23); 64 bits is PRESUMED (log 19). -/
  cr0 : BitVec 64
  /-- CR4 (R24); 64 bits is PRESUMED (log 19). -/
  cr4 : BitVec 64
  /-- XCR0 (R24). -/
  xcr0 : BitVec 64
  /-- IA32_EFER (R26); 64 bits is PRESUMED (log 19). -/
  efer : BitVec 64
  /-- The code segment's L bit (R26). -/
  csL : Bool
  /-- The code segment's base, treated as zero in 64-bit mode (R27, R31); 64 bits is PRESUMED (log 19). -/
  csBase : Addr
  /-- `FS.base` (R27, R44). -/
  fsBase : Addr
  /-- `GS.base` (R27, R44). -/
  gsBase : Addr
  /-- The current privilege level (R27, R126). -/
  cpl : BitVec 2
  /-- FEAT and VA_BITS (R8, R25), constants of the processor, and the model's own `legacyPrefixes` (log 8). -/
  params : Params
  /-- Memory (R28, R34). -/
  mem : Memory
  /-- Translate (R8, R45): the pages it denies. -/
  denials : List PageDenial
  /-- The device regions (R40, R129), which the model refuses to touch. -/
  devices : List Region
  /-- A debug trap pending from the previous instruction (R120, R131). -/
  pendingDebug : Bool
  /-- THE MODEL'S OWN: the number of the next free value (log 25). -/
  draws : Nat
deriving DecidableEq, Repr

/-- Why the machine stops with a fault (R108, R119). Each ends the run with no state changed (R122, D9). Safe: nothing is said
of what the handler does. -/
inductive Fault where
  /-- #UD, vector 6 (R109 to R111). Raised by `unavailable` and by the fetch of an illegal encoding. Safe. -/
  | invalidOpcode
  /-- #NM, vector 7 (R112). Raised by `unavailable` when CR0.TS is 1. Safe. -/
  | deviceNotAvailable
  /-- #SS(0), vector 12 (R113). Raised by `countStop` on a non-canonical operand address through SS. Safe. -/
  | stackSegment
  /-- #GP(0), vector 13 (R114). Raised by `countStop` on a non-canonical operand address through another segment, and by the
  fetch from a non-canonical address or of more than 15 bytes. Safe. -/
  | generalProtection
  /-- #PF, vector 14 (R115), with its error code (64 bits is PRESUMED, log 19) and the address CR2 records. Raised by
  `countStop` and by the fetch. Safe. -/
  | pageFault (code : BitVec 64) (cr2 : Addr)
  /-- #AC(0), vector 17 (R116). Raised by `countStop` where a free value says so. Safe. -/
  | alignmentCheck
  /-- #DB, vector 1 (R108, R131). Raised by `step` for a trap pending from the previous instruction. Safe. -/
  | debug
deriving DecidableEq, Repr

/-- The exception number of a fault (R108). -/
def Fault.vector : Fault → Nat
  | .debug => 1
  | .invalidOpcode => 6
  | .deviceNotAvailable => 7
  | .stackSegment => 12
  | .generalProtection => 13
  | .pageFault _ _ => 14
  | .alignmentCheck => 17

/-- The error code of a fault, where there is one (R108, R119). -/
def Fault.errorCode : Fault → Option (BitVec 64)
  | .stackSegment | .generalProtection | .alignmentCheck => some 0
  | .pageFault code _ => some code
  | _ => none

/-- The address a fault records, where it records one (R119). -/
def Fault.address : Fault → Option Addr
  | .pageFault _ cr2 => some cr2
  | _ => none

/-- Why a step has no meaning. All are safe: the model says nothing where the hardware may go on. -/
inductive Refusal where
  /-- An instruction whose meaning is not written: no arm of `exec` uses it. Safe. -/
  | notModelled (mnemonic : String)
  /-- The bytes at the pc are no form of the family (R59, R73, D18). Raised by the fetch. Safe. -/
  | notInFamily
  /-- A form of the family with a segment-override or address-size prefix, where the parameters do not admit it (R57, R44, D15,
  U5; log 8). Raised by the fetch. Safe. -/
  | legacyPrefix
  /-- Execution in compatibility or protected 32-bit mode, or bytes that other modes decode in their own way (R6 b, R26, D1,
  D22). Raised by `unavailable` and by the fetch. Safe. -/
  | outside64BitMode
  /-- A memory operand or an instruction byte on device memory (R40, R129, D20). Raised by `countStop` and by the fetch. Safe. -/
  | deviceMemory
deriving DecidableEq, Repr

/-- A stop: a fault or a refusal. -/
inductive Stop where
  | fault (f : Fault)
  | refuse (r : Refusal)
deriving DecidableEq, Repr

/-- The three outcomes of a step of this machine. -/
abbrev Outcome := Host.Outcome State Fault Refusal

/-- The state after a power-up reset (R31). What R31 leaves unspecified or does not name (RAX, RDX, CS.L, FS.base, GS.base,
memory, Translate, the device regions) has the values of logs 2 to 7. In this state every form raises #UD (R31, R132). -/
def State.reset : State where
  zmm := Vector.replicate 32 0
  k := Vector.replicate 8 0
  gpr := Vector.replicate 16 0
  pc := 0x000000000000FFF0
  rflags := 0x00000002
  mxcsr := 0x1F80
  cr0 := 0x60000010
  cr4 := 0
  xcr0 := 1
  efer := 0
  csL := false
  csBase := 0xFFFF0000
  fsBase := 0
  gsBase := 0
  cpl := 0
  params := Config.defaultParams
  mem := []
  denials := []
  devices := []
  pendingDebug := false
  draws := 0

end Sys2Proof.Machine
end

