-- ==== Sys2Proof/Machine/Flags.lean ====
section
/-! DEFINITION. The status, control and mode bits the family's conditions test (10_state.md R21 to R27). The family computes no
flag: no form reads or writes a status flag, MXCSR or an opmask register (R21, R22, R89). -/

namespace Sys2Proof.Machine

/-- CR0.PE, bit 0; 0 is real-address mode (R23). -/
def State.pe (s : State) : Bool := s.cr0.getLsbD 0

/-- CR0.TS, bit 3 (R23, R112). -/
def State.ts (s : State) : Bool := s.cr0.getLsbD 3

/-- CR0.AM, bit 18 (R23, R116). -/
def State.am (s : State) : Bool := s.cr0.getLsbD 18

/-- CR0.PG, bit 31 (R23, R49). -/
def State.pg (s : State) : Bool := s.cr0.getLsbD 31

/-- RFLAGS.VM, bit 17: virtual-8086 mode (R21). -/
def State.vm (s : State) : Bool := s.rflags.getLsbD 17

/-- RFLAGS.AC, bit 18 (R21, R116). -/
def State.ac (s : State) : Bool := s.rflags.getLsbD 18

/-- RFLAGS.TF (R131); bit 8, PRESUMED (log 18). -/
def State.tf (s : State) : Bool := s.rflags.getLsbD 8

/-- CR4.OSXSAVE, bit 18 (R24). -/
def State.osxsave (s : State) : Bool := s.cr4.getLsbD 18

/-- IA32_EFER.LMA, bit 10 (R26). -/
def State.lma (s : State) : Bool := s.efer.getLsbD 10

/-- Real-address or virtual-8086 mode, in which every form raises #UD (R26, R109 a, R110 a). -/
def State.realOrV86 (s : State) : Bool := !s.pe || s.vm

/-- 64-bit mode: LMA is 1 and the code segment's L bit is 1 (R26). -/
def State.in64 (s : State) : Bool := !s.realOrV86 && s.lma && s.csL

/-- The XCR0 bits a form needs: `XCR0[2:1] = 11b`, and for an EVEX form also `XCR0[7:5] = 111b` (R24, R109 c, R110 c). -/
def State.xcr0Enables (s : State) (evex : Bool) : Bool :=
  s.xcr0.extractLsb' 1 2 == 3#2 && (!evex || s.xcr0.extractLsb' 5 3 == 7#3)

/-- Alignment checking is active when CR0.AM = 1, RFLAGS.AC = 1 and CPL = 3 (R116). -/
def State.alignmentCheckActive (s : State) : Bool := s.am && s.ac && s.cpl == 3#2

/-- The flags of a form's "CPUID Feature Flag" entry are all 1 (R2, R3, R111, taken literally, log 29). -/
def featuresPresent (f : Form) (x : Features) : Bool :=
  if f.evex then
    (f.vl == .v512 || x.avx512vl) && (if f.elem = .word then x.avx512bw else x.avx512f)
  else x.avx2

end Sys2Proof.Machine
end

