-- ==== Sys2Proof/Machine/Ops.lean ====
section
/-! DEFINITION. The named operations over registers and memory, the translation oracle, and taking an exception. -/

namespace Sys2Proof.Machine

/-! ### Registers (R10, R15, R17, R19, R20) -/

/-- `ZMM[n]`. -/
def State.zmmAt (s : State) (n : BitVec 5) : Zmm := s.zmm.get n.toFin

/-- `ZMM[n] <- v`, all 512 bits. -/
def State.setZmm (s : State) (n : BitVec 5) (v : Zmm) : State := { s with zmm := s.zmm.set n.toNat v n.isLt }

/-- `XMM[n]`, `ZMM[n][127:0]` (R16). -/
def State.xmmAt (s : State) (n : BitVec 5) : BitVec 128 := (s.zmmAt n).setWidth 128

/-- `YMM[n]`, `ZMM[n][255:0]` (R16). -/
def State.ymmAt (s : State) (n : BitVec 5) : BitVec 256 := (s.zmmAt n).setWidth 256

/-- `K[n]`. -/
def State.kAt (s : State) (n : BitVec 3) : Opmask := s.k.get n.toFin

/-- `x[n]`. -/
def State.gprAt (s : State) (n : BitVec 4) : Addr := s.gpr.get n.toFin

/-- `pc <- target`. -/
def State.setPc (s : State) (target : Addr) : State := { s with pc := target }

/-- `pc <- trunc_64(pc + len)` (R14, R20). -/
def State.advance (s : State) (len : Nat) : State := s.setPc (s.pc + BitVec.ofNat 64 len)

/-- Use up `n` free values (log 25). -/
def State.spend (s : State) (n : Nat) : State := { s with draws := s.draws + n }

/-! ### Memory (R28, R34) -/

/-- What an unlisted address reads as: 0, DESIGN CHOICE (log 2). -/
def unlistedByte : Byte := 0#8

/-- The byte at an address. -/
def Memory.read : Memory → Nat → Byte
  | [], _ => unlistedByte
  | (x, c) :: m, a => if x = a then c else Memory.read m a

/-- One byte stored, keeping the canonical form. -/
def Memory.write : Memory → Nat → Byte → Memory
  | [], a, b => if b = unlistedByte then [] else [(a, b)]
  | (x, c) :: m, a, b =>
    if x < a then (x, c) :: Memory.write m a b
    else if x = a then (if b = unlistedByte then m else (a, b) :: m)
    else (if b = unlistedByte then (x, c) :: m else (a, b) :: (x, c) :: m)

/-- The canonical form: addresses strictly rising and inside the 64-bit address space, no entry equal to what an unlisted
address reads as. -/
abbrev Memory.wf (m : Memory) : Prop :=
  m.Pairwise (fun c d => c.1 < d.1) ∧ ∀ c ∈ m, c.1 < 2 ^ 64 ∧ c.2 ≠ unlistedByte

/-- Byte `k` of an access at linear address `la`; addresses wrap modulo 2^64 (R45). -/
def byteAddr (la : Addr) (k : Nat) : Addr := la + BitVec.ofNat 64 k

/-- The byte at a linear address. -/
def State.byteAt (s : State) (a : Addr) : Byte := s.mem.read a.toNat

/-- `MemWrite` of a list of bytes, the first at the lowest address (R10, R34). No form of the family uses it; loading a
program does. -/
def writeBytes (m : Memory) (la : Addr) : List Byte → Memory
  | [] => m
  | b :: bs => writeBytes (m.write la.toNat b) (la + 1) bs

/-! ### Address checks (R45, R49, R40) -/

/-- An address is canonical when its bits `63 : VA_BITS-1` are all equal (R45). -/
def canonical (p : Params) (a : Addr) : Bool :=
  let n := Config.vaBits p - 1
  let top := a.toNat >>> n
  top == 0 || top == 2 ^ (64 - n) - 1

/-- Whether a range holds an address. -/
def Region.holds (r : Region) (a : Addr) : Bool := decide (r.base ≤ a.toNat) && decide (a.toNat < r.base + r.size)

/-- Whether an address is device memory (R40, D20). -/
def State.isDevice (s : State) (a : Addr) : Bool := s.devices.any (fun r => r.holds a)

/-- Whether a denial is of this access, for a byte of its page. -/
def PageDenial.denies (d : PageDenial) (kind : AccessKind) (cpl : BitVec 2) (a : Addr) : Bool :=
  d.kind == kind && d.cpl == cpl && (Region.mk d.base d.size).holds a

/-- The page-fault error code (R115): bit 0 P, bit 1 W/R = 0, bit 2 U/S (CPL = 3), bit 3 RSVD, bit 4 I/D (fetch only),
bit 5 PK. -/
def PageDenial.code (d : PageDenial) : BitVec 64 :=
  (BitVec.ofBool d.protectionKey ++ BitVec.ofBool (d.kind == .fetch && d.executeDisable) ++ BitVec.ofBool d.reservedBit ++
    BitVec.ofBool (d.cpl == 3#2) ++ 0#1 ++ BitVec.ofBool d.protection).setWidth 64

/-- The page faults of an access to the addresses `as`, in ascending order of the operand's bytes: one for each denying page,
at the first of `as` in it (R45, R115; log 13). Without paging there are none (R23, R49). -/
def State.pageFaults (s : State) (kind : AccessKind) (as : List Addr) : List Fault :=
  if s.pg then
    s.denials.filterMap fun d => (as.find? (d.denies kind s.cpl)).map fun a => .pageFault d.code a
  else []

/-- The page fault that is reported: where several pages fault, a free value chooses (R45; log 12). -/
def State.reportedPageFault (s : State) (kind : AccessKind) (as : List Addr) : Option Fault :=
  match s.pageFaults kind as with
  | [] => none
  | [f] => some f
  | f :: g :: rest => some ((f :: g :: rest).getD (Config.pageDraw s.draws % (rest.length + 2)) f)

/-! ### Taking an exception (R119, R122) -/

/-- `raise X(info)`: the run ends with the fault and no state is changed (R10, R119, R122, D9). The return from an exception is
outside the machine: the model has no handler and no return instruction (R124, scope file R6 c). -/
def raise (f : Fault) : Outcome := .fault f

/-- A stop as an outcome of a step. -/
def Stop.outcome : Stop → Outcome
  | .fault f => raise f
  | .refuse r => .refused r

end Sys2Proof.Machine
end

