-- ==== Sys2Proof/Machine/Operands.lean ====
section
/-! DEFINITION. The operands of a form: address formation (20_memory.md R41 to R44), which bytes of a memory operand are
accessed (R37, R46), their checks (R45, R113 to R116) and the count vector they give (R86, R88 steps 5 and 6). -/

namespace Sys2Proof.Machine

/-- The operands of any form, register numbers widened to five bits (R65, R66), with the instruction's length. -/
structure Operands where
  prefixes : List LegacyPrefix
  dest : BitVec 5
  src1 : BitVec 5
  count : Count 5
  aaa : BitVec 3
  z : Bool
  b : Bool
  len : Nat
deriving DecidableEq, Repr

/-- A VEX form: registers 0 to 15, no mask, no broadcast (R18, R65). -/
def ofVex (a : VexArgs) : Operands where
  prefixes := a.prefixes
  dest := a.dest.setWidth 5
  src1 := a.src1.setWidth 5
  count := match a.count with
    | .reg r => .reg (r.setWidth 5)
    | .mem m => .mem m
  aaa := 0
  z := false
  b := false
  len := a.length

/-- An EVEX form (R66). -/
def ofEvex (a : EvexArgs) : Operands where
  prefixes := a.prefixes
  dest := a.dest
  src1 := a.src1
  count := a.count
  aaa := a.aaa
  z := a.z
  b := a.b
  len := a.length

/-- The operands of an instruction. -/
def operandsOf (i : Instr) : Operands :=
  match i.args with
  | .vex a => ofVex a
  | .evex a => ofEvex a

/-! ### Masks (R18, R84) -/

/-- A writemask is in use: `aaa` is not 000. -/
def Operands.masked (o : Operands) : Bool := o.aaa != 0#3

/-- Element `j` is enabled: no writemask, or its mask bit is 1. -/
def Operands.enabled (o : Operands) (s : State) (j : Nat) : Bool := !o.masked || (s.kAt o.aaa).getLsbD j

/-- Some element below KL is enabled. -/
def Operands.anyEnabled (f : Form) (o : Operands) (s : State) : Bool := (List.range f.lanes).any (o.enabled s)

/-! ### Address formation (R41 to R44) -/

/-- The address-size prefix `67H` is present (R44). -/
def Operands.addr32 (o : Operands) : Bool := o.prefixes.contains .addr32

/-- The low 32 bits, zero-extended. -/
def low32 (a : Addr) : Addr := (a.setWidth 32).setWidth 64

/-- A general register in an address: all of it, or its low 32 bits under `67H` (R44). -/
def addrReg (a32 : Bool) (s : State) (n : BitVec 4) : Addr := if a32 then low32 (s.gprAt n) else s.gprAt n

/-- Bytes of the memory operand that a form reads: one element for a broadcast, else VL/8 (R37). -/
def countBytes (f : Form) (b : Bool) : Nat := if b then f.elem.bits / 8 else f.vl.bits / 8

/-- The factor of an 8-bit displacement: N of R42, 1 for a VEX form. -/
def dispScale (f : Form) (b : Bool) : Nat := if f.evex then countBytes f b else 1

/-- The value of a displacement (R42). -/
def dispValue (n : Nat) : Disp → Addr
  | .none => 0
  | .d8 d => d.signExtend 64 * BitVec.ofNat 64 n
  | .d32 d => d.signExtend 64

/-- The index term of a SIB byte: index 0100b means none (R41). -/
def indexTerm (a32 : Bool) (s : State) (scale : BitVec 2) (index : BitVec 4) : Addr :=
  if index = 4#4 then 0 else addrReg a32 s index <<< scale.toNat

/-- The effective address (R41 to R43), truncated to 32 bits under `67H` (R44). `next` is `pc + len`. -/
def effectiveAddress (a32 : Bool) (n : Nat) (next : Addr) (s : State) (m : MemOperand) : Addr :=
  let ea := match m with
    | .base b d => addrReg a32 s b + dispValue n d
    | .rip d => next + d.signExtend 64
    | .sib scale index b d => addrReg a32 s b + indexTerm a32 s scale index + dispValue n d
    | .sibNoBase scale index d => indexTerm a32 s scale index + d.signExtend 64
  if a32 then low32 ea else ea

/-- The FS base is the one to add: an FS override, and no GS override beside it unless a free value says so (R44; log 10). -/
def usesFs (ps : List LegacyPrefix) : Bool :=
  ps.contains .fs && (!ps.contains .gs || Config.overrideChoice (ps.map LegacyPrefix.byte))

/-- The base that a segment override adds: FS.base, GS.base, or nothing (R44). -/
def segmentBase (ps : List LegacyPrefix) (s : State) : Addr :=
  if usesFs ps then s.fsBase else if ps.contains .gs then s.gsBase else 0

/-- The linear address of the memory operand (R44). -/
def linearAddress (f : Form) (o : Operands) (m : MemOperand) (s : State) : Addr :=
  segmentBase o.prefixes s +
    effectiveAddress o.addr32 (dispScale f o.b) (s.pc + BitVec.ofNat 64 o.len) s m

/-- The default segment is SS when the base register is RSP or RBP (R44, R113). -/
def stackBased : MemOperand → Bool
  | .base b _ => b == 4#4 || b == 5#4
  | .sib _ _ b _ => b == 4#4 || b == 5#4
  | _ => false

/-- A CS, DS, ES or SS override, which adds nothing to the address (R44). -/
def isNullOverride : LegacyPrefix → Bool
  | .es | .cs | .ss | .ds => true
  | _ => false

/-- Whether the operand is addressed through SS (R44, R113, R114). An FS or GS override names another segment. A CS, DS, ES or
SS override that agrees with the default segment changes nothing; where it disagrees the spec does not say, and a free value
chooses (log 9). -/
def throughSS (o : Operands) (m : MemOperand) (s : State) : Bool :=
  if o.prefixes.contains .fs || o.prefixes.contains .gs then false
  else if (o.prefixes.filter isNullOverride).all (fun p => (p == .ss) == stackBased m) then stackBased m
  else Config.segmentDraw s.draws

/-! ### Access checks (R45, R46, R113 to R116) -/

/-- Byte `k` of the memory operand is accessed: its element is enabled, or, for a broadcast, some element is (R46). -/
def accessed (f : Form) (o : Operands) (s : State) (k : Nat) : Bool :=
  if o.b then o.anyEnabled f s else o.enabled s (k / (f.elem.bits / 8))

/-- The accessed addresses, the set A of R45, in ascending order of the operand's bytes. -/
def accessedAddrs (f : Form) (o : Operands) (s : State) (la : Addr) : List Addr :=
  ((List.range (countBytes f o.b)).filter (accessed f o s)).map (byteAddr la)

/-- A broadcast read that alignment checking may stop: active, accessed, not naturally aligned (R116; log 11). -/
def alignmentOpen (f : Form) (o : Operands) (s : State) (la : Addr) : Bool :=
  s.alignmentCheckActive && o.b && o.anyEnabled f s && decide (la.toNat % (f.elem.bits / 8) ≠ 0)

/-- What stops the read of a memory operand at `la`, in the order of R120: a non-canonical accessed byte, a page fault on an
accessed byte, the alignment check. Device memory is refused before any page is looked up, whether or not its bytes are
accessed (R40, D20, U14). -/
def memoryStop (f : Form) (o : Operands) (s : State) (m : MemOperand) (la : Addr) : Option Stop :=
  let as := accessedAddrs f o s la
  if as.any (fun a => !canonical s.params a) then
    some (.fault (if throughSS o m s then .stackSegment else .generalProtection))
  else if (List.range (countBytes f o.b)).any (fun k => s.isDevice (byteAddr la k)) then some (.refuse .deviceMemory)
  else
    match s.reportedPageFault .read as with
    | some p => some (.fault p)
    | none =>
      if alignmentOpen f o s la && Config.alignmentDraw s.draws then some (.fault .alignmentCheck) else none

/-- What stops the read of the count operand; a register operand never stops (R92). -/
def countStop (f : Form) (o : Operands) (s : State) : Option Stop :=
  match o.count with
  | .reg _ => none
  | .mem m => memoryStop f o s m (linearAddress f o m s)

/-- Free values that the completed read of the count operand has used (log 25). -/
def countDraws (f : Form) (o : Operands) (s : State) : Nat :=
  match o.count with
  | .reg _ => 0
  | .mem m => if alignmentOpen f o s (linearAddress f o m s) then 1 else 0

end Sys2Proof.Machine
end

