-- ==== Sys2Proof/Machine/Shift.lean ====
section
/-! DEFINITION. The semantics common to every form (40_common_semantics.md): the lane function, the vector function, the count
vector, the checks before execution, and the execution sequence of R88. -/

namespace Sys2Proof.Machine

/-! ### Lanes (R9) -/

/-- Element `j` of a vector, element width `w`: bits `j*w + w - 1 : j*w` (R9). -/
def lane (w j : Nat) (v : Zmm) : BitVec w := v.extractLsb' (w * j) w

/-- The vector of 512 bits whose elements `0 .. n-1` are `f 0 .. f (n-1)` and whose other bits are 0. -/
def ofLanes (w : Nat) (f : Nat → BitVec w) : Nat → Zmm
  | 0 => 0#512
  | n + 1 => ofLanes w f n ||| ((f n).setWidth 512 <<< (w * n))

/-! ### The lane function and the vector function (R80, R83) -/

/-- `SLL_w(a, c)`: 0 for a count above `w - 1`, else the low `w` bits of `a * 2^c`; the count is the whole element, unsigned
(R80, R81). -/
def sll {w : Nat} (a c : BitVec w) : BitVec w := if w ≤ c.toNat then 0#w else a <<< c.toNat

/-- `VSLLV` (R83): masking by R84 and R85, the bits at and above VL zero by R87. -/
def vsllv (w vl : Nat) (masked zeroing : Bool) (k : Opmask) (old s1 s2 : Zmm) : Zmm :=
  ofLanes w (fun j =>
    if !masked || k.getLsbD j then sll (lane w j s1) (lane w j s2)
    else if zeroing then 0#w
    else lane w j old) (vl / w)

/-! ### The count vector (R34, R86) -/

/-- `MemRead(la, n)`, little-endian; the bytes that are not accessed are taken as zero (R34, R45). -/
def loadBytes (s : State) (la : Addr) (acc : Nat → Bool) (n : Nat) : Zmm :=
  ofLanes 8 (fun k => if acc k then s.byteAt (byteAddr la k) else 0#8) n

/-- The count vector `s2` (R88 step 6): a register, `VL/8` bytes of memory, or one element of memory repeated KL times (R86). -/
def countVector (f : Form) (o : Operands) (s : State) : Zmm :=
  match o.count with
  | .reg r => s.zmmAt r
  | .mem m =>
    let v := loadBytes s (linearAddress f o m s) (accessed f o s) (countBytes f o.b)
    if o.b then ofLanes f.elem.bits (fun _ => lane f.elem.bits 0 v) f.lanes else v

/-! ### The checks before execution (R109 to R112) -/

/-- The count operand is memory. -/
def Operands.isMemory (o : Operands) : Bool :=
  match o.count with
  | .reg _ => false
  | .mem _ => true

/-- What stops a form before it touches memory, in the order of R120: outside 64-bit mode (#UD in real-address and
virtual-8086 mode, R109 a, R110 a; a refusal in the other modes, R6 b), the remaining #UD conditions (R109, R110, R111), then
#NM (R112). -/
def unavailable (f : Form) (o : Operands) (s : State) : Option Stop :=
  if s.realOrV86 then some (.fault .invalidOpcode)
  else if !s.in64 then some (.refuse .outside64BitMode)
  else if !s.osxsave || !s.xcr0Enables f.evex || !featuresPresent f s.params.feat then some (.fault .invalidOpcode)
  else if (illegalFields f.elem o.z o.b o.aaa o.isMemory).isSome then some (.fault .invalidOpcode)
  else if s.ts then some (.fault .deviceNotAvailable)
  else none

/-! ### The execution sequence (R88) -/

/-- The new value of the destination register (R88 steps 4 to 8). -/
def shifted (f : Form) (o : Operands) (s : State) : Zmm :=
  vsllv f.elem.bits f.vl.bits o.masked o.z (s.kAt o.aaa) (s.zmmAt o.dest) (s.zmmAt o.src1) (countVector f o s)

/-- The state after a form that completes: the destination register and the pc have changed (R30, R88 steps 8 and 9). -/
def completed (f : Form) (o : Operands) (s : State) : State :=
  ((s.spend (countDraws f o s)).setZmm o.dest (shifted f o s)).advance o.len

/-- `Exec` (R88): the checks, the read of the count operand with its faults, then the write and the advance. -/
def execShift (f : Form) (o : Operands) (s : State) : Outcome :=
  match unavailable f o s with
  | some stop => stop.outcome
  | none =>
    match countStop f o s with
    | some stop => stop.outcome
    | none => .next (completed f o s)

end Sys2Proof.Machine
end

