-- ==== Sys2Proof/Machine/Vpsllvd.lean ====
section
/-! DEFINITION. The meanings of VPSLLVD: one definition for each form, over the execution sequence of R88. -/

namespace Sys2Proof.Machine

/-- VPSLLVD.VEX128 (R97): 4 doublewords, no mask. -/
def execVpsllvdVex128 (a : VexArgs) (s : State) : Outcome :=
  execShift ⟨false, .dword, .v128⟩ (ofVex a) s

/-- VPSLLVD.VEX256 (R98): 8 doublewords, no mask. -/
def execVpsllvdVex256 (a : VexArgs) (s : State) : Outcome :=
  execShift ⟨false, .dword, .v256⟩ (ofVex a) s

/-- VPSLLVD.EVEX128 (R99): 4 doublewords, mask bits 3:0, broadcast of 4 bytes. -/
def execVpsllvdEvex128 (a : EvexArgs) (s : State) : Outcome :=
  execShift ⟨true, .dword, .v128⟩ (ofEvex a) s

/-- VPSLLVD.EVEX256 (R100): 8 doublewords, mask bits 7:0, broadcast of 4 bytes. -/
def execVpsllvdEvex256 (a : EvexArgs) (s : State) : Outcome :=
  execShift ⟨true, .dword, .v256⟩ (ofEvex a) s

/-- VPSLLVD.EVEX512 (R101): 16 doublewords, mask bits 15:0, broadcast of 4 bytes. -/
def execVpsllvdEvex512 (a : EvexArgs) (s : State) : Outcome :=
  execShift ⟨true, .dword, .v512⟩ (ofEvex a) s

end Sys2Proof.Machine
end

