-- ==== Sys2Proof/Machine/Vpsllvq.lean ====
section
/-! DEFINITION. The meanings of VPSLLVQ: one definition for each form, over the execution sequence of R88. -/

namespace Sys2Proof.Machine

/-- VPSLLVQ.VEX128 (R102): 2 quadwords, no mask; an out-of-range count zeroes the whole element (90_conflicts.md C1). -/
def execVpsllvqVex128 (a : VexArgs) (s : State) : Outcome :=
  execShift ⟨false, .qword, .v128⟩ (ofVex a) s

/-- VPSLLVQ.VEX256 (R103): 4 quadwords, no mask. -/
def execVpsllvqVex256 (a : VexArgs) (s : State) : Outcome :=
  execShift ⟨false, .qword, .v256⟩ (ofVex a) s

/-- VPSLLVQ.EVEX128 (R104): 2 quadwords, mask bits 1:0, broadcast of 8 bytes. -/
def execVpsllvqEvex128 (a : EvexArgs) (s : State) : Outcome :=
  execShift ⟨true, .qword, .v128⟩ (ofEvex a) s

/-- VPSLLVQ.EVEX256 (R105): 4 quadwords, mask bits 3:0, broadcast of 8 bytes. -/
def execVpsllvqEvex256 (a : EvexArgs) (s : State) : Outcome :=
  execShift ⟨true, .qword, .v256⟩ (ofEvex a) s

/-- VPSLLVQ.EVEX512 (R106): 8 quadwords, mask bits 7:0, broadcast of 8 bytes. -/
def execVpsllvqEvex512 (a : EvexArgs) (s : State) : Outcome :=
  execShift ⟨true, .qword, .v512⟩ (ofEvex a) s

end Sys2Proof.Machine
end

