-- ==== Sys2Proof/Machine/Vpsllvw.lean ====
section
/-! DEFINITION. The meanings of VPSLLVW: one definition for each form, over the execution sequence of R88. -/

namespace Sys2Proof.Machine

/-- VPSLLVW.EVEX128 (R94): 8 words, mask bits 7:0, no broadcast. -/
def execVpsllvwEvex128 (a : EvexArgs) (s : State) : Outcome :=
  execShift ⟨true, .word, .v128⟩ (ofEvex a) s

/-- VPSLLVW.EVEX256 (R95): 16 words, mask bits 15:0, no broadcast. -/
def execVpsllvwEvex256 (a : EvexArgs) (s : State) : Outcome :=
  execShift ⟨true, .word, .v256⟩ (ofEvex a) s

/-- VPSLLVW.EVEX512 (R96): 32 words, mask bits 31:0, no broadcast. -/
def execVpsllvwEvex512 (a : EvexArgs) (s : State) : Outcome :=
  execShift ⟨true, .word, .v512⟩ (ofEvex a) s

end Sys2Proof.Machine
end

