-- ==== Sys2Proof/Machine/Dispatch.lean ====
section
/-! DEFINITION. One arm for each of the thirteen forms (R2). -/

namespace Sys2Proof.Machine

def exec (i : Instr) (s : State) : Host.Outcome State Fault Refusal :=
  match i with
  | .vpsllvdVex128 a => Sys2Proof.Machine.execVpsllvdVex128 a s
  | .vpsllvqVex128 a => Sys2Proof.Machine.execVpsllvqVex128 a s
  | .vpsllvdVex256 a => Sys2Proof.Machine.execVpsllvdVex256 a s
  | .vpsllvqVex256 a => Sys2Proof.Machine.execVpsllvqVex256 a s
  | .vpsllvwEvex128 a => Sys2Proof.Machine.execVpsllvwEvex128 a s
  | .vpsllvwEvex256 a => Sys2Proof.Machine.execVpsllvwEvex256 a s
  | .vpsllvwEvex512 a => Sys2Proof.Machine.execVpsllvwEvex512 a s
  | .vpsllvdEvex128 a => Sys2Proof.Machine.execVpsllvdEvex128 a s
  | .vpsllvdEvex256 a => Sys2Proof.Machine.execVpsllvdEvex256 a s
  | .vpsllvdEvex512 a => Sys2Proof.Machine.execVpsllvdEvex512 a s
  | .vpsllvqEvex128 a => Sys2Proof.Machine.execVpsllvqEvex128 a s
  | .vpsllvqEvex256 a => Sys2Proof.Machine.execVpsllvqEvex256 a s
  | .vpsllvqEvex512 a => Sys2Proof.Machine.execVpsllvqEvex512 a s

end Sys2Proof.Machine
end

