-- ==== Sys2Proof/Machine/Fetch.lean ====
section
/-! DEFINITION. Fetching and decoding the instruction at the pc (20_memory.md R28, R35; 30_encoding.md R68), with the faults of a
fetch (60_exceptions.md R114, R115, R120), and the launch of a program (10_state.md R32). -/

namespace Sys2Proof.Machine

/-- The base that the pc is an offset from: zero in 64-bit mode (R27), else the code segment's base. Of the other modes the spec
gives only the first fetch after reset (R31); that the base is added there in every mode and at every pc is DESIGN CHOICE (log 32). -/
def State.codeBase (s : State) : Addr := if s.in64 then 0 else s.csBase

/-- The address of instruction byte `k`: in 64-bit mode `pc + k` modulo 2^64 (R20, R35). DESIGN CHOICE (log 32): outside 64-bit mode
the sum of base, whole 64-bit pc and `k`, modulo 2^64, with no wrap at 16 or 32 bits and no limit check; no form runs there. -/
def State.fetchAddr (s : State) (k : Nat) : Addr := byteAddr (s.codeBase + s.pc) k

/-- What stops the fetch of the byte at `a`: in 64-bit mode a non-canonical address (#GP(0), R114); device memory (a refusal,
D20); a page whose fetch the translation denies (#PF, R115). -/
def fetchStop (s : State) (a : Addr) : Option Stop :=
  if s.in64 && !canonical s.params a then some (.fault .generalProtection)
  else if s.isDevice a then some (.refuse .deviceMemory)
  else (s.reportedPageFault .fetch [a]).map .fault

/-- Up to `n` instruction bytes from byte `k` on, in ascending order (R35), and what stopped the fetch before the `n`-th. -/
def fetchFrom (s : State) (k : Nat) : Nat → List Byte × Option Stop
  | 0 => ([], none)
  | n + 1 =>
    match fetchStop s (s.fetchAddr k) with
    | some stop => ([], some stop)
    | none =>
      let r := fetchFrom s (k + 1) n
      (s.byteAt (s.fetchAddr k) :: r.1, r.2)

/-- The bytes an instruction may consist of: at most 15 (R70). -/
def fetchWindow (s : State) : List Byte × Option Stop := fetchFrom s 0 Config.maxInstrBytes

/-- What a fetch and decode give: an instruction to run, or a stop. -/
inductive Fetched where
  | run (i : Instr)
  | stop (st : Stop)
deriving DecidableEq, Repr

/-- The decoder's answer in 64-bit mode, `p` the parameters. Where the bytes end inside the instruction, the fault of the fetch is
taken, or, if all 15 bytes could be fetched, #GP(0) for an instruction over 15 bytes (R114, R120), whatever legacy prefixes stand
before it (log 34); bytes that settle a rejection before they end the instruction give that rejection (log 35). -/
def fetched64 (p : Params) (w : List Byte × Option Stop) : Fetched :=
  match decodeAdmitted p w.1 with
  | .ok i _ => .run i
  | .undefined _ => .stop (.fault .invalidOpcode)
  | .notInFamily => .stop (.refuse .notInFamily)
  | .notAdmitted => .stop (.refuse .legacyPrefix)
  | .truncated => .stop (w.2.getD (.fault .generalProtection))

/-- Outside 64-bit mode an escape byte introduces a VEX or EVEX prefix only where the top two bits of the byte after it are 11
(R68). -/
def escapeInEveryMode : List Byte → Bool
  | _ :: b :: _ => b.extractLsb' 6 2 == 3#2
  | _ => false

/-- The decoder's answer outside 64-bit mode, which the spec does not describe (R6 b, R68, D1): only an instruction whose escape
byte means the same in every mode is passed on (and `exec` then raises #UD or refuses); all else is refused (log 15). -/
def fetchedElsewhere (p : Params) (w : List Byte × Option Stop) : Fetched :=
  match decodeAdmitted p w.1 with
  | .ok i _ => if escapeInEveryMode (splitPrefixes w.1).2.2 then .run i else .stop (.refuse .outside64BitMode)
  | _ => .stop (.refuse .outside64BitMode)

/-- The instruction at the pc, or what stops its fetch or decoding. -/
def fetchInstr (s : State) : Fetched :=
  if s.in64 then fetched64 s.params (fetchWindow s) else fetchedElsewhere s.params (fetchWindow s)

/-- A completed instruction leaves a debug trap pending when RFLAGS.TF was 1 (R131; log 18). -/
def State.markTrap (s : State) (tf : Bool) : State := { s with pendingDebug := tf }

/-- The outcome of a step whose instruction has the outcome `o`. -/
def afterInstr (tf : Bool) (o : Outcome) : Outcome :=
  match o with
  | .next t => .next (t.markTrap tf)
  | .fault f => .fault f
  | .refused r => .refused r

/-! ### Launch (R32, R133) -/

/-- What system software does before a program of the family runs (R32, R133 rows 1 to 4, D1, D4, D6, D10): CR0.PE, CR0.PG, CR4.PAE,
IA32_EFER.LME and CS.L set, and so IA32_EFER.LMA (64-bit mode, R26); CR4.OSXSAVE and the XCR0 bits set; CR0.TS, CR0.AM, RFLAGS.VM
and RFLAGS.TF clear; no debug trap pending. PAE as bit 5 of CR4 and LME as bit 8 of IA32_EFER are PRESUMED (log 33), TF as bit 8 of
RFLAGS too (log 18). -/
def State.launch (s : State) : State :=
  { s with
    cr0 := (s.cr0 ||| 0x80000001#64) &&& ~~~ 0x40008#64
    rflags := s.rflags &&& ~~~ 0x20100#64
    cr4 := s.cr4 ||| 0x40020#64
    xcr0 := s.xcr0 ||| 0xE7#64
    efer := s.efer ||| 0x500#64
    csL := true
    pendingDebug := false }

/-- The addresses of the 15 bytes from the pc on. -/
def State.windowAddrs (s : State) : List Addr := (List.range Config.maxInstrBytes).map s.fetchAddr

/-- A pc from which 15 bytes can be fetched: the pc itself, or 0 where a byte would be non-canonical. -/
def State.settlePc (s : State) : State := if s.windowAddrs.all (canonical s.params) then s else s.setPc 0

/-- Store the bytes at the pc and let the fetch reach them: the fetch denials and the device regions on them are taken away. -/
def State.placeCode (s : State) (bs : List Byte) : State :=
  { s with
    mem := writeBytes s.mem (s.fetchAddr 0) bs
    denials := s.denials.filter fun d => !s.windowAddrs.any (d.denies .fetch s.cpl)
    devices := s.devices.filter fun r => !s.windowAddrs.any r.holds }

end Sys2Proof.Machine
end

