-- ==== Sys2Proof/Machine/Step.lean ====
section
/-! DEFINITION. One step of the machine: one instruction (R121, R135, R138). -/

namespace Sys2Proof.Machine

/-- One step: a debug trap pending from the previous instruction is taken first (R120); else the instruction at the pc is fetched,
decoded and executed. -/
def step (s : State) : Host.Outcome State Fault Refusal :=
  if s.pendingDebug then raise .debug
  else
    match fetchInstr s with
    | .run i => afterInstr s.tf (exec i s)
    | .stop st => st.outcome

/-- The state with the instruction of a table word stored where `step` fetches its next instruction. A form runs only from a
launch state (R32: "the model does not start from reset"), so this stands for the launch too: `State.launch` sets the mode and
enabling bits, and the fetch is made to reach the bytes (log 16). Registers, flags it does not name, data memory, FEAT and
everything else stay. -/
def State.withFetchWord (s : State) (nbits w : Nat) : State :=
  s.launch.settlePc.placeCode (tableBytes nbits w)

end Sys2Proof.Machine
end

