-- ==== Sys2Proof/Safety.lean ====
section
/-! DEFINITION. The terms the statements use: the launch premise of a run (00_scope.md R8, 92_eei_decisions.md), when an
instruction is available and its count operand readable, what its result is, and how a run ends (70_reset_and_hazards.md R139).
They are written from the rules with raw bits and addresses, not through the machine's own checks. -/

namespace Sys2Proof.Machine

/-! ### The launch premise -/

/-- The launch premise of a run (R8, R32, and the list at the end of 92_eei_decisions.md): 64-bit mode with paging (D1),
OS_ENABLED (D4), alignment checking not active (D6), RFLAGS.TF = 0 (bit 8, PRESUMED, log 18) and no debug trap pending (D10). -/
structure LaunchPremise (s : State) : Prop where
  protectedMode : s.cr0.getLsbD 0 = true
  notV86 : s.rflags.getLsbD 17 = false
  longMode : s.efer.getLsbD 10 = true
  codeL : s.csL = true
  paging : s.cr0.getLsbD 31 = true
  osxsave : s.cr4.getLsbD 18 = true
  sseAvxState : s.xcr0.getLsbD 1 = true ∧ s.xcr0.getLsbD 2 = true
  avx512State : s.xcr0.getLsbD 5 = true ∧ s.xcr0.getLsbD 6 = true ∧ s.xcr0.getLsbD 7 = true
  notSwitched : s.cr0.getLsbD 3 = false
  noAlignmentCheck : s.cr0.getLsbD 18 = false ∨ s.rflags.getLsbD 18 = false ∨ s.cpl ≠ 3#2
  noTrap : s.rflags.getLsbD 8 = false ∧ s.pendingDebug = false

/-- What rows 1 to 4 of R133 say system software has done: 64-bit mode entered with paging, OSXSAVE and the XCR0 bits set, CR0.TS
clear. The bits of CR4.PAE (5) and IA32_EFER.LME (8) are PRESUMED (log 33). -/
structure SystemSetUp (s : State) : Prop where
  protectedMode : s.cr0.getLsbD 0 = true
  pae : s.cr4.getLsbD 5 = true
  lme : s.efer.getLsbD 8 = true
  paging : s.cr0.getLsbD 31 = true
  codeL : s.csL = true
  osxsave : s.cr4.getLsbD 18 = true
  xcr0 : ∀ n ∈ [0, 1, 2, 5, 6, 7], s.xcr0.getLsbD n = true
  notSwitched : s.cr0.getLsbD 3 = false

/-! ### Availability -/

/-- The feature flags of a form's row (R2, R111). -/
def requiredFlags : Form → Features → Bool
  | ⟨false, _, _⟩, x => x.avx2
  | ⟨true, .word, .v512⟩, x => x.avx512bw
  | ⟨true, .word, _⟩, x => x.avx512vl && x.avx512bw
  | ⟨true, _, .v512⟩, x => x.avx512f
  | ⟨true, _, _⟩, x => x.avx512vl && x.avx512f

/-- 64-bit mode (R26), neither real-address nor virtual-8086 mode (R23, R21). -/
structure Mode64 (s : State) : Prop where
  protectedMode : s.cr0.getLsbD 0 = true
  notV86 : s.rflags.getLsbD 17 = false
  longMode : s.efer.getLsbD 10 = true
  codeL : s.csL = true

/-- The system-state conditions of R109 b, c, f and R110 b, c, j do not hold: no #UD for the state of the machine. -/
structure Enabled64 (f : Form) (s : State) : Prop where
  osxsave : s.cr4.getLsbD 18 = true
  sseAvxState : s.xcr0.getLsbD 1 = true ∧ s.xcr0.getLsbD 2 = true
  avx512State : f.evex = true → s.xcr0.getLsbD 5 = true ∧ s.xcr0.getLsbD 6 = true ∧ s.xcr0.getLsbD 7 = true
  features : requiredFlags f s.params.feat = true

/-- A form executes: 64-bit mode, enabled, and CR0.TS = 0 (R109 to R112). -/
structure Available (f : Form) (s : State) : Prop where
  mode : Mode64 s
  enabled : Enabled64 f s
  notSwitched : s.cr0.getLsbD 3 = false

/-- The R72 conditions on an instruction's own fields do not hold. -/
def LegalFields (f : Form) (o : Operands) : Prop :=
  ¬ (o.z = true ∧ o.aaa = 0#3) ∧ (o.b = true → f.elem ≠ .word ∧ ∃ m, o.count = .mem m)

/-! ### The count operand -/

/-- Element `j` is enabled (R84): no writemask, or its mask bit is 1. -/
def EnabledLane (o : Operands) (s : State) (j : Nat) : Prop :=
  o.aaa = 0#3 ∨ (s.k.get o.aaa.toFin).getLsbD j = true

/-- Byte `k` of the memory operand is accessed (R46). -/
def AccessedByte (f : Form) (o : Operands) (s : State) (k : Nat) : Prop :=
  if o.b = true then ∃ j < f.lanes, EnabledLane o s j else EnabledLane o s (k / (f.elem.bits / 8))

/-- An address is canonical (R45): bits 63 to VA_BITS-1 are all 0 or all 1. -/
def CanonicalAddr (p : Params) (a : Addr) : Prop :=
  a.toNat < 2 ^ (Config.vaBits p - 1) ∨ 2 ^ 64 - 2 ^ (Config.vaBits p - 1) ≤ a.toNat

/-- A range of addresses covers an address. -/
def Covers (base size : Nat) (a : Addr) : Prop := base ≤ a.toNat ∧ a.toNat < base + size

/-- The translation denies an access of this kind to an address (R45, R49): paging is on, and a page that denies the access at
this privilege level covers it. -/
def Denied (s : State) (kind : AccessKind) (a : Addr) : Prop :=
  s.cr0.getLsbD 31 = true ∧ ∃ d ∈ s.denials, d.kind = kind ∧ d.cpl = s.cpl ∧ Covers d.base d.size a

/-- An address is ordinary memory (R40). -/
def Ordinary (s : State) (a : Addr) : Prop := ∀ r ∈ s.devices, ¬ Covers r.base r.size a

/-- Alignment checking is active (R116). -/
def AlignmentChecked (s : State) : Prop :=
  s.cr0.getLsbD 18 = true ∧ s.rflags.getLsbD 18 = true ∧ s.cpl = 3#2

/-- A memory operand at `la` is read without a fault: its accessed bytes are canonical and granted, all of it is ordinary memory,
and no alignment check is open (R40, R45, R46, R116). -/
structure Readable (f : Form) (o : Operands) (s : State) (la : Addr) : Prop where
  canonical : ∀ k < countBytes f o.b, AccessedByte f o s k → CanonicalAddr s.params (byteAddr la k)
  ordinary : ∀ k < countBytes f o.b, Ordinary s (byteAddr la k)
  granted : ∀ k < countBytes f o.b, AccessedByte f o s k → ¬ Denied s .read (byteAddr la k)
  aligned : AlignmentChecked s → o.b = true → (∃ j < f.lanes, EnabledLane o s j) → la.toNat % (f.elem.bits / 8) = 0

/-- The count operand is read without a fault: a register always (R92), memory when it is `Readable`. -/
def CountReadable (f : Form) (o : Operands) (s : State) : Prop :=
  match o.count with
  | .reg _ => True
  | .mem m => Readable f o s (linearAddress f o m s)

/-- A vector holds the counts (R34, R37, R86): the register, or, for each enabled element, its bytes of memory in little-endian
order; a broadcast gives every element the bytes of the one memory element. -/
def CountIs (f : Form) (o : Operands) (s : State) (cnt : Zmm) : Prop :=
  match o.count with
  | .reg r => cnt = s.zmmAt r
  | .mem m =>
    ∀ j < f.lanes, EnabledLane o s j → ∀ n < f.elem.bits / 8,
      cnt.extractLsb' (8 * (j * (f.elem.bits / 8) + n)) 8 =
        s.byteAt (linearAddress f o m s + BitVec.ofNat 64 (if o.b = true then n else j * (f.elem.bits / 8) + n))

/-! ### The result -/

/-- Element `j` of width `w` as a number (R9). -/
def elemNat (w j : Nat) (v : Zmm) : Nat := (v.extractLsb' (j * w) w).toNat

/-- The new value of the destination register (R80, R83 to R87), given the count vector: an enabled element is shifted, 0 for a
count above `w - 1`; another element is zeroed or kept; the bits at and above VL are zero. -/
def ResultIs (f : Form) (o : Operands) (s : State) (cnt v : Zmm) : Prop :=
  (∀ j < f.lanes,
    (EnabledLane o s j →
      elemNat f.elem.bits j v =
        if f.elem.bits - 1 < elemNat f.elem.bits j cnt then 0
        else elemNat f.elem.bits j (s.zmmAt o.src1) * 2 ^ elemNat f.elem.bits j cnt % 2 ^ f.elem.bits) ∧
    (¬ EnabledLane o s j →
      elemNat f.elem.bits j v = if o.z = true then 0 else elemNat f.elem.bits j (s.zmmAt o.dest))) ∧
  ∀ n, f.vl.bits ≤ n → v.getLsbD n = false

/-- An instruction completes with the result the rules give: the destination register and the pc change, nothing else (R30). -/
def CompletesWithResult (i : Instr) (s : State) : Prop :=
  ∃ cnt v, CountIs i.form (operandsOf i) s cnt ∧ ResultIs i.form (operandsOf i) s cnt v ∧
    exec i s = .next ((s.setZmm (operandsOf i).dest v).setPc (s.pc + BitVec.ofNat 64 i.length))

/-! ### The fetch -/

/-- An instruction byte at an address can be fetched in 64-bit mode (R114, R115, D17, D20). -/
structure Fetchable (s : State) (a : Addr) : Prop where
  canonical : CanonicalAddr s.params a
  ordinary : Ordinary s a
  granted : ¬ Denied s .fetch a

/-- The machine admits an instruction (R57, D15): it has no legacy prefix, or the model's own parameter admits them (log 8). -/
def Admitted (i : Instr) (s : State) : Prop := (operandsOf i).prefixes = [] ∨ s.params.legacyPrefixes = true

/-! ### Rows of the opcode map (R67) -/

/-- The VEX rows of R67: the form and its match bits over the first five bytes, the first byte most significant. -/
def vexRows : List (Form × BitVec 40) :=
  [(⟨false, .dword, .v128⟩, 0xC402014700#40), (⟨false, .qword, .v128⟩, 0xC402814700#40),
   (⟨false, .dword, .v256⟩, 0xC402054700#40), (⟨false, .qword, .v256⟩, 0xC402854700#40)]

/-- The EVEX rows of R67, over the first six bytes. -/
def evexRows : List (Form × BitVec 48) :=
  [(⟨true, .word, .v128⟩, 0x620285001200#48), (⟨true, .word, .v256⟩, 0x620285201200#48),
   (⟨true, .word, .v512⟩, 0x620285401200#48), (⟨true, .dword, .v128⟩, 0x620205004700#48),
   (⟨true, .dword, .v256⟩, 0x620205204700#48), (⟨true, .dword, .v512⟩, 0x620205404700#48),
   (⟨true, .qword, .v128⟩, 0x620285004700#48), (⟨true, .qword, .v256⟩, 0x620285204700#48),
   (⟨true, .qword, .v512⟩, 0x620285404700#48)]

/-- The prefix bytes that are illegal before a VEX or EVEX prefix (R57). -/
def IllegalPrefixByte (b : Byte) : Prop :=
  b = 0x66#8 ∨ b = 0xF2#8 ∨ b = 0xF3#8 ∨ b = 0xF0#8 ∨ (0x40 ≤ b.toNat ∧ b.toNat ≤ 0x4F)

/-- The prefix bytes that are legal before a VEX or EVEX prefix (R57). -/
def LegalPrefixByte (b : Byte) : Prop :=
  b = 0x26#8 ∨ b = 0x2E#8 ∨ b = 0x36#8 ∨ b = 0x3E#8 ∨ b = 0x64#8 ∨ b = 0x65#8 ∨ b = 0x67#8

/-! ### Addresses (R41 to R44) -/

/-- `N`, the factor of an 8-bit displacement, by the table of R42. -/
def tupleScale (f : Form) (b : Bool) : Nat :=
  if f.evex = false then 1
  else if b = true then (if f.elem = .dword then 4 else 8)
  else match f.vl with
    | .v128 => 16
    | .v256 => 32
    | .v512 => 64

/-- A displacement as an integer (R42). -/
def dispInt (n : Nat) : Disp → Int
  | .none => 0
  | .d8 d => d.toInt * n
  | .d32 d => d.toInt

/-- The index term as an integer: register 4 means none, the scale multiplies by 1, 2, 4 or 8 (R41). -/
def indexInt (s : State) (scale : BitVec 2) (index : BitVec 4) : Int :=
  if index = 4#4 then 0 else (s.gprAt index).toNat * 2 ^ scale.toNat

/-- The effective address as an integer, before truncation (R41 to R43). -/
def addressInt (f : Form) (o : Operands) (s : State) : MemOperand → Int
  | .base b d => (s.gprAt b).toNat + dispInt (tupleScale f o.b) d
  | .rip d => s.pc.toNat + o.len + d.toInt
  | .sib sc i b d => (s.gprAt b).toNat + indexInt s sc i + dispInt (tupleScale f o.b) d
  | .sibNoBase sc i d => indexInt s sc i + d.toInt

/-- The base register is RSP or RBP, so the default segment is SS (R44). -/
def StackBase : MemOperand → Prop
  | .base b _ => b = 4#4 ∨ b = 5#4
  | .sib _ _ b _ => b = 4#4 ∨ b = 5#4
  | _ => False

/-- A CS, DS, ES or SS override. -/
def NullOverride (p : LegacyPrefix) : Prop := p = .cs ∨ p = .ds ∨ p = .es ∨ p = .ss

/-! ### Comparing runs -/

/-- An outcome with its next state, if it has one, changed by a function. -/
def mapNext (g : State → State) : Outcome → Outcome
  | .next t => .next (g t)
  | .fault f => .fault f
  | .refused r => .refused r

/-- Two states agree on everything the result of a form depends on (R30, R90 d, R91): the low VL bits of the first source, the
counts, the mask bits below KL, and, under merging, the elements of the old destination that are kept. -/
structure SameFootprint (f : Form) (o : Operands) (s s' : State) : Prop where
  src1 : ∀ n < f.vl.bits, (s.zmmAt o.src1).getLsbD n = (s'.zmmAt o.src1).getLsbD n
  countReg : ∀ r, o.count = .reg r → ∀ n < f.vl.bits, (s.zmmAt r).getLsbD n = (s'.zmmAt r).getLsbD n
  countMem : ∀ m, o.count = .mem m → ∀ k < countBytes f o.b, AccessedByte f o s k →
    s.byteAt (linearAddress f o m s + BitVec.ofNat 64 k) = s'.byteAt (linearAddress f o m s' + BitVec.ofNat 64 k)
  mask : o.aaa ≠ 0#3 → ∀ j < f.lanes, (s.kAt o.aaa).getLsbD j = (s'.kAt o.aaa).getLsbD j
  kept : o.z = false → ∀ n < f.vl.bits, ¬ EnabledLane o s (n / f.elem.bits) →
    (s.zmmAt o.dest).getLsbD n = (s'.zmmAt o.dest).getLsbD n

/-- The EVEX operands that say the same as those of a VEX form: no mask, no zeroing, no broadcast (R75 d). -/
def widen (a : VexArgs) : EvexArgs where
  prefixes := a.prefixes
  dest := a.dest.setWidth 5
  src1 := a.src1.setWidth 5
  count := match a.count with
    | .reg r => .reg (r.setWidth 5)
    | .mem m => .mem m
  aaa := 0
  z := false
  b := false

/-- A count operand whose address depends neither on the scale of an 8-bit displacement nor on the instruction's length. -/
def Unscaled {n : Nat} : Count n → Prop
  | .reg _ => True
  | .mem (.base _ d) | .mem (.sib _ _ _ d) => ∀ x, d ≠ .d8 x
  | .mem (.rip _) => False
  | .mem (.sibNoBase _ _ _) => True

/-! ### The invariant of the machine -/

/-- What every step keeps from any state: memory in its canonical form, and paging on in 64-bit mode (R49). -/
structure MachineInv (s : State) : Prop where
  memory : s.mem.wf
  paging : Mode64 s → s.cr0.getLsbD 31 = true

/-! ### The bytes at the pc -/

/-- The first `n` bytes at the pc in 64-bit mode (R20, R35). -/
def bytesAtPc (s : State) (n : Nat) : List Byte :=
  (List.range n).map fun k => s.byteAt (s.pc + BitVec.ofNat 64 k)

/-- A step runs the instruction `i` and does with its outcome what R131 says: after a completed instruction a debug trap is
pending exactly if RFLAGS.TF (bit 8, PRESUMED, log 18) is 1. -/
def StepRuns (i : Instr) (s : State) : Prop :=
  (∀ t, exec i s = .next t →
    step s = .next { t with pendingDebug := s.rflags.getLsbD 8 }) ∧
  (∀ x, exec i s = .fault x → step s = .fault x) ∧
  (∀ r, exec i s = .refused r → step s = .refused r)

/-! ### The end of a run (R139) -/

/-- How a run ends: at the end address, with a fault or a refusal and the state in which it stopped, or not within the steps
given. -/
inductive RunEnd where
  | completed (s : State)
  | faulted (f : Fault) (s : State)
  | refused (r : Refusal) (s : State)
  | unfinished (s : State)
deriving DecidableEq, Repr

/-- A run of at most `n` steps to the end address (R139). The end address is looked at first: a debug trap pending there is not taken,
DESIGN CHOICE (log 36). -/
def runTo (endAddr : Addr) : Nat → State → RunEnd
  | 0, s => if s.pc = endAddr then .completed s else .unfinished s
  | n + 1, s =>
    if s.pc = endAddr then .completed s
    else
      match step s with
      | .next t => runTo endAddr n t
      | .fault f => .faulted f s
      | .refused r => .refused r s

end Sys2Proof.Machine
end

