-- ==== Sys2Proof/Certificates/Slice0/Obligations.lean ====
section
/-! DEFINITION. The statements for the provers. Each docstring names the rules of spec/ it formalises. -/

open Sys2Proof Sys2Proof.Machine

/-! ### Encoding (30_encoding.md) -/

/-- R55 to R70: decoding the bytes of a well-formed instruction gives it back, every operand at every value, and leaves the bytes
after it. -/
def Obligations.DecodeInvertsEncode : Prop :=
  ∀ (i : Instr) (rest : List Byte), i.wf = true → decode (encode i ++ rest) = .ok i rest

/-- 95_test_vectors.md 2.5 and the example of R66: bytes written out in the spec decode to the instructions they stand for. -/
def Obligations.SpecWordsDecode : Prop :=
  decode [0x62#8, 0xF2#8, 0xED#8, 0xCA#8, 0x12#8, 0xCB#8] =
      .ok (.vpsllvwEvex512 ⟨[], 1, 2, .reg 3, 2, true, false⟩) [] ∧
  decode [0xC4#8, 0x02#8, 0x09#8, 0x47#8, 0x7C#8, 0xD1#8, 0x80#8] =
      .ok (.vpsllvdVex128 ⟨[], 15, 14, .mem (.sib 3 10 9 (.d8 0x80))⟩) [] ∧
  decode [0x62#8, 0x72#8, 0x95#8, 0x1B#8, 0x47#8, 0x6E#8, 0x01#8] =
      .ok (.vpsllvqEvex128 ⟨[], 13, 13, .mem (.base 6 (.d8 1)), 3, false, true⟩) []

/-- R62 to R66, R72: what the decoder accepts from at most 15 bytes is a well-formed instruction. -/
def Obligations.DecodedTermsAreWellFormed : Prop :=
  ∀ (bs rest : List Byte) (i : Instr), decode bs = .ok i rest → bs.length ≤ 15 → i.wf = true

/-- R70: the decoder consumes as many bytes as the instruction is long. -/
def Obligations.DecodeConsumesLength : Prop :=
  ∀ (bs rest : List Byte) (i : Instr), decode bs = .ok i rest →
    bs.length = i.length + rest.length ∧ bs.drop i.length = rest

/-- R67, R71: bytes without legacy prefixes are the VEX form of a row exactly when they match the row; no field value is
reserved. -/
def Obligations.VexRowsSelectForms : Prop :=
  ∀ row ∈ vexRows, ∀ (b0 b1 b2 b3 b4 : Byte) (tail : List Byte), 5 ≤ tail.length →
    ((∃ i rest, decode (b0 :: b1 :: b2 :: b3 :: b4 :: tail) = .ok i rest ∧ i.form = row.1 ∧ (operandsOf i).prefixes = []) ↔
      (b0 ++ b1 ++ b2 ++ b3 ++ b4) &&& 0xFF1F87FF00#40 = row.2)

/-- R67, R72: bytes without legacy prefixes are the EVEX form of a row exactly when they match the row and none of the illegal
settings of `z`, `aaa` and `b` holds. -/
def Obligations.EvexRowsSelectForms : Prop :=
  ∀ row ∈ evexRows, ∀ (b0 b1 b2 b3 b4 b5 : Byte) (tail : List Byte), 5 ≤ tail.length →
    ((∃ i rest, decode (b0 :: b1 :: b2 :: b3 :: b4 :: b5 :: tail) = .ok i rest ∧ i.form = row.1 ∧
        (operandsOf i).prefixes = []) ↔
      (b0 ++ b1 ++ b2 ++ b3 ++ b4 ++ b5) &&& 0xFF0F8760FF00#48 = row.2 ∧
      ¬ (b3.getLsbD 7 = true ∧ b3.extractLsb' 0 3 = 0#3) ∧
      (b3.getLsbD 4 = true → b4 = 0x47#8 ∧ b5.extractLsb' 6 2 ≠ 3#2))

/-- R60, R72: the illegal settings of an EVEX prefix, in any EVEX instruction or in a form of the family. -/
def Obligations.IllegalEvexFieldsRejected : Prop :=
  ∀ (p0 p1 p2 opcode modrm : Byte) (tail : List Byte), 5 ≤ tail.length →
    (p0.extractLsb' 2 2 ≠ 0#2 ∨ p1.getLsbD 2 = false →
      ∃ why, decode (0x62#8 :: p0 :: p1 :: p2 :: opcode :: modrm :: tail) = .undefined why) ∧
    (p0.extractLsb' 0 4 = 2#4 → p1.extractLsb' 0 3 = 5#3 → opcode = 0x47#8 ∨ (opcode = 0x12#8 ∧ p1.getLsbD 7 = true) →
      p2.extractLsb' 5 2 = 3#2 ∨ (p2.getLsbD 7 = true ∧ p2.extractLsb' 0 3 = 0#3) ∨
        (p2.getLsbD 4 = true ∧ (opcode = 0x12#8 ∨ modrm.extractLsb' 6 2 = 3#2)) →
      ∃ why, decode (0x62#8 :: p0 :: p1 :: p2 :: opcode :: modrm :: tail) = .undefined why)

/-- R57, R71, R72: an illegal prefix byte among the prefixes of a whole VEX or EVEX instruction makes it undefined. (Also outside the
family, log 26, and beside legal prefixes, log 34: the model's reading.) -/
def Obligations.IllegalPrefixesRejected : Prop :=
  ∀ (ps bs : List Byte), (∀ b ∈ ps, IllegalPrefixByte b ∨ LegalPrefixByte b) → (∃ b ∈ ps, IllegalPrefixByte b) →
    (∃ tail, bs = 0xC4#8 :: tail ∨ bs = 0x62#8 :: tail) → decode bs ≠ .truncated →
    decode (ps ++ bs) = .undefined .illegalPrefix

/-- R73: the neighbouring encodings are not in the family, and a step refuses them (also where bytes after those that settle it cannot
be fetched, the model's choice, log 35). -/
def Obligations.NeighbourEncodingsRefused : Prop :=
  (∀ (p0 p1 p2 opcode : Byte) (tail : List Byte),
    (p0.extractLsb' 0 4 = 2#4 ∧ p1.getLsbD 2 = true ∧
      ((opcode = 0x12#8 ∧ p1.getLsbD 7 = false ∧ p1.extractLsb' 0 2 = 1#2) ∨ (opcode = 0x47#8 ∧ p1.extractLsb' 0 2 ≠ 1#2)) →
      decode (0x62#8 :: p0 :: p1 :: p2 :: opcode :: tail) = .notInFamily) ∧
    (p1.extractLsb' 0 5 = 2#5 ∧
      ((opcode = 0x12#8 ∧ p2.getLsbD 7 = true ∧ p2.extractLsb' 0 2 = 1#2) ∨ (opcode = 0x47#8 ∧ p2.extractLsb' 0 2 ≠ 1#2)) →
      decode (0xC4#8 :: p1 :: p2 :: opcode :: tail) = .notInFamily)) ∧
  (∀ (s : State) (n : Nat), Mode64 s → s.pendingDebug = false → n ≤ 15 →
    (∀ k < n, Fetchable s (s.pc + BitVec.ofNat 64 k)) → decode (bytesAtPc s n) = .notInFamily →
    step s = .refused .notInFamily)

/-- R59: the two-byte VEX prefix encodes no form, so a VEX form is recognised only after `C4`. -/
def Obligations.TwoByteVexNeverDecodes : Prop :=
  (∀ bs : List Byte, decode (0xC5#8 :: bs) = .notInFamily) ∧
  (∀ (bs rest : List Byte) (i : Instr) (a : VexArgs), decode bs = .ok i rest → i.args = .vex a →
    ∃ tail, bs = a.prefixes.map LegacyPrefix.byte ++ 0xC4#8 :: tail)

/-! ### The step -/

/-- R20, R35, R57, R68, R88, R131: a step at bytes that decode to an instruction runs it, or refuses it where it has a legacy prefix
that the machine does not admit (D15; the parameter is the model's own, log 8). The place of TF in RFLAGS is PRESUMED (log 18). -/
def Obligations.StepRunsDecodedInstruction : Prop :=
  ∀ (s : State) (i : Instr) (rest : List Byte) (n : Nat), Mode64 s → s.pendingDebug = false → n ≤ 15 →
    (∀ k < n, Fetchable s (s.pc + BitVec.ofNat 64 k)) → decode (bytesAtPc s n) = .ok i rest →
    (Admitted i s → StepRuns i s) ∧ (¬ Admitted i s → step s = .refused .legacyPrefix)

/-- R68, R71, R72, R114: a step at bytes that are an illegal encoding or over 15 bytes long stops. (Where a segment-override or
address-size prefix stands before them, the fault in place of a refusal is the model's choice, log 34; so is #UD where bytes after
those that settle it cannot be fetched or lie past the 15th, log 35, and that the 15-byte limit is modelled, log 20.) -/
def Obligations.StepStopsOnUndecodableBytes : Prop :=
  ∀ (s : State) (n : Nat), Mode64 s → s.pendingDebug = false → n ≤ 15 →
    (∀ k < n, Fetchable s (s.pc + BitVec.ofNat 64 k)) →
    (∀ why, decode (bytesAtPc s n) = .undefined why → step s = .fault .invalidOpcode) ∧
    (decode (bytesAtPc s n) = .truncated → n = 15 → step s = .fault .generalProtection)

/-- R35, R55 to R70, R88, R131: a step where the bytes of a well-formed instruction stand at the pc, and only they need be fetched,
runs it, or refuses it where it has a legacy prefix that the machine does not admit (D15; the parameter is the model's own, log 8).
That only these bytes need be fetched is log 20. The place of TF in RFLAGS is PRESUMED (log 18). -/
def Obligations.StepRunsEncodedBytes : Prop :=
  ∀ (s : State) (i : Instr), Mode64 s → s.pendingDebug = false → i.wf = true →
    (∀ k < i.length, Fetchable s (s.pc + BitVec.ofNat 64 k)) → bytesAtPc s i.length = encode i →
    (Admitted i s → StepRuns i s) ∧ (¬ Admitted i s → step s = .refused .legacyPrefix)

/-- R114, R115, R120: the first byte of an instruction that cannot be fetched stops the step: #GP(0) for a non-canonical address,
else (the model's choice, D20) a refusal for device memory, else #PF with the address of that byte and an answer of the
translation, held as log 6 says. (That this holds after a segment-override or address-size prefix too is the model's choice, log 34.) -/
def Obligations.FetchFaultsStopTheStep : Prop :=
  ∀ (s : State) (k : Nat), Mode64 s → s.pendingDebug = false → k < 15 →
    (∀ j < k, Fetchable s (s.pc + BitVec.ofNat 64 j)) → decode (bytesAtPc s k) = .truncated →
    (¬ CanonicalAddr s.params (s.pc + BitVec.ofNat 64 k) → step s = .fault .generalProtection) ∧
    (CanonicalAddr s.params (s.pc + BitVec.ofNat 64 k) → ¬ Ordinary s (s.pc + BitVec.ofNat 64 k) →
      step s = .refused .deviceMemory) ∧
    (CanonicalAddr s.params (s.pc + BitVec.ofNat 64 k) → Ordinary s (s.pc + BitVec.ofNat 64 k) →
      Denied s .fetch (s.pc + BitVec.ofNat 64 k) →
      ∃ d ∈ s.denials, d.kind = .fetch ∧ d.cpl = s.cpl ∧ Covers d.base d.size (s.pc + BitVec.ofNat 64 k) ∧
        step s = .fault (.pageFault d.code (s.pc + BitVec.ofNat 64 k)) ∧
        (d.code.getLsbD 4 = d.executeDisable ∧ d.code.getLsbD 1 = false ∧ d.code.getLsbD 2 = (s.cpl == 3#2)))

/-- R120, R131: a debug trap pending from the previous instruction is taken before anything else. -/
def Obligations.PendingDebugTrapComesFirst : Prop :=
  ∀ s : State, s.pendingDebug = true → step s = .fault .debug ∧ Fault.vector .debug = 1

/-- R131: with RFLAGS.TF = 1 a debug trap follows each completed instruction, with TF = 0 none does. The place of TF in RFLAGS is
PRESUMED (log 18). -/
def Obligations.SingleStepTrapFollows : Prop :=
  ∀ s t : State, step s = .next t →
    (s.rflags.getLsbD 8 = true → step t = .fault .debug) ∧ (s.rflags.getLsbD 8 = false → t.pendingDebug = false)

/-! ### The shift (40_common_semantics.md) -/

/-- R80: the lane function on elements of 16, 32 and 64 bits. -/
def Obligations.ShiftOfElement : Prop :=
  ∀ (e : Elem) (a c : BitVec e.bits),
    (e.bits - 1 < c.toNat → sll a c = 0#e.bits) ∧
    (c.toNat ≤ e.bits - 1 → (sll a c).toNat = a.toNat * 2 ^ c.toNat % 2 ^ e.bits)

/-- R81: the lane function is multiplication by a power of two, for counts in and out of range; it composes where the sum of the
counts does not wrap; its values at the counts 0, w - 1 and w. -/
def Obligations.ShiftLaws : Prop :=
  ∀ (e : Elem) (a c d : BitVec e.bits),
    (sll a c).toNat = a.toNat * 2 ^ c.toNat % 2 ^ e.bits ∧
    (c.toNat + d.toNat < 2 ^ e.bits → sll (sll a c) d = sll a (c + d)) ∧
    sll a 0#e.bits = a ∧ sll 0#e.bits c = 0#e.bits ∧
    (sll a (BitVec.ofNat e.bits (e.bits - 1))).toNat = (a.toNat % 2) * 2 ^ (e.bits - 1) ∧
    sll a (BitVec.ofNat e.bits e.bits) = 0#e.bits

/-- R83, with R84, R85, R87: the vector function, element by element and above VL. -/
def Obligations.VectorShiftFunction : Prop :=
  ∀ (f : Form) (masked zeroing : Bool) (k : Opmask) (old s1 s2 : Zmm),
    (∀ j < f.lanes,
      lane f.elem.bits j (vsllv f.elem.bits f.vl.bits masked zeroing k old s1 s2) =
        if masked = false ∨ k.getLsbD j = true then sll (lane f.elem.bits j s1) (lane f.elem.bits j s2)
        else if zeroing = false then lane f.elem.bits j old
        else 0#f.elem.bits) ∧
    (∀ n, f.vl.bits ≤ n → (vsllv f.elem.bits f.vl.bits masked zeroing k old s1 s2).getLsbD n = false)

/-- R34: a memory read is little-endian, as bytes and as elements; element 0 is at the lowest address. -/
def Obligations.LoadIsLittleEndian : Prop :=
  ∀ (s : State) (la : Addr) (n : Nat), n ≤ 64 →
    (∀ k < n, (loadBytes s la (fun _ => true) n).extractLsb' (8 * k) 8 = s.byteAt (la + BitVec.ofNat 64 k)) ∧
    (∀ b, 8 * n ≤ b → (loadBytes s la (fun _ => true) n).getLsbD b = false) ∧
    (∀ (e : Elem) (j : Nat), (j + 1) * (e.bits / 8) ≤ n →
      elemNat e.bits j (loadBytes s la (fun _ => true) n) =
        ((List.range (e.bits / 8)).map fun k =>
          (s.byteAt (la + BitVec.ofNat 64 (j * (e.bits / 8) + k))).toNat * 256 ^ k).sum)

/-! ### Addresses (20_memory.md) -/

/-- R41, R42, R44: the linear address of a memory operand, with the FS or GS base and the address-size prefix. With an FS and a GS
override the spec does not say which base is added; it is one of the two (log 10). -/
def Obligations.LinearAddressOfOperand : Prop :=
  ∀ (f : Form) (o : Operands) (m : MemOperand) (s : State), LegalFields f o → o.count = .mem m →
    ∃ base, linearAddress f o m s =
        base + (if .addr32 ∈ o.prefixes then (BitVec.ofInt 32 (addressInt f o s m)).setWidth 64
          else BitVec.ofInt 64 (addressInt f o s m)) ∧
      (.fs ∈ o.prefixes → .gs ∉ o.prefixes → base = s.fsBase) ∧
      (.gs ∈ o.prefixes → .fs ∉ o.prefixes → base = s.gsBase) ∧
      (.fs ∈ o.prefixes → .gs ∈ o.prefixes → base = s.fsBase ∨ base = s.gsBase) ∧
      (.fs ∉ o.prefixes → .gs ∉ o.prefixes → base = 0#64)

/-- R43: RIP-relative addressing, its encoding and its address. -/
def Obligations.RipRelativeAddress : Prop :=
  (∀ (x b : Bool) (modrm d0 d1 d2 d3 : Byte) (rest : List Byte), modrm.extractLsb' 6 2 = 0#2 → modrm.extractLsb' 0 3 = 5#3 →
    takeModRm x b (modrm :: d0 :: d1 :: d2 :: d3 :: rest) =
      some (modrm.extractLsb' 3 3, .mem (.rip (d3 ++ d2 ++ d1 ++ d0)), rest)) ∧
  (∀ (i : Instr) (s : State) (d : BitVec 32), (operandsOf i).count = .mem (.rip d) → (operandsOf i).prefixes = [] →
    linearAddress i.form (operandsOf i) (.rip d) s = BitVec.ofInt 64 (s.pc.toNat + i.length + d.toInt))

/-! ### What an instruction does (41_vpsllvw.md, 42_vpsllvd.md, 43_vpsllvq.md) -/

/-- R94, R95, R96, R88: each VPSLLVW form completes with its result, from every state in which it is available and its count
operand can be read. (This and the next four: terms with legacy prefixes have the effect of R44; whether a step runs them is log 8.) -/
def Obligations.VpsllvwFormsComplete : Prop :=
  ∀ (a : EvexArgs) (s : State), ∀ i ∈ [Instr.vpsllvwEvex128 a, .vpsllvwEvex256 a, .vpsllvwEvex512 a],
    Available i.form s → LegalFields i.form (operandsOf i) → CountReadable i.form (operandsOf i) s → CompletesWithResult i s

/-- R97, R98, R88: each VEX form of VPSLLVD completes with its result. -/
def Obligations.VpsllvdVexFormsComplete : Prop :=
  ∀ (a : VexArgs) (s : State), ∀ i ∈ [Instr.vpsllvdVex128 a, .vpsllvdVex256 a],
    Available i.form s → CountReadable i.form (operandsOf i) s → CompletesWithResult i s

/-- R99, R100, R101, R88: each EVEX form of VPSLLVD completes with its result. -/
def Obligations.VpsllvdEvexFormsComplete : Prop :=
  ∀ (a : EvexArgs) (s : State), ∀ i ∈ [Instr.vpsllvdEvex128 a, .vpsllvdEvex256 a, .vpsllvdEvex512 a],
    Available i.form s → LegalFields i.form (operandsOf i) → CountReadable i.form (operandsOf i) s → CompletesWithResult i s

/-- R102, R103, R88: each VEX form of VPSLLVQ completes with its result. -/
def Obligations.VpsllvqVexFormsComplete : Prop :=
  ∀ (a : VexArgs) (s : State), ∀ i ∈ [Instr.vpsllvqVex128 a, .vpsllvqVex256 a],
    Available i.form s → CountReadable i.form (operandsOf i) s → CompletesWithResult i s

/-- R104, R105, R106, R88: each EVEX form of VPSLLVQ completes with its result. -/
def Obligations.VpsllvqEvexFormsComplete : Prop :=
  ∀ (a : EvexArgs) (s : State), ∀ i ∈ [Instr.vpsllvqEvex128 a, .vpsllvqEvex256 a, .vpsllvqEvex512 a],
    Available i.form s → LegalFields i.form (operandsOf i) → CountReadable i.form (operandsOf i) s → CompletesWithResult i s

/-- R109 to R115, R40, D1: an instruction that completes has passed every check. Three clauses are the model's choices: that none
completes in compatibility or protected 32-bit mode, where R26 calls the forms valid (D1, log 15); that every byte of the operand,
masked off or not, is ordinary memory (log 7); that a term with illegal fields does not complete (log 27). -/
def Obligations.CompletionNeedsEveryCheck : Prop :=
  ∀ (i : Instr) (s t : State), exec i s = .next t →
    Available i.form s ∧ LegalFields i.form (operandsOf i) ∧
    ∀ m, (operandsOf i).count = .mem m → ∀ k < countBytes i.form (operandsOf i).b,
      Ordinary s (linearAddress i.form (operandsOf i) m s + BitVec.ofNat 64 k) ∧
      (AccessedByte i.form (operandsOf i) s k →
        CanonicalAddr s.params (linearAddress i.form (operandsOf i) m s + BitVec.ofNat 64 k) ∧
        ¬ Denied s .read (linearAddress i.form (operandsOf i) m s + BitVec.ofNat 64 k))

/-- R87, with R80 and R83 to R86: every form that completes, whatever its registers, mask and memory operand, has written all 512
bits of the destination: the element results below VL and zeros from VL on. -/
def Obligations.EveryCompletionWritesTheResult : Prop :=
  ∀ (i : Instr) (s t : State), exec i s = .next t →
    ∃ cnt, CountIs i.form (operandsOf i) s cnt ∧ ResultIs i.form (operandsOf i) s cnt (t.zmmAt (operandsOf i).dest)

/-- R85: the elements whose mask bit is 0, under merging and under zeroing; merging does not reach the bits from VL on. (A term with
z = 1 and aaa = 000 does not complete: R72, log 27.) -/
def Obligations.MaskedOffElements : Prop :=
  ∀ (i : Instr) (s t : State), exec i s = .next t →
    ((operandsOf i).aaa = 0#3 → (operandsOf i).z = false) ∧
    (∀ j < i.form.lanes, (operandsOf i).aaa ≠ 0#3 → (s.kAt (operandsOf i).aaa).getLsbD j = false →
      ((operandsOf i).z = false →
        lane i.form.elem.bits j (t.zmmAt (operandsOf i).dest) = lane i.form.elem.bits j (s.zmmAt (operandsOf i).dest)) ∧
      ((operandsOf i).z = true → lane i.form.elem.bits j (t.zmmAt (operandsOf i).dest) = 0#i.form.elem.bits)) ∧
    (∀ n, i.form.vl.bits ≤ n → (t.zmmAt (operandsOf i).dest).getLsbD n = false)

/-- R30, R14: the frame of every instruction: the destination register and the pc change, nothing else the spec names; no form
stores, so every byte of memory reads as before. -/
def Obligations.ExecFrame : Prop :=
  ∀ (i : Instr) (s t : State), exec i s = .next t →
    (∀ r, r ≠ (operandsOf i).dest → t.zmmAt r = s.zmmAt r) ∧ t.pc = s.pc + BitVec.ofNat 64 i.length ∧
    t.k = s.k ∧ t.gpr = s.gpr ∧ t.rflags = s.rflags ∧ t.mxcsr = s.mxcsr ∧
    t.cr0 = s.cr0 ∧ t.cr4 = s.cr4 ∧ t.xcr0 = s.xcr0 ∧ t.efer = s.efer ∧ t.csL = s.csL ∧ t.csBase = s.csBase ∧
    t.fsBase = s.fsBase ∧ t.gsBase = s.gsBase ∧ t.cpl = s.cpl ∧ t.params = s.params ∧ t.denials = s.denials ∧
    t.devices = s.devices ∧ t.pendingDebug = s.pendingDebug ∧ t.mem = s.mem ∧ ∀ a, t.byteAt a = s.byteAt a

/-- R30, R121, R127: a step that completes has run one instruction: its destination register and the pc have changed (and the
pending debug trap, R131), nothing else the spec names. -/
def Obligations.StepFrame : Prop :=
  ∀ s t : State, step s = .next t → ∃ i, fetchInstr s = .run i ∧
    (∀ r, r ≠ (operandsOf i).dest → t.zmmAt r = s.zmmAt r) ∧ t.pc = s.pc + BitVec.ofNat 64 i.length ∧
    t.k = s.k ∧ t.gpr = s.gpr ∧ t.rflags = s.rflags ∧ t.mxcsr = s.mxcsr ∧
    t.cr0 = s.cr0 ∧ t.cr4 = s.cr4 ∧ t.xcr0 = s.xcr0 ∧ t.efer = s.efer ∧ t.csL = s.csL ∧ t.csBase = s.csBase ∧
    t.fsBase = s.fsBase ∧ t.gsBase = s.gsBase ∧ t.cpl = s.cpl ∧ t.params = s.params ∧ t.denials = s.denials ∧
    t.devices = s.devices ∧ t.mem = s.mem ∧ ∀ a, t.byteAt a = s.byteAt a

/-- R116: a misaligned broadcast read while alignment checking is active raises #AC(0) or completes with its result: the spec
leaves it open (log 11), and either answer uses up one free value (log 25). -/
def Obligations.AlignmentCheckIsOpen : Prop :=
  ∀ (i : Instr) (s : State) (m : MemOperand), Available i.form s → LegalFields i.form (operandsOf i) →
    (operandsOf i).count = .mem m → (operandsOf i).b = true → AlignmentChecked s →
    (∃ j < i.form.lanes, EnabledLane (operandsOf i) s j) →
    (linearAddress i.form (operandsOf i) m s).toNat % (i.form.elem.bits / 8) ≠ 0 →
    (∀ k < i.form.elem.bits / 8,
      CanonicalAddr s.params (linearAddress i.form (operandsOf i) m s + BitVec.ofNat 64 k) ∧
      Ordinary s (linearAddress i.form (operandsOf i) m s + BitVec.ofNat 64 k) ∧
      ¬ Denied s .read (linearAddress i.form (operandsOf i) m s + BitVec.ofNat 64 k)) →
    exec i s = .fault .alignmentCheck ∨
    ∃ cnt v, CountIs i.form (operandsOf i) s cnt ∧ ResultIs i.form (operandsOf i) s cnt v ∧
      exec i s = .next (((s.spend 1).setZmm (operandsOf i).dest v).setPc (s.pc + BitVec.ofNat 64 i.length))

/-! ### Exceptions (60_exceptions.md) -/

/-- R109, R110: in 64-bit mode an instruction raises #UD exactly when it is not enabled, a feature is missing, or its own fields are
illegal (log 27), whatever CR0.TS and the operand are. The flags are those of R111 taken literally (log 29). -/
def Obligations.UndefinedInstructionExactly : Prop :=
  ∀ (i : Instr) (s : State), Mode64 s →
    (exec i s = .fault .invalidOpcode ↔ ¬ (Enabled64 i.form s ∧ LegalFields i.form (operandsOf i)))

/-- R26, R109 a, R110 a: in real-address and virtual-8086 mode every form raises #UD. -/
def Obligations.RealAndVirtual8086Fault : Prop :=
  ∀ (i : Instr) (s : State), s.cr0.getLsbD 0 = false ∨ s.rflags.getLsbD 17 = true → exec i s = .fault .invalidOpcode

/-- The model's choice (D1, log 15): protected mode outside 64-bit mode is refused. -/
def Obligations.OtherModesRefused : Prop :=
  ∀ (i : Instr) (s : State), s.cr0.getLsbD 0 = true → s.rflags.getLsbD 17 = false →
    s.efer.getLsbD 10 = false ∨ s.csL = false → exec i s = .refused .outside64BitMode

/-- R111: a form raises #UD if a flag of its row is 0, and with the default set of flags no form does. -/
def Obligations.MissingFeatureFaults : Prop :=
  (∀ (i : Instr) (s : State), Mode64 s → requiredFlags i.form s.params.feat = false → exec i s = .fault .invalidOpcode) ∧
  (∀ f : Form, requiredFlags f Config.defaultParams.feat = true)

/-- R112: every form raises #NM when CR0.TS is 1 and no #UD condition holds (illegal fields among them, log 27); never when CR0.TS is
0. -/
def Obligations.TaskSwitchedFaults : Prop :=
  ∀ (i : Instr) (s : State), Mode64 s →
    (exec i s = .fault .deviceNotAvailable ↔
      s.cr0.getLsbD 3 = true ∧ Enabled64 i.form s ∧ LegalFields i.form (operandsOf i))

/-- R113, R114, R44, R45, R120: an accessed byte at a non-canonical address raises #SS(0) or #GP(0) by the segment the operand is
addressed through, before any page fault (R120), and before the refusal of an operand on device memory (the model's choice, log 7).
The clauses on overrides are log 9's: an FS or GS override names another segment than SS, an agreeing CS, DS, ES or SS override
changes nothing, and where one disagrees with the default segment the spec does not say which exception. -/
def Obligations.NonCanonicalOperandFaults : Prop :=
  ∀ (i : Instr) (s : State) (m : MemOperand) (k : Nat), Available i.form s → LegalFields i.form (operandsOf i) →
    (operandsOf i).count = .mem m → k < countBytes i.form (operandsOf i).b → AccessedByte i.form (operandsOf i) s k →
    ¬ CanonicalAddr s.params (linearAddress i.form (operandsOf i) m s + BitVec.ofNat 64 k) →
    (exec i s = .fault .stackSegment ∨ exec i s = .fault .generalProtection) ∧
    (.fs ∈ (operandsOf i).prefixes ∨ .gs ∈ (operandsOf i).prefixes → exec i s = .fault .generalProtection) ∧
    (.fs ∉ (operandsOf i).prefixes → .gs ∉ (operandsOf i).prefixes →
      (∀ p ∈ (operandsOf i).prefixes, NullOverride p → (p = .ss ↔ StackBase m)) →
      (StackBase m → exec i s = .fault .stackSegment) ∧ (¬ StackBase m → exec i s = .fault .generalProtection))

/-- R115, R45, R46: where the accessed bytes are canonical ordinary memory and the translation denies one of them, the form raises
#PF with the error code of one denying answer and the address of an accessed byte in its page, the first one (log 13). Which page is
free (log 12). That the answers are pages with six flags, so that the error code's bits from 6 on are 0, is the model's choice (log 6). -/
def Obligations.PageFaultReport : Prop :=
  ∀ (i : Instr) (s : State) (m : MemOperand) (k : Nat), Available i.form s → LegalFields i.form (operandsOf i) →
    (operandsOf i).count = .mem m →
    (∀ n < countBytes i.form (operandsOf i).b,
      Ordinary s (linearAddress i.form (operandsOf i) m s + BitVec.ofNat 64 n) ∧
      (AccessedByte i.form (operandsOf i) s n →
        CanonicalAddr s.params (linearAddress i.form (operandsOf i) m s + BitVec.ofNat 64 n))) →
    k < countBytes i.form (operandsOf i).b → AccessedByte i.form (operandsOf i) s k →
    Denied s .read (linearAddress i.form (operandsOf i) m s + BitVec.ofNat 64 k) →
    ∃ d ∈ s.denials, ∃ n < countBytes i.form (operandsOf i).b, d.kind = .read ∧ d.cpl = s.cpl ∧
      AccessedByte i.form (operandsOf i) s n ∧
      Covers d.base d.size (linearAddress i.form (operandsOf i) m s + BitVec.ofNat 64 n) ∧
      (∀ n' < n, AccessedByte i.form (operandsOf i) s n' →
        ¬ Covers d.base d.size (linearAddress i.form (operandsOf i) m s + BitVec.ofNat 64 n')) ∧
      exec i s = .fault (.pageFault d.code (linearAddress i.form (operandsOf i) m s + BitVec.ofNat 64 n)) ∧
      d.code.getLsbD 0 = d.protection ∧ d.code.getLsbD 1 = false ∧ d.code.getLsbD 2 = (s.cpl == 3#2) ∧
      d.code.getLsbD 3 = d.reservedBit ∧ d.code.getLsbD 4 = false ∧ d.code.getLsbD 5 = d.protectionKey ∧
      ∀ b, 6 ≤ b → d.code.getLsbD b = false

/-- R40, R129, D20: a memory operand that touches a device region is refused, masked off or not (the model's reading, log 7). -/
def Obligations.DeviceOperandRefused : Prop :=
  ∀ (i : Instr) (s : State) (m : MemOperand) (k : Nat), Available i.form s → LegalFields i.form (operandsOf i) →
    (operandsOf i).count = .mem m →
    (∀ n < countBytes i.form (operandsOf i).b, AccessedByte i.form (operandsOf i) s n →
      CanonicalAddr s.params (linearAddress i.form (operandsOf i) m s + BitVec.ofNat 64 n)) →
    k < countBytes i.form (operandsOf i).b → ¬ Ordinary s (linearAddress i.form (operandsOf i) m s + BitVec.ofNat 64 k) →
    exec i s = .refused .deviceMemory

/-- R45, R46, R92, R113 to R116: a memory fault has a cause among the accessed bytes of a memory operand, so masked-off bytes and
register operands cause none; #AC arises only on a misaligned broadcast read with alignment checking active. -/
def Obligations.MemoryFaultsHaveAnAccessedCause : Prop :=
  ∀ (i : Instr) (s : State) (x : Fault), exec i s = .fault x →
    x = .invalidOpcode ∨ x = .deviceNotAvailable ∨
    ∃ m, (operandsOf i).count = .mem m ∧ ∃ k < countBytes i.form (operandsOf i).b,
      AccessedByte i.form (operandsOf i) s k ∧
      (((x = .stackSegment ∨ x = .generalProtection) ∧
          ¬ CanonicalAddr s.params (linearAddress i.form (operandsOf i) m s + BitVec.ofNat 64 k)) ∨
       (∃ code, x = .pageFault code (linearAddress i.form (operandsOf i) m s + BitVec.ofNat 64 k) ∧
          Denied s .read (linearAddress i.form (operandsOf i) m s + BitVec.ofNat 64 k)) ∨
       (x = .alignmentCheck ∧ AlignmentChecked s ∧ (operandsOf i).b = true ∧
          (linearAddress i.form (operandsOf i) m s).toNat % (i.form.elem.bits / 8) ≠ 0))

/-- R46, R74, R87: with a writemask whose bits below KL are all 0, a form completes at any address of ordinary memory, canonical or
not, granted or not; under merging it changes only the bits from VL on and the pc. (That masked-off bytes must be ordinary memory is
the model's choice, log 7.) -/
def Obligations.AllMaskedFormsCompleteAnywhere : Prop :=
  ∀ (i : Instr) (s : State), Available i.form s → LegalFields i.form (operandsOf i) → (operandsOf i).aaa ≠ 0#3 →
    (∀ j < i.form.lanes, (s.kAt (operandsOf i).aaa).getLsbD j = false) →
    (∀ m, (operandsOf i).count = .mem m → ∀ k < countBytes i.form (operandsOf i).b,
      Ordinary s (linearAddress i.form (operandsOf i) m s + BitVec.ofNat 64 k)) →
    ∃ v, exec i s = .next ((s.setZmm (operandsOf i).dest v).setPc (s.pc + BitVec.ofNat 64 i.length)) ∧
      (∀ n < i.form.vl.bits, v.getLsbD n = (!(operandsOf i).z && (s.zmmAt (operandsOf i).dest).getLsbD n)) ∧
      (∀ n, i.form.vl.bits ≤ n → v.getLsbD n = false)

/-- R92: a register-only form raises only #UD and #NM. -/
def Obligations.RegisterFormsFaultOnlyUdNm : Prop :=
  ∀ (i : Instr) (s : State) (r : BitVec 5) (x : Fault), (operandsOf i).count = .reg r → exec i s = .fault x →
    x = .invalidOpcode ∨ x = .deviceNotAvailable

/-- D1, D20: an instruction is refused only outside 64-bit mode (the model's choice, log 15) or for a memory operand on device memory
(masked-off bytes counted, log 7). -/
def Obligations.ExecRefusals : Prop :=
  ∀ (i : Instr) (s : State) (r : Refusal), exec i s = .refused r →
    (r = .outside64BitMode ∧ ¬ Mode64 s) ∨
    (r = .deviceMemory ∧ Available i.form s ∧ ∃ m, (operandsOf i).count = .mem m ∧
      ∃ k < countBytes i.form (operandsOf i).b,
        ¬ Ordinary s (linearAddress i.form (operandsOf i) m s + BitVec.ofNat 64 k))

/-- R108, R119: the number, error code and recorded address of each fault. -/
def Obligations.FaultRecords : Prop :=
  (Fault.invalidOpcode.vector, Fault.invalidOpcode.errorCode, Fault.invalidOpcode.address) = (6, none, none) ∧
  (Fault.deviceNotAvailable.vector, Fault.deviceNotAvailable.errorCode, Fault.deviceNotAvailable.address) = (7, none, none) ∧
  (Fault.stackSegment.vector, Fault.stackSegment.errorCode, Fault.stackSegment.address) = (12, some 0, none) ∧
  (Fault.generalProtection.vector, Fault.generalProtection.errorCode, Fault.generalProtection.address) = (13, some 0, none) ∧
  (∀ code cr2, ((Fault.pageFault code cr2).vector, (Fault.pageFault code cr2).errorCode, (Fault.pageFault code cr2).address) =
    (14, some code, some cr2)) ∧
  (Fault.alignmentCheck.vector, Fault.alignmentCheck.errorCode, Fault.alignmentCheck.address) = (17, some 0, none) ∧
  (Fault.vector .debug, Fault.errorCode .debug, Fault.address .debug) = (1, none, none)

/-! ### Comparisons -/

/-- R75 d: a VEX form and the EVEX form of the same mnemonic and VL, unmasked, not broadcast and with the same operands, have the
same outcome, under the same draws, in every state that enables both, but for the longer instruction. Which of several denied pages is
reported (log 12), which of #SS and #GP a disagreeing override gives (log 9) and which base an FS and a GS override add (log 10) the
spec leaves open; they agree because the model draws them by the counter and the prefix bytes alone (log 25). -/
def Obligations.VexEvexAgreement : Prop :=
  ∀ (a : VexArgs) (s : State), Unscaled a.count → Mode64 s →
    ∀ p ∈ [(Instr.vpsllvdVex128 a, Instr.vpsllvdEvex128 (widen a)), (.vpsllvdVex256 a, .vpsllvdEvex256 (widen a)),
      (.vpsllvqVex128 a, .vpsllvqEvex128 (widen a)), (.vpsllvqVex256 a, .vpsllvqEvex256 (widen a))],
      Enabled64 p.1.form s → Enabled64 p.2.form s →
      p.2.length = p.1.length + 1 ∧
      exec p.2 s = mapNext (fun t => t.setPc (s.pc + BitVec.ofNat 64 p.2.length)) (exec p.1 s)

/-- R91, R30, R90 d, R18: the result depends on nothing but the low VL bits of the first source, the counts, the mask bits below KL
and the old elements that are kept. -/
def Obligations.ResultDependsOnlyOnFootprint : Prop :=
  ∀ (i : Instr) (s s' t t' : State), exec i s = .next t → exec i s' = .next t' →
    SameFootprint i.form (operandsOf i) s s' → t.zmmAt (operandsOf i).dest = t'.zmmAt (operandsOf i).dest

/-- R21: RFLAGS, but for VM and AC, has no influence on an instruction under the same draws, and no instruction changes it. What the
spec leaves open (logs 9 to 12) the model draws without RFLAGS (log 25). -/
def Obligations.FlagsNeitherReadNorWritten : Prop :=
  ∀ (i : Instr) (s : State) (fl : BitVec 64), fl.getLsbD 17 = s.rflags.getLsbD 17 → fl.getLsbD 18 = s.rflags.getLsbD 18 →
    exec i { s with rflags := fl } = mapNext (fun t => { t with rflags := fl }) (exec i s) ∧
    ∀ t, exec i s = .next t → t.rflags = s.rflags

/-- R22: MXCSR has no influence on an instruction under the same draws, and no instruction changes it. What the spec leaves open (logs 9
to 12) the model draws without MXCSR (log 25). -/
def Obligations.MxcsrNeitherReadNorWritten : Prop :=
  ∀ (i : Instr) (s : State) (w : BitVec 32),
    exec i { s with mxcsr := w } = mapNext (fun t => { t with mxcsr := w }) (exec i s) ∧
    ∀ t, exec i s = .next t → t.mxcsr = s.mxcsr

/-- R126: the privilege level has no influence on a form with a register count operand. -/
def Obligations.RegisterFormsIgnorePrivilege : Prop :=
  ∀ (i : Instr) (s : State) (r : BitVec 5) (c : BitVec 2), (operandsOf i).count = .reg r →
    exec i { s with cpl := c } = mapNext (fun t => { t with cpl := c }) (exec i s)

/-! ### The machine -/

/-- R8, R30: a step from a launch state leaves a launch state: nothing the family does changes the premise of its own rules. The place
of TF in RFLAGS is PRESUMED (log 18). -/
def Obligations.StepKeepsLaunchPremise : Prop :=
  ∀ s t : State, LaunchPremise s → step s = .next t → LaunchPremise t

/-- R28, R30, R49: every step keeps memory in its canonical form, every byte of it, and paging on in 64-bit mode. -/
def Obligations.StepKeepsMachineInv : Prop :=
  ∀ s t : State, MachineInv s → step s = .next t → MachineInv t ∧ ∀ a, t.byteAt a = s.byteAt a

/-- R31: the machine after reset: the invariant holds, and every register that R31 gives a value has it. RAX, RDX and the state that
R31 leaves open are not named. -/
def Obligations.ResetMeetsInvAndValues : Prop :=
  MachineInv State.reset ∧
  (∀ n, State.reset.zmmAt n = 0) ∧ (∀ n, State.reset.kAt n = 0) ∧
  (∀ n, n ≠ 0#4 → n ≠ 2#4 → State.reset.gprAt n = 0) ∧
  State.reset.pc = 0xFFF0#64 ∧ State.reset.csBase = 0xFFFF0000#64 ∧ State.reset.rflags = 2#64 ∧
  State.reset.mxcsr = 0x1F80#32 ∧ State.reset.cr0 = 0x60000010#64 ∧ State.reset.cr4 = 0#64 ∧ State.reset.xcr0 = 1#64 ∧
  State.reset.efer = 0#64 ∧ State.reset.cpl = 0#2

/-- R132, R31: after reset the first fetch is at FFFFFFF0H, in real-address mode at CPL 0 with interrupts disabled, and every form
raises #UD. The place of IF in RFLAGS, bit 9, is PRESUMED (log 33). -/
def Obligations.ResetRaisesInvalidOpcode : Prop :=
  State.reset.fetchAddr 0 = 0xFFFFFFF0#64 ∧ State.reset.cr0.getLsbD 0 = false ∧ State.reset.cpl = 0#2 ∧
  State.reset.rflags.getLsbD 9 = false ∧ ∀ i : Instr, exec i State.reset = .fault .invalidOpcode

/-- The model's choice (log 16): `withFetchWord` stands for the launch of R32 and R133, and what it leaves meets the launch
premise and rows 1 to 4 of R133. The places of TF, PAE and LME are PRESUMED (logs 18 and 33). -/
def Obligations.LaunchEstablishesPremise : Prop :=
  ∀ (s : State) (nbits w : Nat), LaunchPremise (s.withFetchWord nbits w) ∧ SystemSetUp (s.withFetchWord nbits w)

/-- R139, R122, D9: a fault or a refusal ends a run, with the state as it was before the instruction; so does the end address,
before a debug trap that is pending there (the model's choice, log 36). -/
def Obligations.FaultEndsRun : Prop :=
  ∀ (s : State) (e : Addr) (n : Nat),
    (s.pc = e → runTo e n s = .completed s) ∧
    (∀ x, s.pc ≠ e → step s = .fault x → runTo e (n + 1) s = .faulted x s) ∧
    (∀ r, s.pc ≠ e → step s = .refused r → runTo e (n + 1) s = .refused r s)

/-! ### Segment-override and address-size prefixes -/

/-- R57, R44, D15: a step at prefix bytes before a form of the family refuses it; where the model's own parameter admits prefixes
(log 8), it runs the form with the prefixes added to its operands. The place of TF in RFLAGS is PRESUMED (log 18). -/
def Obligations.LegacyPrefixesRefused : Prop :=
  ∀ (s : State) (ps bs rest : List Byte) (i : Instr) (n : Nat), Mode64 s → s.pendingDebug = false → n ≤ 15 →
    (∀ k < n, Fetchable s (s.pc + BitVec.ofNat 64 k)) → bytesAtPc s n = ps ++ bs → ps ≠ [] →
    (∀ b ∈ ps, LegalPrefixByte b) → decode bs = .ok i rest →
    (s.params.legacyPrefixes = false → step s = .refused .legacyPrefix) ∧
    (s.params.legacyPrefixes = true → ∃ (qs : List LegacyPrefix) (i' : Instr), qs.map LegacyPrefix.byte = ps ∧
      i'.form = i.form ∧ i'.length = ps.length + i.length ∧
      operandsOf i' = { operandsOf i with prefixes := qs ++ (operandsOf i).prefixes, len := i'.length } ∧ StepRuns i' s)
end

