-- ==== Sys2Proof/Laws/Decode.lean ====
section
/-! SUPPORT. The parts of the decoder and of the encoder against each other: bytes, displacement, SIB, ModRM, legacy prefixes. -/

namespace Sys2Proof

theorem le32_extract (d : BitVec 32) :
    le32 (d.extractLsb' 0 8) (d.extractLsb' 8 8) (d.extractLsb' 16 8) (d.extractLsb' 24 8) = d := by
  apply BitVec.eq_of_getLsbD_eq
  intro i hi
  simp only [le32, BitVec.getLsbD_append, BitVec.getLsbD_extractLsb']
  split_ifs with h1 h2 h3
  · simp [h1]
  · have : i - 8 < 8 := by omega
    have e : 8 + (i - 8) = i := by omega
    simp [this, e]
  · have : i - 8 - 8 < 8 := by omega
    have e : 16 + (i - 8 - 8) = i := by omega
    simp [this, e]
  · have : i - 8 - 8 - 8 < 8 := by omega
    have e : 24 + (i - 8 - 8 - 8) = i := by omega
    simp [this, e]

@[simp] theorem takeD32_bytes32 (d : BitVec 32) (rest : List Byte) :
    takeD32 (bytes32 d ++ rest) = some (d, rest) := by
  simp [takeD32, bytes32, le32_extract]

/-- The displacement that `mod` announces is the one encoded. -/
@[simp] theorem takeDisp_encode (d : Disp) (rest : List Byte) : takeDisp d.mod (d.bytes ++ rest) = some (d, rest) := by
  cases d <;> simp [takeDisp, Disp.mod, Disp.bytes]

theorem packFields_hi (m : BitVec 2) (a b : BitVec 3) : (packFields m a b).extractLsb' 6 2 = m := by
  revert m a b; decide

theorem packFields_mid (m : BitVec 2) (a b : BitVec 3) : (packFields m a b).extractLsb' 3 3 = a := by
  revert m a b; decide

theorem packFields_lo (m : BitVec 2) (a b : BitVec 3) : (packFields m a b).extractLsb' 0 3 = b := by
  revert m a b; decide

theorem ofBool_append_low3 (r : BitVec 4) : BitVec.ofBool (r.getLsbD 3) ++ r.extractLsb' 0 3 = r := by
  revert r; decide

theorem ofBool_append_low3_five (r : BitVec 5) :
    BitVec.ofBool (r.getLsbD 4) ++ BitVec.ofBool (r.getLsbD 3) ++ r.extractLsb' 0 3 = r := by
  revert r; decide

theorem ofBool_append_low4 (r : BitVec 5) : BitVec.ofBool (r.getLsbD 4) ++ r.extractLsb' 0 4 = r := by
  revert r; decide

theorem Disp.mod_ne_three (d : Disp) : d.mod ≠ 3#2 := by cases d <;> simp [Disp.mod]

/-- Where `mod` is 00 there is no displacement, and a base register whose low bits are 101 does not fit. -/
theorem Disp.fits_mod {d : Disp} {low : BitVec 3} (h : d.fits low = true) : ¬ (d.mod = 0#2 ∧ low = 5#3) := by
  cases d <;> simp_all [Disp.mod, Disp.fits]

/-- Decoding an encoded memory operand gives it back, whatever the extension bits that it ignores. -/
theorem takeModRm_encode_mem (reg : BitVec 3) (m : MemOperand) (hm : m.wf = true) (rest : List Byte) :
    takeModRm m.extX m.extB (encodeModRm reg (.mem m) ++ rest) = some (reg, .mem m, rest) := by
  cases m with
  | base b d =>
    simp only [MemOperand.wf, Bool.and_eq_true, bne_iff_ne] at hm
    have h1 := Disp.mod_ne_three d
    have h2 := Disp.fits_mod hm.2
    simp [takeModRm, encodeModRm, packFields_hi, packFields_mid, packFields_lo, h1, hm.1, h2, MemOperand.extB]
    exact ofBool_append_low3 b
  | rip d => simp [takeModRm, encodeModRm, packFields_hi, packFields_mid, packFields_lo]
  | sib s i b d =>
    simp only [MemOperand.wf] at hm
    have h1 := Disp.mod_ne_three d
    have h2 := Disp.fits_mod hm
    simp [takeModRm, encodeModRm, takeSib, packFields_hi, packFields_mid, packFields_lo, h1, h2, MemOperand.extB,
      MemOperand.extX]
    exact ⟨ofBool_append_low3 i, ofBool_append_low3 b⟩
  | sibNoBase s i d =>
    simp [takeModRm, encodeModRm, takeSib, packFields_hi, packFields_mid, packFields_lo, MemOperand.extX]
    exact ofBool_append_low3 i

/-- Decoding an encoded register operand gives its low three bits back. -/
theorem takeModRm_encode_reg (x b : Bool) (reg rm : BitVec 3) (rest : List Byte) :
    takeModRm x b (encodeModRm reg (.reg rm) ++ rest) = some (reg, .reg rm, rest) := by
  simp [takeModRm, encodeModRm, packFields_hi, packFields_mid, packFields_lo]

@[simp] theorem legalPrefix_byte (p : LegacyPrefix) : legalPrefix p.byte = some p := by cases p <;> rfl

/-- Legal prefixes in front of any bytes are taken off first, in order. -/
theorem splitPrefixes_legal (ps : List LegacyPrefix) (bs : List Byte) :
    splitPrefixes (ps.map LegacyPrefix.byte ++ bs) = (ps ++ (splitPrefixes bs).1, (splitPrefixes bs).2) := by
  induction ps with
  | nil => rfl
  | cons p ps ih => simp [splitPrefixes, ih]

/-- The legal prefixes in front of a byte that is none are taken off, in order. -/
theorem splitPrefixes_encode (ps : List LegacyPrefix) (b : Byte) (bs : List Byte) (h1 : legalPrefix b = none)
    (h2 : isIllegalPrefix b = false) :
    splitPrefixes (ps.map LegacyPrefix.byte ++ b :: bs) = (ps, false, b :: bs) := by
  rw [splitPrefixes_legal]
  simp [splitPrefixes, h1, h2]

/-- An encoded instruction is as long as R70 says. -/
theorem encodeModRm_length (reg : BitVec 3) (rm : RmField) :
    (encodeModRm reg rm).length = 1 + match rm with
      | .reg _ => 0
      | .mem m => m.tailLength := by
  cases rm with
  | reg => rfl
  | mem m =>
    cases m with
    | base b d => cases d <;> rfl
    | rip d => rfl
    | sib s i b d => cases d <;> rfl
    | sibNoBase s i d => rfl

theorem encodeVex_length (w l : Bool) (a : VexArgs) : (encodeVex w l a).length = a.length := by
  obtain ⟨ps, d, s, c⟩ := a
  cases c <;> simp [encodeVex, vexPrefix, VexArgs.length, encodeModRm_length, Count.tailLength]
  omega

theorem encodeEvex_length (op : Byte) (w : Bool) (ll : BitVec 2) (a : EvexArgs) :
    (encodeEvex op w ll a).length = a.length := by
  obtain ⟨ps, d, s, c, k, z, b⟩ := a
  cases c <;> simp [encodeEvex, evexPrefix, EvexArgs.length, encodeModRm_length, Count.tailLength]
  omega

end Sys2Proof
end

