-- ==== Sys2Proof/Laws/Lanes.lean ====
section
/-! SUPPORT. Lanes: the bits and the elements of `ofLanes`, the lane function, and the vector function (R80, R81, R83, R87). -/

namespace Sys2Proof.Machine

theorem getLsbD_lane (w j n : Nat) (v : Zmm) :
    (lane w j v).getLsbD n = (decide (n < w) && v.getLsbD (w * j + n)) := by
  simp [lane]

/-- A bit of `ofLanes` is the bit of the element it lies in; above the last element the bits are 0. -/
theorem getLsbD_ofLanes {w : Nat} (hw : 0 < w) (f : Nat → BitVec w) (n i : Nat) :
    (ofLanes w f n).getLsbD i = (decide (i < 512) && decide (i < w * n) && (f (i / w)).getLsbD (i % w)) := by
  induction n with
  | zero => simp [ofLanes]
  | succ n ih =>
    simp only [ofLanes, BitVec.getLsbD_or, ih, BitVec.getLsbD_shiftLeft, BitVec.getLsbD_setWidth]
    by_cases h512 : i < 512
    · by_cases hn : i < w * n
      · have h1 : i < w * (n + 1) := by rw [Nat.mul_succ]; omega
        simp [h512, hn, h1]
      · by_cases h1 : i < w * (n + 1)
        · have hdiv : i / w = n := by
            apply Nat.div_eq_of_lt_le
            · rw [Nat.mul_comm]; omega
            · rw [Nat.mul_comm]; exact h1
          have hmod : i % w = i - w * n := by
            have := Nat.div_add_mod i w
            rw [hdiv] at this
            omega
          have h512' : i - w * n < 512 := by omega
          simp [h512, hn, h1, hdiv, hmod, h512']
        · have : w ≤ i - w * n := by rw [Nat.mul_succ] at h1; omega
          simp [h512, hn, h1, BitVec.getLsbD_of_ge _ _ this]
    · simp [h512]

/-- Element `j` of `ofLanes`. -/
theorem lane_ofLanes {w : Nat} (hw : 0 < w) (f : Nat → BitVec w) {n j : Nat} (hj : j < n) (hn : w * n ≤ 512) :
    lane w j (ofLanes w f n) = f j := by
  apply BitVec.eq_of_getLsbD_eq
  intro i hi
  have hlt : w * j + i < w * n := by
    calc w * j + i < w * j + w := by omega
      _ = w * (j + 1) := by rw [Nat.mul_succ]
      _ ≤ w * n := Nat.mul_le_mul_left _ hj
  have h1 : (w * j + i) / w = j := by
    rw [Nat.mul_add_div hw, Nat.div_eq_of_lt hi, Nat.add_zero]
  have h2 : (w * j + i) % w = i := by
    rw [Nat.mul_add_mod, Nat.mod_eq_of_lt hi]
  have h3 : w * j + i < 512 := by omega
  rw [getLsbD_lane, getLsbD_ofLanes hw]
  simp [hi, hlt, h1, h2, h3]

/-- The bits of `ofLanes` above its elements. -/
theorem ofLanes_high {w : Nat} (hw : 0 < w) (f : Nat → BitVec w) {n i : Nat} (h : w * n ≤ i) :
    (ofLanes w f n).getLsbD i = false := by
  have : ¬ i < w * n := by omega
  simp [getLsbD_ofLanes hw, this]

/-- `ofLanes` depends on its elements only. -/
theorem ofLanes_congr {w : Nat} {f g : Nat → BitVec w} {n : Nat} (h : ∀ j < n, f j = g j) :
    ofLanes w f n = ofLanes w g n := by
  induction n with
  | zero => rfl
  | succ n ih =>
    simp only [ofLanes, h n (Nat.lt_succ_self n), ih fun j hj => h j (Nat.lt_succ_of_lt hj)]

/-- `sll` for a count above `w - 1` (R80). -/
theorem sll_of_le {w : Nat} (a c : BitVec w) (h : w ≤ c.toNat) : sll a c = 0#w := by simp [sll, h]

/-- `sll` for a count in range (R80). -/
theorem toNat_sll_of_lt {w : Nat} (a c : BitVec w) (h : c.toNat < w) :
    (sll a c).toNat = a.toNat * 2 ^ c.toNat % 2 ^ w := by
  have : ¬ w ≤ c.toNat := by omega
  simp [sll, this, Nat.shiftLeft_eq]

theorem elem_bits_pos (e : Elem) : 0 < e.bits := by cases e <;> decide

theorem lanes_mul_bits (f : Form) : f.elem.bits * f.lanes = f.vl.bits := by
  obtain ⟨_, e, v⟩ := f
  cases e <;> cases v <;> simp [Form.lanes, Elem.bits, VLen.bits]

theorem vlen_bits_le (v : VLen) : v.bits ≤ 512 := by cases v <;> decide

/-- Element `j` of the vector function (R83), for a form's own widths. -/
theorem lane_vsllv (f : Form) (masked zeroing : Bool) (k : Opmask) (old s1 s2 : Zmm) {j : Nat} (hj : j < f.lanes) :
    lane f.elem.bits j (vsllv f.elem.bits f.vl.bits masked zeroing k old s1 s2) =
      if !masked || k.getLsbD j then sll (lane f.elem.bits j s1) (lane f.elem.bits j s2)
      else if zeroing then 0#_ else lane f.elem.bits j old := by
  have h := lanes_mul_bits f
  have h' := vlen_bits_le f.vl
  exact lane_ofLanes (elem_bits_pos _) _ hj (by unfold Form.lanes at h; omega)

/-- The bits at and above VL are zero (R87). -/
theorem vsllv_high (f : Form) (masked zeroing : Bool) (k : Opmask) (old s1 s2 : Zmm) {n : Nat} (hn : f.vl.bits ≤ n) :
    (vsllv f.elem.bits f.vl.bits masked zeroing k old s1 s2).getLsbD n = false := by
  have h := lanes_mul_bits f
  exact ofLanes_high (elem_bits_pos _) _ (by unfold Form.lanes at h; omega)

end Sys2Proof.Machine
end

