-- ==== Sys2Proof/Laws/State.lean ====
section
/-! SUPPORT. One lemma for each field of State and each update of it, and the reads of a written register. -/

namespace Sys2Proof.Machine

/-! ### setZmm -/

@[simp] theorem State.setZmm_zmm (s : State) (n : BitVec 5) (v : Zmm) : (s.setZmm n v).zmm = s.zmm.set n.toNat v n.isLt := rfl
@[simp] theorem State.setZmm_k (s : State) (n : BitVec 5) (v : Zmm) : (s.setZmm n v).k = s.k := rfl
@[simp] theorem State.setZmm_gpr (s : State) (n : BitVec 5) (v : Zmm) : (s.setZmm n v).gpr = s.gpr := rfl
@[simp] theorem State.setZmm_pc (s : State) (n : BitVec 5) (v : Zmm) : (s.setZmm n v).pc = s.pc := rfl
@[simp] theorem State.setZmm_rflags (s : State) (n : BitVec 5) (v : Zmm) : (s.setZmm n v).rflags = s.rflags := rfl
@[simp] theorem State.setZmm_mxcsr (s : State) (n : BitVec 5) (v : Zmm) : (s.setZmm n v).mxcsr = s.mxcsr := rfl
@[simp] theorem State.setZmm_cr0 (s : State) (n : BitVec 5) (v : Zmm) : (s.setZmm n v).cr0 = s.cr0 := rfl
@[simp] theorem State.setZmm_cr4 (s : State) (n : BitVec 5) (v : Zmm) : (s.setZmm n v).cr4 = s.cr4 := rfl
@[simp] theorem State.setZmm_xcr0 (s : State) (n : BitVec 5) (v : Zmm) : (s.setZmm n v).xcr0 = s.xcr0 := rfl
@[simp] theorem State.setZmm_efer (s : State) (n : BitVec 5) (v : Zmm) : (s.setZmm n v).efer = s.efer := rfl
@[simp] theorem State.setZmm_csL (s : State) (n : BitVec 5) (v : Zmm) : (s.setZmm n v).csL = s.csL := rfl
@[simp] theorem State.setZmm_csBase (s : State) (n : BitVec 5) (v : Zmm) : (s.setZmm n v).csBase = s.csBase := rfl
@[simp] theorem State.setZmm_fsBase (s : State) (n : BitVec 5) (v : Zmm) : (s.setZmm n v).fsBase = s.fsBase := rfl
@[simp] theorem State.setZmm_gsBase (s : State) (n : BitVec 5) (v : Zmm) : (s.setZmm n v).gsBase = s.gsBase := rfl
@[simp] theorem State.setZmm_cpl (s : State) (n : BitVec 5) (v : Zmm) : (s.setZmm n v).cpl = s.cpl := rfl
@[simp] theorem State.setZmm_params (s : State) (n : BitVec 5) (v : Zmm) : (s.setZmm n v).params = s.params := rfl
@[simp] theorem State.setZmm_mem (s : State) (n : BitVec 5) (v : Zmm) : (s.setZmm n v).mem = s.mem := rfl
@[simp] theorem State.setZmm_denials (s : State) (n : BitVec 5) (v : Zmm) : (s.setZmm n v).denials = s.denials := rfl
@[simp] theorem State.setZmm_devices (s : State) (n : BitVec 5) (v : Zmm) : (s.setZmm n v).devices = s.devices := rfl
@[simp] theorem State.setZmm_pendingDebug (s : State) (n : BitVec 5) (v : Zmm) : (s.setZmm n v).pendingDebug = s.pendingDebug := rfl
@[simp] theorem State.setZmm_draws (s : State) (n : BitVec 5) (v : Zmm) : (s.setZmm n v).draws = s.draws := rfl

/-! ### setPc -/

@[simp] theorem State.setPc_zmm (s : State) (a : Addr) : (s.setPc a).zmm = s.zmm := rfl
@[simp] theorem State.setPc_k (s : State) (a : Addr) : (s.setPc a).k = s.k := rfl
@[simp] theorem State.setPc_gpr (s : State) (a : Addr) : (s.setPc a).gpr = s.gpr := rfl
@[simp] theorem State.setPc_pc (s : State) (a : Addr) : (s.setPc a).pc = a := rfl
@[simp] theorem State.setPc_rflags (s : State) (a : Addr) : (s.setPc a).rflags = s.rflags := rfl
@[simp] theorem State.setPc_mxcsr (s : State) (a : Addr) : (s.setPc a).mxcsr = s.mxcsr := rfl
@[simp] theorem State.setPc_cr0 (s : State) (a : Addr) : (s.setPc a).cr0 = s.cr0 := rfl
@[simp] theorem State.setPc_cr4 (s : State) (a : Addr) : (s.setPc a).cr4 = s.cr4 := rfl
@[simp] theorem State.setPc_xcr0 (s : State) (a : Addr) : (s.setPc a).xcr0 = s.xcr0 := rfl
@[simp] theorem State.setPc_efer (s : State) (a : Addr) : (s.setPc a).efer = s.efer := rfl
@[simp] theorem State.setPc_csL (s : State) (a : Addr) : (s.setPc a).csL = s.csL := rfl
@[simp] theorem State.setPc_csBase (s : State) (a : Addr) : (s.setPc a).csBase = s.csBase := rfl
@[simp] theorem State.setPc_fsBase (s : State) (a : Addr) : (s.setPc a).fsBase = s.fsBase := rfl
@[simp] theorem State.setPc_gsBase (s : State) (a : Addr) : (s.setPc a).gsBase = s.gsBase := rfl
@[simp] theorem State.setPc_cpl (s : State) (a : Addr) : (s.setPc a).cpl = s.cpl := rfl
@[simp] theorem State.setPc_params (s : State) (a : Addr) : (s.setPc a).params = s.params := rfl
@[simp] theorem State.setPc_mem (s : State) (a : Addr) : (s.setPc a).mem = s.mem := rfl
@[simp] theorem State.setPc_denials (s : State) (a : Addr) : (s.setPc a).denials = s.denials := rfl
@[simp] theorem State.setPc_devices (s : State) (a : Addr) : (s.setPc a).devices = s.devices := rfl
@[simp] theorem State.setPc_pendingDebug (s : State) (a : Addr) : (s.setPc a).pendingDebug = s.pendingDebug := rfl
@[simp] theorem State.setPc_draws (s : State) (a : Addr) : (s.setPc a).draws = s.draws := rfl

/-! ### spend -/

@[simp] theorem State.spend_zmm (s : State) (n : Nat) : (s.spend n).zmm = s.zmm := rfl
@[simp] theorem State.spend_k (s : State) (n : Nat) : (s.spend n).k = s.k := rfl
@[simp] theorem State.spend_gpr (s : State) (n : Nat) : (s.spend n).gpr = s.gpr := rfl
@[simp] theorem State.spend_pc (s : State) (n : Nat) : (s.spend n).pc = s.pc := rfl
@[simp] theorem State.spend_rflags (s : State) (n : Nat) : (s.spend n).rflags = s.rflags := rfl
@[simp] theorem State.spend_mxcsr (s : State) (n : Nat) : (s.spend n).mxcsr = s.mxcsr := rfl
@[simp] theorem State.spend_cr0 (s : State) (n : Nat) : (s.spend n).cr0 = s.cr0 := rfl
@[simp] theorem State.spend_cr4 (s : State) (n : Nat) : (s.spend n).cr4 = s.cr4 := rfl
@[simp] theorem State.spend_xcr0 (s : State) (n : Nat) : (s.spend n).xcr0 = s.xcr0 := rfl
@[simp] theorem State.spend_efer (s : State) (n : Nat) : (s.spend n).efer = s.efer := rfl
@[simp] theorem State.spend_csL (s : State) (n : Nat) : (s.spend n).csL = s.csL := rfl
@[simp] theorem State.spend_csBase (s : State) (n : Nat) : (s.spend n).csBase = s.csBase := rfl
@[simp] theorem State.spend_fsBase (s : State) (n : Nat) : (s.spend n).fsBase = s.fsBase := rfl
@[simp] theorem State.spend_gsBase (s : State) (n : Nat) : (s.spend n).gsBase = s.gsBase := rfl
@[simp] theorem State.spend_cpl (s : State) (n : Nat) : (s.spend n).cpl = s.cpl := rfl
@[simp] theorem State.spend_params (s : State) (n : Nat) : (s.spend n).params = s.params := rfl
@[simp] theorem State.spend_mem (s : State) (n : Nat) : (s.spend n).mem = s.mem := rfl
@[simp] theorem State.spend_denials (s : State) (n : Nat) : (s.spend n).denials = s.denials := rfl
@[simp] theorem State.spend_devices (s : State) (n : Nat) : (s.spend n).devices = s.devices := rfl
@[simp] theorem State.spend_pendingDebug (s : State) (n : Nat) : (s.spend n).pendingDebug = s.pendingDebug := rfl
@[simp] theorem State.spend_draws (s : State) (n : Nat) : (s.spend n).draws = s.draws + n := rfl

/-! ### markTrap -/

@[simp] theorem State.markTrap_zmm (s : State) (b : Bool) : (s.markTrap b).zmm = s.zmm := rfl
@[simp] theorem State.markTrap_k (s : State) (b : Bool) : (s.markTrap b).k = s.k := rfl
@[simp] theorem State.markTrap_gpr (s : State) (b : Bool) : (s.markTrap b).gpr = s.gpr := rfl
@[simp] theorem State.markTrap_pc (s : State) (b : Bool) : (s.markTrap b).pc = s.pc := rfl
@[simp] theorem State.markTrap_rflags (s : State) (b : Bool) : (s.markTrap b).rflags = s.rflags := rfl
@[simp] theorem State.markTrap_mxcsr (s : State) (b : Bool) : (s.markTrap b).mxcsr = s.mxcsr := rfl
@[simp] theorem State.markTrap_cr0 (s : State) (b : Bool) : (s.markTrap b).cr0 = s.cr0 := rfl
@[simp] theorem State.markTrap_cr4 (s : State) (b : Bool) : (s.markTrap b).cr4 = s.cr4 := rfl
@[simp] theorem State.markTrap_xcr0 (s : State) (b : Bool) : (s.markTrap b).xcr0 = s.xcr0 := rfl
@[simp] theorem State.markTrap_efer (s : State) (b : Bool) : (s.markTrap b).efer = s.efer := rfl
@[simp] theorem State.markTrap_csL (s : State) (b : Bool) : (s.markTrap b).csL = s.csL := rfl
@[simp] theorem State.markTrap_csBase (s : State) (b : Bool) : (s.markTrap b).csBase = s.csBase := rfl
@[simp] theorem State.markTrap_fsBase (s : State) (b : Bool) : (s.markTrap b).fsBase = s.fsBase := rfl
@[simp] theorem State.markTrap_gsBase (s : State) (b : Bool) : (s.markTrap b).gsBase = s.gsBase := rfl
@[simp] theorem State.markTrap_cpl (s : State) (b : Bool) : (s.markTrap b).cpl = s.cpl := rfl
@[simp] theorem State.markTrap_params (s : State) (b : Bool) : (s.markTrap b).params = s.params := rfl
@[simp] theorem State.markTrap_mem (s : State) (b : Bool) : (s.markTrap b).mem = s.mem := rfl
@[simp] theorem State.markTrap_denials (s : State) (b : Bool) : (s.markTrap b).denials = s.denials := rfl
@[simp] theorem State.markTrap_devices (s : State) (b : Bool) : (s.markTrap b).devices = s.devices := rfl
@[simp] theorem State.markTrap_pendingDebug (s : State) (b : Bool) : (s.markTrap b).pendingDebug = b := rfl
@[simp] theorem State.markTrap_draws (s : State) (b : Bool) : (s.markTrap b).draws = s.draws := rfl

/-! ### The accessors over the updates -/

@[simp] theorem State.zmmAt_setZmm_same (s : State) (n : BitVec 5) (v : Zmm) : (s.setZmm n v).zmmAt n = v := by
  simp only [State.zmmAt, State.setZmm_zmm, Vector.get_eq_getElem]
  exact Vector.getElem_set_self (i := n.toNat) n.isLt

theorem State.zmmAt_setZmm_other (s : State) {n r : BitVec 5} (v : Zmm) (h : r ≠ n) :
    (s.setZmm n v).zmmAt r = s.zmmAt r := by
  have h' : n.toNat ≠ r.toNat := fun e => h (BitVec.eq_of_toNat_eq e.symm)
  have hr : r.toNat < 32 := r.isLt
  simp only [State.zmmAt, State.setZmm_zmm, Vector.get_eq_getElem]
  exact Vector.getElem_set_ne (i := n.toNat) (j := r.toNat) n.isLt hr h'

@[simp] theorem State.zmmAt_setPc (s : State) (a : Addr) (r : BitVec 5) : (s.setPc a).zmmAt r = s.zmmAt r := rfl

@[simp] theorem State.zmmAt_spend (s : State) (n : Nat) (r : BitVec 5) : (s.spend n).zmmAt r = s.zmmAt r := rfl

@[simp] theorem State.byteAt_setZmm (s : State) (n : BitVec 5) (v : Zmm) (a : Addr) :
    (s.setZmm n v).byteAt a = s.byteAt a := rfl

@[simp] theorem State.byteAt_setPc (s : State) (b a : Addr) : (s.setPc b).byteAt a = s.byteAt a := rfl

@[simp] theorem State.spend_zero (s : State) : s.spend 0 = s := rfl

end Sys2Proof.Machine
end

