-- ==== Sys2Proof/Laws/Exec.lean ====
section
/-! SUPPORT. What each shared operation can do, said once: the checks, the read of the count operand, the execution sequence, the
fetch and the step. -/

namespace Sys2Proof.Machine

/-! ### Checks -/

theorem canonical_iff (p : Params) (a : Addr) : canonical p a = true ↔ CanonicalAddr p a := by
  have ha := a.isLt
  unfold canonical CanonicalAddr Config.vaBits
  cases p.fiveLevel <;>
    simp only [Bool.or_eq_true, beq_iff_eq, Nat.shiftRight_eq_div_pow, Bool.false_eq_true, if_true, if_false] <;>
    norm_num <;> omega

theorem holds_iff (r : Region) (a : Addr) : r.holds a = true ↔ Covers r.base r.size a := by
  simp [Region.holds, Covers]

theorem isDevice_iff (s : State) (a : Addr) : s.isDevice a = true ↔ ¬ Ordinary s a := by
  simp [State.isDevice, Ordinary, holds_iff]

theorem denies_iff (d : PageDenial) (kind : AccessKind) (cpl : BitVec 2) (a : Addr) :
    d.denies kind cpl a = true ↔ d.kind = kind ∧ d.cpl = cpl ∧ Covers d.base d.size a := by
  simp [PageDenial.denies, holds_iff, and_assoc]

theorem enabled_iff (o : Operands) (s : State) (j : Nat) : o.enabled s j = true ↔ EnabledLane o s j := by
  simp [Operands.enabled, Operands.masked, EnabledLane, State.kAt]

theorem anyEnabled_iff (f : Form) (o : Operands) (s : State) :
    o.anyEnabled f s = true ↔ ∃ j < f.lanes, EnabledLane o s j := by
  simp [Operands.anyEnabled, enabled_iff]

theorem accessed_iff (f : Form) (o : Operands) (s : State) (k : Nat) :
    accessed f o s k = true ↔ AccessedByte f o s k := by
  unfold accessed AccessedByte
  split
  · exact anyEnabled_iff f o s
  · exact enabled_iff o s _

theorem mem_accessedAddrs (f : Form) (o : Operands) (s : State) (la a : Addr) :
    a ∈ accessedAddrs f o s la ↔ ∃ k < countBytes f o.b, AccessedByte f o s k ∧ byteAddr la k = a := by
  simp [accessedAddrs, accessed_iff, and_assoc]

theorem alignmentCheckActive_iff (s : State) : s.alignmentCheckActive = true ↔ AlignmentChecked s := by
  simp [State.alignmentCheckActive, AlignmentChecked, State.am, State.ac, and_assoc]

theorem xcr0_sse_avx (x : BitVec 64) : x.extractLsb' 1 2 = 3#2 ↔ x.getLsbD 1 = true ∧ x.getLsbD 2 = true := by
  constructor
  · intro h
    have h0 := congrArg (·.getLsbD 0) h
    have h1 := congrArg (·.getLsbD 1) h
    simpa using And.intro h0 h1
  · rintro ⟨h0, h1⟩
    apply BitVec.eq_of_getLsbD_eq
    intro i hi
    interval_cases i <;> simp [h0, h1]

theorem xcr0_avx512 (x : BitVec 64) :
    x.extractLsb' 5 3 = 7#3 ↔ x.getLsbD 5 = true ∧ x.getLsbD 6 = true ∧ x.getLsbD 7 = true := by
  constructor
  · intro h
    have h0 := congrArg (·.getLsbD 0) h
    have h1 := congrArg (·.getLsbD 1) h
    have h2 := congrArg (·.getLsbD 2) h
    simpa using And.intro h0 (And.intro h1 h2)
  · rintro ⟨h0, h1, h2⟩
    apply BitVec.eq_of_getLsbD_eq
    intro i hi
    interval_cases i <;> simp [h0, h1, h2]

theorem featuresPresent_eq (f : Form) (x : Features) : featuresPresent f x = requiredFlags f x := by
  obtain ⟨_ | _, e, v⟩ := f <;> cases e <;> cases v <;> rfl

theorem in64_iff (s : State) : s.in64 = true ↔ Mode64 s := by
  constructor
  · intro h
    simp only [State.in64, State.realOrV86, State.pe, State.vm, State.lma, Bool.and_eq_true, Bool.not_eq_true',
      Bool.or_eq_false_iff, Bool.not_eq_false'] at h
    exact ⟨h.1.1.1, h.1.1.2, h.1.2, h.2⟩
  · rintro ⟨h1, h2, h3, h4⟩
    simp only [State.in64, State.realOrV86, State.pe, State.vm, State.lma, h1, h2, h3, h4]
    rfl

theorem enabled64_iff (f : Form) (s : State) :
    Enabled64 f s ↔ (s.osxsave = true ∧ s.xcr0Enables f.evex = true ∧ featuresPresent f s.params.feat = true) := by
  rw [featuresPresent_eq]
  simp only [State.osxsave, State.xcr0Enables, Bool.and_eq_true, Bool.or_eq_true, beq_iff_eq, xcr0_sse_avx, xcr0_avx512]
  constructor
  · rintro ⟨h1, h2, h3, h4⟩
    refine ⟨h1, ⟨h2, ?_⟩, h4⟩
    cases h : f.evex
    · simp
    · exact .inr (h3 h)
  · rintro ⟨h1, ⟨h2, h3⟩, h4⟩
    exact ⟨h1, h2, fun h => by simpa [h] using h3, h4⟩

theorem illegalFields_none_iff (f : Form) (o : Operands) :
    illegalFields f.elem o.z o.b o.aaa o.isMemory = none ↔ LegalFields f o := by
  unfold illegalFields LegalFields Operands.isMemory
  cases hc : o.count <;> split_ifs <;> simp_all

/-- `unavailable` lets a form through exactly when it is available and its own fields are legal. -/
theorem unavailable_none_iff (f : Form) (o : Operands) (s : State) :
    unavailable f o s = none ↔ Available f s ∧ LegalFields f o := by
  have hm := in64_iff s
  have he := enabled64_iff f s
  have hl := illegalFields_none_iff f o
  have hr : s.realOrV86 = true → s.in64 = false := by simp_all [State.in64]
  unfold unavailable
  constructor
  · intro h
    split_ifs at h with h1 h2 h3 h4 h5
    simp only [Bool.not_eq_true', Bool.not_eq_false, Bool.or_eq_true, not_or, Bool.not_eq_true, State.ts] at h2 h3 h5
    refine ⟨⟨hm.1 h2, he.2 ⟨h3.1.1, h3.1.2, h3.2⟩, h5⟩, hl.1 ?_⟩
    simpa using h4
  · rintro ⟨⟨h1, h2, h3⟩, h4⟩
    obtain ⟨e1, e2, e3⟩ := he.1 h2
    have h0 := hm.2 h1
    have hr' : s.realOrV86 = false := by
      cases h : s.realOrV86
      · rfl
      · simp [hr h] at h0
    have hts : s.ts = false := h3
    simp [h0, hr', e1, e2, e3, hl.2 h4, hts]

/-! ### The page faults of an access -/

theorem pageFaults_nil_iff (s : State) (kind : AccessKind) (as : List Addr) :
    s.pageFaults kind as = [] ↔ ∀ a ∈ as, ¬ Denied s kind a := by
  unfold State.pageFaults Denied State.pg
  split
  · rename_i h
    simp only [List.filterMap_eq_nil_iff, Option.map_eq_none_iff, List.find?_eq_none, denies_iff, h, true_and]
    constructor
    · rintro h a ha ⟨d, hd, h1⟩
      exact h d hd a ha h1
    · intro h d hd a ha h1
      exact h a ha ⟨d, hd, h1⟩
  · rename_i h
    exact ⟨fun _ a _ hd => h hd.1, fun _ => rfl⟩

/-- A page fault of an access names a denying page and an address of the access in it. -/
theorem mem_pageFaults {s : State} {kind : AccessKind} {as : List Addr} {x : Fault} (h : x ∈ s.pageFaults kind as) :
    ∃ d ∈ s.denials, ∃ a ∈ as, x = .pageFault d.code a ∧ s.cr0.getLsbD 31 = true ∧ d.kind = kind ∧ d.cpl = s.cpl ∧
      Covers d.base d.size a := by
  unfold State.pageFaults at h
  split at h
  · rename_i hpg
    simp only [List.mem_filterMap, Option.map_eq_some_iff] at h
    obtain ⟨d, hd, a, ha, rfl⟩ := h
    have h1 := List.find?_some ha
    rw [denies_iff] at h1
    exact ⟨d, hd, a, List.mem_of_find?_eq_some ha, rfl, hpg, h1⟩
  · simp at h

theorem reportedPageFault_none_iff (s : State) (kind : AccessKind) (as : List Addr) :
    s.reportedPageFault kind as = none ↔ ∀ a ∈ as, ¬ Denied s kind a := by
  rw [← pageFaults_nil_iff]
  unfold State.reportedPageFault
  split <;> simp_all

/-- The reported page fault is one of the page faults of the access, whichever the free value is. -/
theorem reportedPageFault_mem {s : State} {kind : AccessKind} {as : List Addr} {x : Fault}
    (h : s.reportedPageFault kind as = some x) : x ∈ s.pageFaults kind as := by
  unfold State.reportedPageFault at h
  split at h
  · cases h
  · rename_i f hf
    cases h
    simp [hf]
  · rename_i f g rest hf
    cases h
    rw [hf]
    have hlt : Config.pageDraw s.draws % (rest.length + 2) < (f :: g :: rest).length := by
      have := Nat.mod_lt (Config.pageDraw s.draws) (show 0 < rest.length + 2 by omega)
      simp only [List.length_cons]
      omega
    rw [List.getD_eq_getElem _ _ hlt]
    exact List.getElem_mem hlt

/-! ### The read of the count operand -/

/-- Nothing stops the read of a readable memory operand, and it uses no free value. -/
theorem memoryStop_of_readable {f : Form} {o : Operands} {s : State} {m : MemOperand} {la : Addr}
    (h : Readable f o s la) : memoryStop f o s m la = none ∧ alignmentOpen f o s la = false := by
  obtain ⟨hc, ho, hg, ha⟩ := h
  have halign : alignmentOpen f o s la = false := by
    by_contra hne
    simp only [alignmentOpen, ← Bool.not_eq_true, not_not, Bool.and_eq_true, decide_eq_true_eq,
      alignmentCheckActive_iff, anyEnabled_iff] at hne
    exact hne.2 (ha hne.1.1.1 hne.1.1.2 hne.1.2)
  refine ⟨?_, halign⟩
  have h1 : (accessedAddrs f o s la).any (fun a => !canonical s.params a) = false := by
    simp only [List.any_eq_false, mem_accessedAddrs]
    rintro a ⟨k, hk, hacc, rfl⟩
    simpa using (canonical_iff _ _).2 (hc k hk hacc)
  have h2 : (List.range (countBytes f o.b)).any (fun k => s.isDevice (byteAddr la k)) = false := by
    simp only [List.any_eq_false, List.mem_range, isDevice_iff, not_not]
    exact ho
  have h3 : s.reportedPageFault .read (accessedAddrs f o s la) = none := by
    rw [reportedPageFault_none_iff]
    intro a ha'
    obtain ⟨k, hk, hacc, rfl⟩ := (mem_accessedAddrs ..).1 ha'
    exact hg k hk hacc
  simp [memoryStop, h1, h2, h3, halign]

/-- Nothing stops the read of a readable count operand. -/
theorem countStop_of_readable {f : Form} {o : Operands} {s : State} (h : CountReadable f o s) :
    countStop f o s = none ∧ countDraws f o s = 0 := by
  unfold countStop countDraws
  unfold CountReadable at h
  cases hc : o.count with
  | reg r => exact ⟨rfl, rfl⟩
  | mem m =>
    rw [hc] at h
    obtain ⟨h1, h2⟩ := memoryStop_of_readable (m := m) h
    exact ⟨h1, by simp [h2]⟩

/-- What stops a memory read: a fault for a non-canonical accessed byte, a refusal for device memory, a page fault on an accessed
byte, or an alignment check. -/
theorem memoryStop_cases {f : Form} {o : Operands} {s : State} {m : MemOperand} {la : Addr} {st : Stop}
    (h : memoryStop f o s m la = some st) :
    (st = .fault (if throughSS o m s then .stackSegment else .generalProtection) ∧
      ∃ k < countBytes f o.b, AccessedByte f o s k ∧ ¬ CanonicalAddr s.params (byteAddr la k)) ∨
    (st = .refuse .deviceMemory ∧ ∃ k < countBytes f o.b, ¬ Ordinary s (byteAddr la k)) ∨
    (∃ x ∈ s.pageFaults .read (accessedAddrs f o s la), st = .fault x) ∨
    (st = .fault .alignmentCheck ∧ alignmentOpen f o s la = true) := by
  unfold memoryStop at h
  simp only at h
  split at h
  · rename_i h1
    left
    cases h
    simp only [List.any_eq_true, mem_accessedAddrs] at h1
    obtain ⟨a, ⟨k, hk, hacc, rfl⟩, hn⟩ := h1
    exact ⟨rfl, k, hk, hacc, fun hc => by simp [(canonical_iff _ _).2 hc] at hn⟩
  · split at h
    · rename_i h1
      right; left
      cases h
      simp only [List.any_eq_true, List.mem_range, isDevice_iff] at h1
      exact ⟨rfl, h1⟩
    · split at h
      · rename_i p hp
        cases h
        exact .inr (.inr (.inl ⟨p, reportedPageFault_mem hp, rfl⟩))
      · split at h
        · rename_i h1
          cases h
          simp only [Bool.and_eq_true] at h1
          exact .inr (.inr (.inr ⟨rfl, h1.1⟩))
        · cases h

/-! ### The execution sequence -/

/-- Every instruction runs the execution sequence of R88 with its form's parameters and its operands. -/
theorem exec_eq_execShift (i : Instr) (s : State) : exec i s = execShift i.form (operandsOf i) s := by
  cases i <;> rfl

theorem operandsOf_len (i : Instr) : (operandsOf i).len = i.length := by
  cases i <;> rfl

/-- When the execution sequence completes, and with which state. -/
theorem execShift_next_iff (f : Form) (o : Operands) (s t : State) :
    execShift f o s = .next t ↔ unavailable f o s = none ∧ countStop f o s = none ∧ t = completed f o s := by
  unfold execShift
  split
  · rename_i st h
    cases st <;> simp [Stop.outcome, raise, h]
  · rename_i h
    split
    · rename_i st h'
      cases st <;> simp [Stop.outcome, raise, h']
    · rename_i h'
      simp [h, h', eq_comm]

/-- When the execution sequence faults. -/
theorem execShift_fault_iff (f : Form) (o : Operands) (s : State) (x : Fault) :
    execShift f o s = .fault x ↔
      unavailable f o s = some (.fault x) ∨ (unavailable f o s = none ∧ countStop f o s = some (.fault x)) := by
  unfold execShift
  split
  · rename_i st h
    cases st <;> simp [Stop.outcome, raise, h]
  · rename_i h
    split
    · rename_i st h'
      cases st <;> simp [Stop.outcome, raise, h, h']
    · rename_i h'
      simp [h, h']

/-- What a completed form leaves. -/
theorem completed_eq (f : Form) (o : Operands) (s : State) :
    completed f o s =
      { s with
        zmm := s.zmm.set o.dest.toNat (shifted f o s) o.dest.isLt
        pc := s.pc + BitVec.ofNat 64 o.len
        draws := s.draws + countDraws f o s } := rfl

/-! ### The count vector and the result -/

/-- Byte `k` of a memory read is the byte at address `la + k` where it is accessed (R34, R45). -/
theorem byte_loadBytes (s : State) (la : Addr) (acc : Nat → Bool) {n k : Nat} (hn : n ≤ 64) (hk : k < n)
    (ha : acc k = true) : (loadBytes s la acc n).extractLsb' (8 * k) 8 = s.byteAt (byteAddr la k) := by
  have := lane_ofLanes (w := 8) (by decide) (fun k => if acc k then s.byteAt (byteAddr la k) else 0#8) hk (by omega)
  simpa [lane, loadBytes, ha] using this

/-- A byte of an element: the element at bit `w * j`, the byte at bit `8 * n` in it. -/
theorem extract_byte_lane (e : Elem) (j n : Nat) (v : Zmm) (hn : n < e.bits / 8) :
    v.extractLsb' (8 * (j * (e.bits / 8) + n)) 8 = (lane e.bits j v).extractLsb' (8 * n) 8 := by
  apply BitVec.eq_of_getLsbD_eq
  intro i hi
  have h1 : 8 * n + i < e.bits := by cases e <;> simp [Elem.bits] at hn ⊢ <;> omega
  have h2 : 8 * (j * (e.bits / 8) + n) + i = e.bits * j + (8 * n + i) := by
    cases e <;> simp [Elem.bits] <;> omega
  simp [lane, hi, h1, h2]

theorem countBytes_le (f : Form) (b : Bool) : countBytes f b ≤ 64 := by
  obtain ⟨_, e, v⟩ := f
  cases b <;> cases e <;> cases v <;> simp [countBytes, Elem.bits, VLen.bits]

/-- The count vector holds the counts (R86, R88 step 6). -/
theorem countVector_is (f : Form) (o : Operands) (s : State) : CountIs f o s (countVector f o s) := by
  unfold CountIs
  split
  · rename_i r hr
    simp [countVector, hr]
  · rename_i m hm
    intro j hj he n hn
    have hb := countBytes_le f o.b
    by_cases hbc : o.b = true
    · have hacc : accessed f o s n = true := by
        rw [accessed_iff, AccessedByte, if_pos hbc]
        exact ⟨j, hj, he⟩
      have hcb : n < countBytes f o.b := by simpa [countBytes, hbc] using hn
      have hlanes : f.elem.bits * f.lanes ≤ 512 := lanes_mul_bits f ▸ vlen_bits_le f.vl
      rw [extract_byte_lane f.elem j n _ hn]
      simp only [countVector, hm, if_pos hbc]
      rw [lane_ofLanes (elem_bits_pos _) _ hj hlanes, ← extract_byte_lane f.elem 0 n _ hn]
      simpa [byteAddr] using byte_loadBytes s (linearAddress f o m s) (accessed f o s) hb hcb hacc
    · have hb8 : 0 < f.elem.bits / 8 := by cases f.elem <;> decide
      have hdiv : (j * (f.elem.bits / 8) + n) / (f.elem.bits / 8) = j := by
        rw [Nat.mul_comm, Nat.mul_add_div hb8, Nat.div_eq_of_lt hn, Nat.add_zero]
      have hacc : accessed f o s (j * (f.elem.bits / 8) + n) = true := by
        rw [accessed_iff, AccessedByte, if_neg hbc, hdiv]
        exact he
      have hcb : j * (f.elem.bits / 8) + n < countBytes f o.b := by
        have h1 : (j + 1) * (f.elem.bits / 8) ≤ f.lanes * (f.elem.bits / 8) := Nat.mul_le_mul_right _ hj
        have h2 : f.lanes * (f.elem.bits / 8) = f.vl.bits / 8 := by
          obtain ⟨_, e, v⟩ := f
          cases e <;> cases v <;> simp [Form.lanes, Elem.bits, VLen.bits]
        simp only [countBytes, if_neg hbc]
        rw [Nat.add_mul, h2] at h1
        omega
      simp only [countVector, hm, if_neg hbc]
      exact byte_loadBytes s (linearAddress f o m s) (accessed f o s) hb hcb hacc

theorem elemNat_eq_lane (w j : Nat) (v : Zmm) : elemNat w j v = (lane w j v).toNat := by
  simp [elemNat, lane, Nat.mul_comm]

/-- The destination's new value is the result the rules give for the count vector (R80, R83 to R87). -/
theorem shifted_is (f : Form) (o : Operands) (s : State) : ResultIs f o s (countVector f o s) (shifted f o s) := by
  refine ⟨fun j hj => ?_, fun n hn => vsllv_high f _ _ _ _ _ _ hn⟩
  have h := lane_vsllv f o.masked o.z (s.kAt o.aaa) (s.zmmAt o.dest) (s.zmmAt o.src1) (countVector f o s) hj
  have he := enabled_iff o s j
  unfold Operands.enabled at he
  have hw := elem_bits_pos f.elem
  simp only [elemNat_eq_lane, shifted, h]
  refine ⟨fun hen => ?_, fun hen => ?_⟩
  · rw [if_pos (he.2 hen)]
    split
    · rw [sll_of_le _ _ (by omega)]
      simp
    · exact toNat_sll_of_lt _ _ (by omega)
  · rw [if_neg (fun h => hen (he.1 h))]
    split <;> simp_all

/-! ### The fetch and the step -/

theorem fetchStop_none_iff {s : State} (h64 : Mode64 s) (a : Addr) : fetchStop s a = none ↔ Fetchable s a := by
  have h := (in64_iff s).2 h64
  unfold fetchStop
  constructor
  · intro hs
    split_ifs at hs with h1 h2
    simp only [h, Bool.true_and, Bool.not_eq_true', Bool.not_eq_false] at h1
    simp only [isDevice_iff, not_not] at h2
    refine ⟨(canonical_iff _ _).1 h1, h2, ?_⟩
    have := (reportedPageFault_none_iff s .fetch [a]).1 (by simpa using hs)
    exact this a (List.mem_singleton_self a)
  · rintro ⟨hc, ho, hg⟩
    have h2 : s.isDevice a = false := by
      rw [← Bool.not_eq_true, isDevice_iff, not_not]
      exact ho
    have h3 : s.reportedPageFault .fetch [a] = none := by
      rw [reportedPageFault_none_iff]
      simpa using hg
    simp [h, (canonical_iff _ _).2 hc, h2, h3]

/-- What one step can do when it completes: it ran the instruction at the pc, with no debug trap pending. -/
theorem step_next {s t : State} (h : step s = .next t) :
    s.pendingDebug = false ∧ ∃ i u, fetchInstr s = .run i ∧ exec i s = .next u ∧ t = u.markTrap s.tf := by
  unfold step at h
  split at h
  · cases h
  · rename_i hp
    refine ⟨by simpa using hp, ?_⟩
    split at h
    · rename_i i hi
      unfold afterInstr at h
      split at h <;> cases h
      exact ⟨i, _, hi, by assumption, rfl⟩
    · rename_i st _
      cases st <;> cases h

end Sys2Proof.Machine
end

