-- ==== Sys2Proof/Laws/Fetch.lean ====
section
/-! SUPPORT. What the decoder answers does not depend on the bytes after it, and what the fetch window holds. -/

namespace Sys2Proof

/-- An answer of the decoder with more bytes after those it was given. -/
def Decoded.addRest (x : List Byte) : Decoded → Decoded
  | .ok i rest => .ok i (rest ++ x)
  | d => d

theorem takeD32_append {bs x : List Byte} {r : BitVec 32 × List Byte} (h : takeD32 bs = some r) :
    takeD32 (bs ++ x) = some (r.1, r.2 ++ x) := by
  unfold takeD32 at h
  split at h
  · cases h; rfl
  · cases h

theorem takeDisp_append {m : BitVec 2} {bs x : List Byte} {r : Disp × List Byte} (h : takeDisp m bs = some r) :
    takeDisp m (bs ++ x) = some (r.1, r.2 ++ x) := by
  unfold takeDisp at h ⊢
  split_ifs at h ⊢
  · cases h; rfl
  · split at h
    · cases h; rfl
    · cases h
  · simp only [Option.map_eq_some_iff] at h ⊢
    obtain ⟨q, hq, rfl⟩ := h
    exact ⟨_, takeD32_append hq, rfl⟩

theorem takeSib_append {a b : Bool} {m : BitVec 2} {bs x : List Byte} {r : MemOperand × List Byte}
    (h : takeSib a b m bs = some r) : takeSib a b m (bs ++ x) = some (r.1, r.2 ++ x) := by
  cases bs with
  | nil => cases h
  | cons sib bs =>
    simp only [takeSib, List.cons_append] at h ⊢
    split_ifs at h ⊢
    · simp only [Option.map_eq_some_iff] at h ⊢
      obtain ⟨q, hq, rfl⟩ := h
      exact ⟨_, takeD32_append hq, rfl⟩
    · simp only [Option.map_eq_some_iff] at h ⊢
      obtain ⟨q, hq, rfl⟩ := h
      exact ⟨_, takeDisp_append hq, rfl⟩

theorem takeModRm_append {a b : Bool} {bs x : List Byte} {r : BitVec 3 × RmField × List Byte}
    (h : takeModRm a b bs = some r) : takeModRm a b (bs ++ x) = some (r.1, r.2.1, r.2.2 ++ x) := by
  cases bs with
  | nil => cases h
  | cons modrm bs =>
    simp only [takeModRm, List.cons_append] at h ⊢
    split_ifs at h ⊢
    · cases h; rfl
    · simp only [Option.map_eq_some_iff] at h ⊢
      obtain ⟨q, hq, rfl⟩ := h
      exact ⟨_, takeSib_append hq, rfl⟩
    · simp only [Option.map_eq_some_iff] at h ⊢
      obtain ⟨q, hq, rfl⟩ := h
      exact ⟨_, takeD32_append hq, rfl⟩
    · simp only [Option.map_eq_some_iff] at h ⊢
      obtain ⟨q, hq, rfl⟩ := h
      exact ⟨_, takeDisp_append hq, rfl⟩

theorem decodeVex_append {ps : List LegacyPrefix} {bs : List Byte} (x : List Byte) (h : decodeVex ps bs ≠ .truncated) :
    decodeVex ps (bs ++ x) = (decodeVex ps bs).addRest x := by
  unfold decodeVex at h ⊢
  split at h
  · simp only [List.cons_append]
    split at h
    · rename_i h1
      rw [if_pos h1]
      simp only at h ⊢
      rw [if_pos h1]
      split at h
      · simp at h
      · rename_i hm
        rw [takeModRm_append hm]
        rfl
    · rename_i h1
      rw [if_neg h1, if_neg h1]
      rfl
  · simp at h

theorem decodeEvex_append {ps : List LegacyPrefix} {bs : List Byte} (x : List Byte) (h : decodeEvex ps bs ≠ .truncated) :
    decodeEvex ps (bs ++ x) = (decodeEvex ps bs).addRest x := by
  unfold decodeEvex at h ⊢
  split at h
  · simp only [List.cons_append]
    split at h
    · rename_i h1
      rw [if_pos h1, if_pos h1]
      rfl
    rename_i h1
    rw [if_neg h1, if_neg h1]
    split at h
    · rename_i h2
      rw [if_pos h2, if_pos h2]
      rfl
    rename_i h2
    rw [if_neg h2, if_neg h2]
    split at h
    · rfl
    split at h
    · rfl
    split at h
    · simp at h
    · rename_i hm
      rw [takeModRm_append hm]
      simp only at h ⊢
      split <;> rfl
  · simp at h

theorem decodeEscape_append {ps : List LegacyPrefix} {bs : List Byte} (x : List Byte)
    (h : decodeEscape ps bs ≠ .truncated) : decodeEscape ps (bs ++ x) = (decodeEscape ps bs).addRest x := by
  cases bs with
  | nil => simp [decodeEscape] at h
  | cons b bs =>
    simp only [decodeEscape, List.cons_append] at h ⊢
    split_ifs at h ⊢
    · exact decodeVex_append x h
    · exact decodeEvex_append x h
    · rfl

theorem splitPrefixes_append {bs : List Byte} (x : List Byte) (h : (splitPrefixes bs).2.2 ≠ []) :
    splitPrefixes (bs ++ x) = ((splitPrefixes bs).1, (splitPrefixes bs).2.1, (splitPrefixes bs).2.2 ++ x) := by
  induction bs with
  | nil => simp [splitPrefixes] at h
  | cons b bs ih =>
    simp only [splitPrefixes, List.cons_append] at h ⊢
    split <;> rename_i hb <;> simp only [hb] at h
    · rw [ih h]
    · split_ifs at h ⊢
      · rw [ih h]
      · rfl

theorem startsWithEscape_append {bs : List Byte} (x : List Byte) (h : bs ≠ []) :
    startsWithEscape (bs ++ x) = startsWithEscape bs := by
  cases bs with
  | nil => simp at h
  | cons b bs => rfl

/-- More bytes after those that decode, or are rejected, change nothing but what is left over. -/
theorem decode_append {bs : List Byte} (x : List Byte) (h : decode bs ≠ .truncated) :
    decode (bs ++ x) = (decode bs).addRest x := by
  have he : decodeEscape (splitPrefixes bs).1 (splitPrefixes bs).2.2 ≠ .truncated := by
    intro hc
    simp [decode, hc] at h
  have hne : (splitPrefixes bs).2.2 ≠ [] := by
    intro hc
    rw [hc] at he
    simp [decodeEscape] at he
  unfold decode
  rw [splitPrefixes_append x hne]
  simp only
  rw [decodeEscape_append x he, startsWithEscape_append x hne]
  generalize decodeEscape (splitPrefixes bs).1 (splitPrefixes bs).2.2 = d at he
  cases d with
  | truncated => exact absurd rfl he
  | ok i rest => simp only [Decoded.addRest]; split_ifs <;> rfl
  | undefined w => simp only [Decoded.addRest]; split_ifs <;> rfl
  | notInFamily => simp only [Decoded.addRest]; split_ifs <;> rfl
  | notAdmitted => simp only [Decoded.addRest]; split_ifs <;> rfl

/-- Bytes that decode to an instruction: the machine's decoder has it too, if the parameters admit it. -/
theorem decodeAdmitted_of_ok {p : Params} {bs rest : List Byte} {i : Instr} (h : decode bs = .ok i rest) :
    decodeAdmitted p bs = if i.admitted p then .ok i rest else .notAdmitted := by
  simp [decodeAdmitted, h]

/-- Bytes that decode to no instruction: the machine's decoder answers the same. -/
theorem decodeAdmitted_of_not_ok {p : Params} {bs : List Byte} (h : ∀ i rest, decode bs ≠ .ok i rest) :
    decodeAdmitted p bs = decode bs := by
  unfold decodeAdmitted
  split
  · rename_i hd
    exact absurd hd (h _ _)
  · rfl

/-- An instruction of the machine's decoder is what the bytes encode, and admitted. -/
theorem decodeAdmitted_ok_iff {p : Params} {bs rest : List Byte} {i : Instr} :
    decodeAdmitted p bs = .ok i rest ↔ decode bs = .ok i rest ∧ i.admitted p = true := by
  cases hd : decode bs with
  | ok j r =>
    rw [decodeAdmitted_of_ok hd]
    constructor
    · intro h
      split_ifs at h with ha
      cases h
      exact ⟨rfl, ha⟩
    · rintro ⟨h, ha⟩
      cases h
      rw [if_pos ha]
  | _ => simp [decodeAdmitted, hd]

end Sys2Proof

namespace Sys2Proof.Machine

theorem operandsOf_prefixes (i : Instr) : (operandsOf i).prefixes = i.prefixes := by
  unfold operandsOf Instr.prefixes
  cases i.args <;> rfl

theorem admitted_iff (i : Instr) (s : State) : i.admitted s.params = true ↔ Admitted i s := by
  simp [Instr.admitted, Admitted, operandsOf_prefixes]

theorem fetchAddr_of_mode64 {s : State} (h : Mode64 s) (k : Nat) : s.fetchAddr k = s.pc + BitVec.ofNat 64 k := by
  simp [State.fetchAddr, State.codeBase, (in64_iff s).2 h, byteAddr]

/-- A fetch of `n + m` bytes from byte `k` on whose first `n` bytes can be fetched. -/
theorem fetchFrom_add {s : State} (h64 : Mode64 s) (n m k : Nat) (h : ∀ j < n, Fetchable s (s.fetchAddr (k + j))) :
    fetchFrom s k (n + m) =
      (((List.range n).map fun j => s.byteAt (s.fetchAddr (k + j))) ++ (fetchFrom s (k + n) m).1,
        (fetchFrom s (k + n) m).2) := by
  induction n generalizing k with
  | zero => simp
  | succ n ih =>
    have h0 : fetchStop s (s.fetchAddr k) = none := (fetchStop_none_iff h64 _).2 (by simpa using h 0 (by omega))
    have h1 := ih (k + 1) fun j hj => by
      have := h (j + 1) (by omega)
      rwa [show k + (j + 1) = k + 1 + j by omega] at this
    rw [show n + 1 + m = n + m + 1 by omega]
    simp only [fetchFrom, h0, h1]
    rw [List.range_succ_eq_map]
    simp only [List.map_cons, List.map_map, List.cons_append, Nat.add_zero]
    rw [show k + 1 + n = k + (n + 1) by omega]
    congr 3
    apply List.map_congr_left
    intro j _
    simp only [Function.comp]
    rw [show k + 1 + j = k + (j + 1) by omega]

/-- The fetch window, when its first `n` bytes can be fetched: those bytes, and what the fetch from the next one on gives. -/
theorem fetchWindow_eq {s : State} (h64 : Mode64 s) {n : Nat} (hn : n ≤ 15)
    (h : ∀ k < n, Fetchable s (s.pc + BitVec.ofNat 64 k)) :
    fetchWindow s = (bytesAtPc s n ++ (fetchFrom s n (15 - n)).1, (fetchFrom s n (15 - n)).2) := by
  have := fetchFrom_add h64 n (15 - n) 0 fun k hk => by
    rw [fetchAddr_of_mode64 h64]
    simpa using h k hk
  rw [show n + (15 - n) = 15 by omega] at this
  simp only [fetchWindow, Config.maxInstrBytes, this, bytesAtPc, fetchAddr_of_mode64 h64, Nat.zero_add]

/-- In 64-bit mode with no trap pending, bytes that can be fetched and do not end inside the instruction decide the fetch. -/
theorem fetchInstr_of_decode {s : State} (h64 : Mode64 s) {n : Nat} (hn : n ≤ 15)
    (h : ∀ k < n, Fetchable s (s.pc + BitVec.ofNat 64 k)) (hd : decode (bytesAtPc s n) ≠ .truncated) :
    fetchInstr s = match decodeAdmitted s.params (bytesAtPc s n) with
      | .ok i _ => .run i
      | .undefined _ => .stop (.fault .invalidOpcode)
      | .notInFamily => .stop (.refuse .notInFamily)
      | .notAdmitted => .stop (.refuse .legacyPrefix)
      | .truncated => .stop (.fault .generalProtection) := by
  have hw := fetchWindow_eq h64 hn h
  have ha := decode_append (fetchFrom s n (15 - n)).1 hd
  simp only [fetchInstr, (in64_iff s).2 h64, if_true, fetched64, hw, decodeAdmitted, ha]
  generalize decode (bytesAtPc s n) = d at hd
  cases d with
  | truncated => exact absurd rfl hd
  | ok i rest => simp only [Decoded.addRest]; cases i.admitted s.params <;> rfl
  | undefined why => rfl
  | notInFamily => rfl
  | notAdmitted => rfl

/-- In 64-bit mode with no trap pending, bytes that can be fetched and encode an instruction run it if it is admitted, and are
refused otherwise (R57, D15). -/
theorem fetchInstr_of_ok {s : State} (h64 : Mode64 s) {n : Nat} {i : Instr} {rest : List Byte} (hn : n ≤ 15)
    (h : ∀ k < n, Fetchable s (s.pc + BitVec.ofNat 64 k)) (hd : decode (bytesAtPc s n) = .ok i rest) :
    (Admitted i s → fetchInstr s = .run i) ∧ (¬ Admitted i s → fetchInstr s = .stop (.refuse .legacyPrefix)) := by
  rw [fetchInstr_of_decode h64 hn h (by simp [hd]), decodeAdmitted_of_ok hd, ← admitted_iff]
  cases i.admitted s.params <;> simp

/-- A step whose fetch gives an instruction runs it. -/
theorem stepRuns_of_fetch {s : State} {i : Instr} (hp : s.pendingDebug = false) (hf : fetchInstr s = .run i) : StepRuns i s := by
  refine ⟨fun t h => ?_, fun x h => ?_, fun r h => ?_⟩ <;> (simp [step, hp, hf, h, afterInstr]; try rfl)

/-- A step whose fetch stops has the outcome of the stop. -/
theorem step_of_stop {s : State} {st : Stop} (hp : s.pendingDebug = false) (hf : fetchInstr s = .stop st) :
    step s = st.outcome := by
  simp [step, hp, hf]

end Sys2Proof.Machine
end

