-- ==== Sys2Proof/Laws/Memory.lean ====
section
/-! SUPPORT. Memory: a read after a write, and the canonical form that every memory operation keeps. -/

namespace Sys2Proof.Machine

/-- Every address of a memory is above `a`. -/
abbrev Memory.above (a : Nat) (m : Memory) : Prop := ∀ c ∈ m, a < c.1

theorem Memory.read_of_above {a : Nat} {m : Memory} (h : Memory.above a m) : Memory.read m a = unlistedByte := by
  induction m with
  | nil => rfl
  | cons c m ih =>
    have hc : a < c.1 := h c (List.mem_cons_self ..)
    have : c.1 ≠ a := by omega
    simp only [Memory.read, this, if_false]
    exact ih fun d hd => h d (List.mem_cons_of_mem _ hd)

theorem Memory.wf_nil : Memory.wf [] := by simp [Memory.wf]

theorem Memory.wf_cons {c : Host.Cell} {m : Memory} :
    Memory.wf (c :: m) ↔ Memory.above c.1 m ∧ (c.1 < 2 ^ 64 ∧ c.2 ≠ unlistedByte) ∧ Memory.wf m := by
  simp only [Memory.wf, List.pairwise_cons, List.mem_cons, forall_eq_or_imp, Memory.above]
  tauto

/-- A write lists no address but those listed and its own. -/
theorem Memory.mem_write {m : Memory} {a : Nat} {b : Byte} {c : Host.Cell} (h : c ∈ m.write a b) :
    c ∈ m ∨ (c = (a, b) ∧ b ≠ unlistedByte) := by
  induction m with
  | nil =>
    simp only [Memory.write] at h
    split at h <;> simp_all
  | cons d m ih =>
    obtain ⟨x, e⟩ := d
    simp only [Memory.write] at h
    split at h
    · rcases List.mem_cons.1 h with rfl | h
      · exact .inl (List.mem_cons_self ..)
      · exact (ih h).imp_left (List.mem_cons_of_mem _)
    · split at h <;> split at h <;> simp_all <;> tauto

/-- A write keeps the canonical form. -/
theorem Memory.write_wf {m : Memory} {a : Nat} {b : Byte} (hm : m.wf) (ha : a < 2 ^ 64) : (m.write a b).wf := by
  induction m with
  | nil =>
    simp only [Memory.write]
    split <;> simp_all [Memory.wf]
  | cons c m ih =>
    obtain ⟨x, e⟩ := c
    obtain ⟨hab, hx, hwf⟩ := Memory.wf_cons.1 hm
    simp only [Memory.write]
    split
    · rename_i hlt
      refine Memory.wf_cons.2 ⟨fun d hd => ?_, hx, ih hwf⟩
      rcases Memory.mem_write hd with hd | ⟨rfl, _⟩
      · exact hab d hd
      · exact hlt
    · split <;> split
      · exact hwf
      · rename_i h1 h2 h3
        subst h2
        exact Memory.wf_cons.2 ⟨hab, ⟨ha, h3⟩, hwf⟩
      · exact hm
      · rename_i h1 h2 h3
        refine Memory.wf_cons.2 ⟨fun d hd => ?_, ⟨ha, h3⟩, hm⟩
        rcases List.mem_cons.1 hd with rfl | hd
        · show a < x; omega
        · have := hab d hd
          show a < d.1
          simp only at this
          omega

/-- A read after a write to the same address gives the byte written. -/
theorem Memory.read_write_same {m : Memory} (hm : m.wf) (a : Nat) (b : Byte) : (m.write a b).read a = b := by
  induction m with
  | nil =>
    simp only [Memory.write]
    split <;> simp_all [Memory.read]
  | cons c m ih =>
    obtain ⟨x, e⟩ := c
    obtain ⟨hab, -, hwf⟩ := Memory.wf_cons.1 hm
    simp only [Memory.write]
    split
    · have : x ≠ a := by omega
      simp only [Memory.read, this, if_false, ih hwf]
    · split <;> split
      · rename_i h1 h2 h3
        subst h2 h3
        exact Memory.read_of_above hab
      · simp [Memory.read]
      · rename_i h1 h2 h3
        subst h3
        refine Memory.read_of_above fun d hd => ?_
        rcases List.mem_cons.1 hd with rfl | hd
        · show a < x; omega
        · have := hab d hd
          simp only at this
          omega
      · simp [Memory.read]

/-- A write leaves every other address alone. -/
theorem Memory.read_write_other {m : Memory} {a a' : Nat} (b : Byte) (h : a' ≠ a) :
    (m.write a b).read a' = m.read a' := by
  have h' : a ≠ a' := h.symm
  induction m with
  | nil =>
    simp only [Memory.write]
    split <;> simp [Memory.read, h']
  | cons c m ih =>
    obtain ⟨x, e⟩ := c
    simp only [Memory.write]
    split
    · simp only [Memory.read, ih]
    · split <;> split
      · rename_i h1 h2 h3
        subst h2
        simp [Memory.read, h']
      · rename_i h1 h2 h3
        subst h2
        simp [Memory.read, h']
      · rfl
      · simp [Memory.read, h']

/-- `writeBytes` keeps the canonical form. -/
theorem writeBytes_wf {m : Memory} (hm : m.wf) (la : Addr) (bs : List Byte) : (writeBytes m la bs).wf := by
  induction bs generalizing m la with
  | nil => exact hm
  | cons b bs ih => exact ih (Memory.write_wf hm la.isLt) (la + 1)

/-- Memory after reset has the canonical form. -/
theorem reset_mem_wf : State.reset.mem.wf := Memory.wf_nil

end Sys2Proof.Machine
end

