-- ==== Sys2Proof/Laws/PerInstr.lean ====
section
/-! SUPPORT. The per-instruction families of LAWS.json: one lemma for each constructor. -/

namespace Sys2Proof.Laws.LengthBounds

/-- An instruction encodes to as many bytes as R70 says, at least 5 with a VEX prefix and 6 with an EVEX prefix, and at most 5
more after its legacy prefixes. -/
def Statement (i : Instr) : Prop :=
  (encode i).length = i.length ∧
  match i.args with
  | .vex a => a.prefixes.length + 5 ≤ i.length ∧ i.length ≤ a.prefixes.length + 10
  | .evex a => a.prefixes.length + 6 ≤ i.length ∧ i.length ≤ a.prefixes.length + 11

theorem tailLength_le {n : Nat} (c : Count n) : c.tailLength ≤ 5 := by
  cases c with
  | reg r => exact Nat.zero_le _
  | mem m =>
    cases m with
    | base b d | sib s i b d => cases d <;> simp [Count.tailLength, MemOperand.tailLength, Disp.length]
    | rip d | sibNoBase s i d => simp [Count.tailLength, MemOperand.tailLength]

theorem vex (w l : Bool) (a : VexArgs) :
    (encodeVex w l a).length = a.length ∧ a.prefixes.length + 5 ≤ a.length ∧ a.length ≤ a.prefixes.length + 10 := by
  have := tailLength_le a.count
  exact ⟨encodeVex_length w l a, by unfold VexArgs.length; omega, by unfold VexArgs.length; omega⟩

theorem evex (op : Byte) (w : Bool) (ll : BitVec 2) (a : EvexArgs) :
    (encodeEvex op w ll a).length = a.length ∧ a.prefixes.length + 6 ≤ a.length ∧ a.length ≤ a.prefixes.length + 11 := by
  have := tailLength_le a.count
  exact ⟨encodeEvex_length op w ll a, by unfold EvexArgs.length; omega, by unfold EvexArgs.length; omega⟩

theorem vpsllvdVex128 (a : VexArgs) : Statement (.vpsllvdVex128 a) := vex _ _ a
theorem vpsllvqVex128 (a : VexArgs) : Statement (.vpsllvqVex128 a) := vex _ _ a
theorem vpsllvdVex256 (a : VexArgs) : Statement (.vpsllvdVex256 a) := vex _ _ a
theorem vpsllvqVex256 (a : VexArgs) : Statement (.vpsllvqVex256 a) := vex _ _ a
theorem vpsllvwEvex128 (a : EvexArgs) : Statement (.vpsllvwEvex128 a) := evex _ _ _ a
theorem vpsllvwEvex256 (a : EvexArgs) : Statement (.vpsllvwEvex256 a) := evex _ _ _ a
theorem vpsllvwEvex512 (a : EvexArgs) : Statement (.vpsllvwEvex512 a) := evex _ _ _ a
theorem vpsllvdEvex128 (a : EvexArgs) : Statement (.vpsllvdEvex128 a) := evex _ _ _ a
theorem vpsllvdEvex256 (a : EvexArgs) : Statement (.vpsllvdEvex256 a) := evex _ _ _ a
theorem vpsllvdEvex512 (a : EvexArgs) : Statement (.vpsllvdEvex512 a) := evex _ _ _ a
theorem vpsllvqEvex128 (a : EvexArgs) : Statement (.vpsllvqEvex128 a) := evex _ _ _ a
theorem vpsllvqEvex256 (a : EvexArgs) : Statement (.vpsllvqEvex256 a) := evex _ _ _ a
theorem vpsllvqEvex512 (a : EvexArgs) : Statement (.vpsllvqEvex512 a) := evex _ _ _ a

end Sys2Proof.Laws.LengthBounds
end

