-- ==== Sys2Proof/Tests/Slice0.lean ====
section
/-! SUPPORT. Tests. Expected values are those of spec/95_test_vectors.md (W-, D-, Q-, F- vectors, sections 2.5 and 2.6), each cited.
The `witness_` theorems show concrete states and operands that meet the hypotheses of the statements. -/

namespace Sys2Proof.Tests

set_option Elab.async false

open Sys2Proof.Machine

/-! ### WellFormed: one ill-formed term for each check -/

theorem test_wf_accepts : (Instr.vpsllvdVex128 ⟨[.fs, .addr32], 15, 14, .mem (.sib 3 10 9 (.d8 0x80))⟩).wf = true := by decide
theorem test_wf_disp_missing : (Instr.vpsllvdVex128 ⟨[], 8, 9, .mem (.base 13 .none)⟩).wf = false := by decide
theorem test_wf_base_needs_sib : (Instr.vpsllvdVex128 ⟨[], 8, 9, .mem (.base 12 (.d8 0))⟩).wf = false := by decide
theorem test_wf_sib_disp_missing : (Instr.vpsllvdVex128 ⟨[], 8, 9, .mem (.sib 0 4 5 .none)⟩).wf = false := by decide
theorem test_wf_too_long :
    (Instr.vpsllvdVex128 ⟨[.ds, .ds, .ds, .ds, .ds, .ds, .ds, .ds, .ds, .ds, .ds], 8, 9, .reg 0⟩).wf = false := by decide
theorem test_wf_zeroing_without_mask : (Instr.vpsllvdEvex128 ⟨[], 0, 1, .reg 2, 0, true, false⟩).wf = false := by decide
theorem test_wf_broadcast_register : (Instr.vpsllvdEvex128 ⟨[], 0, 1, .reg 2, 0, false, true⟩).wf = false := by decide
theorem test_wf_broadcast_word : (Instr.vpsllvwEvex128 ⟨[], 0, 1, .mem (.base 0 .none), 0, false, true⟩).wf = false := by
  decide

/-! ### Decoding: the words of 95_test_vectors.md 2.5, and words written out by R58 and R60 for the forms it lacks -/

theorem test_decode_vpsllvdVex128 :
    decode [0xC4, 0xE2, 0x71, 0x47, 0xC2] = .ok (.vpsllvdVex128 ⟨[], 0, 1, .reg 2⟩) [] := by decide
theorem test_decode_vpsllvqVex128 :
    decode [0xC4, 0xE2, 0xD9, 0x47, 0x18] = .ok (.vpsllvqVex128 ⟨[], 3, 4, .mem (.base 0 .none)⟩) [] := by decide
theorem test_decode_vpsllvdVex256 :
    decode [0xC4, 0xE2, 0x6D, 0x47, 0x0C, 0x25, 0x78, 0x56, 0x34, 0x12] =
      .ok (.vpsllvdVex256 ⟨[], 1, 2, .mem (.sibNoBase 0 4 0x12345678)⟩) [] := by decide
theorem test_decode_vpsllvqVex256 :
    decode [0xC4, 0xE2, 0xF5, 0x47, 0xC2] = .ok (.vpsllvqVex256 ⟨[], 0, 1, .reg 2⟩) [] := by decide
theorem test_decode_vpsllvwEvex128 :
    decode [0x62, 0xF2, 0xF5, 0x89, 0x12, 0xC2] = .ok (.vpsllvwEvex128 ⟨[], 0, 1, .reg 2, 1, true, false⟩) [] := by decide
theorem test_decode_vpsllvwEvex256 :
    decode [0x62, 0x52, 0xB5, 0x29, 0x12, 0xC2] = .ok (.vpsllvwEvex256 ⟨[], 8, 9, .reg 10, 1, false, false⟩) [] := by decide
theorem test_decode_vpsllvwEvex512 :
    decode [0x62, 0xF2, 0xED, 0xCA, 0x12, 0xCB] = .ok (.vpsllvwEvex512 ⟨[], 1, 2, .reg 3, 2, true, false⟩) [] := by decide
theorem test_decode_vpsllvdEvex128 :
    decode [0x62, 0xB2, 0x75, 0x0D, 0x47, 0xC2] = .ok (.vpsllvdEvex128 ⟨[], 0, 1, .reg 18, 5, false, false⟩) [] := by decide
theorem test_decode_vpsllvdEvex256 :
    decode [0x62, 0xF2, 0x6D, 0x38, 0x47, 0x48, 0x7F] =
      .ok (.vpsllvdEvex256 ⟨[], 1, 2, .mem (.base 0 (.d8 0x7F)), 0, false, true⟩) [] := by decide
theorem test_decode_vpsllvdEvex512 :
    decode [0x62, 0x72, 0x1D, 0xDA, 0x47, 0x1E] =
      .ok (.vpsllvdEvex512 ⟨[], 11, 12, .mem (.base 6 .none), 2, true, true⟩) [] := by decide
theorem test_decode_vpsllvqEvex128 :
    decode [0x62, 0xA2, 0xD5, 0x00, 0x47, 0xE6] = .ok (.vpsllvqEvex128 ⟨[], 20, 21, .reg 22, 0, false, false⟩) [] := by decide
theorem test_decode_vpsllvqEvex256 :
    decode [0x62, 0xF2, 0xF5, 0xBF, 0x47, 0x00] =
      .ok (.vpsllvqEvex256 ⟨[], 0, 1, .mem (.base 0 .none), 7, true, true⟩) [] := by decide
theorem test_decode_vpsllvqEvex512 :
    decode [0x62, 0x02, 0x8D, 0xC4, 0x47, 0xFD] = .ok (.vpsllvqEvex512 ⟨[], 31, 30, .reg 29, 4, true, false⟩) [] := by decide

theorem test_decode_sib_scaled_index :
    decode [0xC4, 0x02, 0x09, 0x47, 0x7C, 0xD1, 0x80] =
      .ok (.vpsllvdVex128 ⟨[], 15, 14, .mem (.sib 3 10 9 (.d8 0x80))⟩) [] := by decide
theorem test_decode_sib_base_r12 :
    decode [0xC4, 0x42, 0x31, 0x47, 0x04, 0x24] = .ok (.vpsllvdVex128 ⟨[], 8, 9, .mem (.sib 0 4 12 .none)⟩) [] := by decide
theorem test_decode_base_r13 :
    decode [0xC4, 0x42, 0x31, 0x47, 0x45, 0x00] = .ok (.vpsllvdVex128 ⟨[], 8, 9, .mem (.base 13 (.d8 0))⟩) [] := by decide
theorem test_decode_rip :
    decode [0x62, 0xF2, 0xC5, 0x48, 0x47, 0x35, 0x00, 0x01, 0x00, 0x00] =
      .ok (.vpsllvqEvex512 ⟨[], 6, 7, .mem (.rip 0x100), 0, false, false⟩) [] := by decide
theorem test_decode_disp32_unscaled :
    decode [0x62, 0xF2, 0xED, 0x48, 0x12, 0x88, 0x7F, 0x00, 0x00, 0x00] =
      .ok (.vpsllvwEvex512 ⟨[], 1, 2, .mem (.base 0 (.d32 0x7F)), 0, false, false⟩) [] := by decide
theorem test_decode_ds_override :
    decode [0x3E, 0xC4, 0xE2, 0x75, 0x47, 0x00] = .ok (.vpsllvdVex256 ⟨[.ds], 0, 1, .mem (.base 0 .none)⟩) [] := by decide

/-- The prefixed rows of 2.5: the machine refuses both. -/
theorem test_decode_prefixed_refused :
    [[0x3E, 0xC4, 0xE2, 0x75, 0x47, 0x00], [0x67, 0xC4, 0xE2, 0x75, 0x47, 0x00]].map (decodeAdmitted Config.defaultParams) =
      [.notAdmitted, .notAdmitted] := by decide

/-- A legal prefix before an illegal encoding (L'L = 11): #UD, the model's choice (log 34). -/
theorem test_decode_prefixed_illegal :
    decodeAdmitted Config.defaultParams [0x3E, 0x62, 0xF2, 0x75, 0x68, 0x47, 0xC2] = .undefined .vectorLength := by decide

/-- The other rejected encodings of 2.5, in its order: #UD, then the refused ones. -/
theorem test_decode_undefined :
    [[0x66, 0xC4, 0xE2, 0x71, 0x47, 0xC2], [0xF0, 0xC4, 0xE2, 0x71, 0x47, 0xC2], [0x48, 0xC4, 0xE2, 0x71, 0x47, 0xC2],
      [0xF3, 0x62, 0xF2, 0x75, 0x48, 0x47, 0xC2], [0x62, 0xF6, 0x75, 0x48, 0x47, 0xC2], [0x62, 0xFA, 0x75, 0x48, 0x47, 0xC2],
      [0x62, 0xF2, 0x71, 0x48, 0x47, 0xC2], [0x62, 0xF2, 0x75, 0x68, 0x47, 0xC2], [0x62, 0xF2, 0x75, 0xC8, 0x47, 0xC2],
      [0x62, 0xF2, 0x75, 0x58, 0x47, 0xC2], [0x62, 0xF2, 0xF5, 0x58, 0x12, 0xC2], [0x62, 0xF2, 0xF5, 0x58, 0x12, 0x00]].map decode =
    [.undefined .illegalPrefix, .undefined .illegalPrefix, .undefined .illegalPrefix, .undefined .illegalPrefix,
      .undefined .reservedEvexBits, .undefined .reservedEvexBits, .undefined .reservedEvexBits, .undefined .vectorLength,
      .undefined .zeroingWithoutMask, .undefined .broadcastRegister, .undefined .broadcastWord, .undefined .broadcastWord] := by
  decide
theorem test_decode_not_in_family :
    [[0x62, 0xF2, 0x75, 0x48, 0x12, 0xC2], [0xC4, 0xE2, 0x70, 0x47, 0xC2], [0xC5, 0xF1, 0x47, 0xC2]].map decode =
      [.notInFamily, .notInFamily, .notInFamily] := by decide

/-- The word interface: bit 0 of the word is bit 0 of the first byte. -/
theorem test_table_word : decodeTableWord 48 0xCB12CAEDF262 = some (.vpsllvwEvex512 ⟨[], 1, 2, .reg 3, 2, true, false⟩) := by
  decide

/-! ### One step -/

def nextOf : Outcome → Option State
  | .next t => some t
  | _ => none
def faultOf : Outcome → Option Fault
  | .fault x => some x
  | _ => none
def refusalOf : Outcome → Option Refusal
  | .refused r => some r
  | _ => none

theorem of_nextOf {o : Outcome} (h : (nextOf o).isSome = true) : ∃ t, o = .next t := by
  cases o with
  | next t => exact ⟨t, rfl⟩
  | fault x => cases h
  | refused r => cases h
theorem of_faultOf {o : Outcome} {x : Fault} (h : faultOf o = some x) : o = .fault x := by
  cases o <;> simp_all [faultOf]
theorem of_refusalOf {o : Outcome} {r : Refusal} (h : refusalOf o = some r) : o = .refused r := by
  cases o <;> simp_all [refusalOf]

/-- A launch state: 64-bit mode, everything enabled, pc at 100000H. -/
def L : State := State.reset.launch.setPc 0x100000

/-- A vector from its elements, element 0 first, the rest 0. -/
def vec (w : Nat) (l : List Nat) : Zmm := ofLanes w (fun j => BitVec.ofNat w (l.getD j 0)) l.length
def rep (w n x : Nat) : Zmm := vec w (List.replicate n x)
def ones : Zmm := BitVec.allOnes 512
def withK (s : State) (n v : Nat) : State := { s with k := s.k.set! n (BitVec.ofNat 64 v) }
def withGpr (s : State) (n v : Nat) : State := { s with gpr := s.gpr.set! n (BitVec.ofNat 64 v) }
def withMem (s : State) (a : Nat) (bs : List Byte) : State := { s with mem := writeBytes s.mem (BitVec.ofNat 64 a) bs }

/-- One step over the bytes, placed at the pc. -/
def run1 (s : State) (code : List Byte) : Outcome := step (s.placeCode code)

/-- The step completes, with this destination register and a pc this much further. -/
def gives (o : Outcome) (dest : BitVec 5) (v : Zmm) (len : Nat) : Bool :=
  match o with
  | .next t => t.zmmAt dest == v && t.pc == 0x100000 + BitVec.ofNat 64 len
  | _ => false

/-- Two vectors loaded, and the old destination. -/
def three (d : BitVec 5) (old : Zmm) (a : BitVec 5) (x : Zmm) (b : BitVec 5) (y : Zmm) : State :=
  ((L.setZmm d old).setZmm a x).setZmm b y

def wInputs : State :=
  withK (three 0 (rep 16 32 0xEEEE) 1 (vec 16 [1, 0x8001, 0xFFFF, 0x1234, 0xFF, 1, 1, 0xABCD])
    2 (vec 16 [0xF, 1, 4, 8, 0x10, 0x100, 0xFFFF, 0])) 1 0xFFFFFFFFFFFFFFA5

theorem test_W2_merging : gives (run1 wInputs [0x62, 0xF2, 0xF5, 0x09, 0x12, 0xC2]) 0
    (vec 16 [0x8000, 0xEEEE, 0xFFF0, 0xEEEE, 0xEEEE, 0, 0xEEEE, 0xABCD]) 6 = true := by decide +kernel
theorem test_W3_zeroing : gives (run1 wInputs [0x62, 0xF2, 0xF5, 0x89, 0x12, 0xC2]) 0
    (vec 16 [0x8000, 0, 0xFFF0, 0, 0, 0, 0, 0xABCD]) 6 = true := by decide +kernel
theorem test_W4 : gives (run1 (withK (three 1 (rep 16 32 0xBBBB) 2 (vec 16 (List.replicate 16 1 ++ List.replicate 16 0x7777))
      3 (vec 16 ([0xF, 1, 2, 3, 4, 5, 6, 7, 8, 9, 10, 11, 12, 13, 14, 3] ++ List.replicate 16 1))) 3 0xFFFFFFFFFFFF8001)
      [0x62, 0xF2, 0xED, 0x2B, 0x12, 0xCB]) 1 (vec 16 ([0x8000] ++ List.replicate 14 0xBBBB ++ [8])) 6 = true := by
  decide +kernel
theorem test_W6_memory : gives (run1 (withK (withGpr (withMem ((L.setZmm 2 (rep 16 32 0xFF)).setZmm 1 ones) 0x200200
      ([4, 0] ++ List.replicate 60 0xFF ++ [8, 0])) 0 0x200200) 2 0x80000001) [0x62, 0xF2, 0xED, 0xCA, 0x12, 0x08]) 1
    (vec 16 ([0x0FF0] ++ List.replicate 30 0 ++ [0xFF00])) 6 = true := by decide +kernel
theorem test_D1 : gives (run1 (three 0 ones 1 (vec 32 [1, 0x80000001, 0xFFFFFFFF, 0x12345678]) 2 (vec 32 [0, 1, 0x1F, 0x20]))
    [0xC4, 0xE2, 0x71, 0x47, 0xC2]) 0 (vec 32 [1, 2, 0x80000000, 0]) 5 = true := by decide +kernel
theorem test_D2_counts_not_masked :
    gives (run1 (three 0 ones 1 (vec 32 [1, 0x80000001, 0xFFFFFFFF, 0x12345678]) 2 (vec 32 [0x21, 0x100, 0x80000000, 0xFFFFFFFF]))
      [0xC4, 0xE2, 0x71, 0x47, 0xC2]) 0 0 5 = true := by decide +kernel
theorem test_D4_one_register :
    gives (run1 (L.setZmm 0 (vec 32 [0, 1, 2, 3, 5, 0x1F, 0x20, 0xFFFFFFFF])) [0xC4, 0xE2, 0x7D, 0x47, 0xC0]) 0
      (vec 32 [0, 2, 8, 0x18, 0xA0, 0x80000000, 0, 0]) 5 = true := by decide +kernel
theorem test_D9_register16 :
    gives (run1 (three 16 ones 1 (rep 32 4 1) 2 (vec 32 [0x1F, 0x20, 0xFFFFFFFF, 3])) [0x62, 0xE2, 0x75, 0x08, 0x47, 0xC2]) 16
      (vec 32 [0x80000000, 0, 0, 8]) 6 = true := by decide +kernel
theorem test_D8_all_masked :
    gives (run1 (withK (L.setZmm 1 (vec 32 ((List.range 16).map (0xC0DE0000 + ·)))) 1 0xFFFFFFFFFFFFFF00)
      [0x62, 0xF2, 0x6D, 0x29, 0x47, 0xCB]) 1 (vec 32 ((List.range 8).map (0xC0DE0000 + ·))) 6 = true := by decide +kernel
theorem test_D5_broadcast :
    gives (run1 (withK (withGpr (withMem ((L.setZmm 1 (vec 32 ((List.range 16).map fun j => 0x01010101 * (j + 1)))).setZmm 0
        (rep 32 16 0xEEEEEEEE)) 0x200200 [4]) 0 0x200200) 3 0xFF) [0x62, 0xF2, 0x75, 0x5B, 0x47, 0x00]) 0
      (vec 32 ((List.range 8).map (fun j => 0x10101010 * (j + 1)) ++ List.replicate 8 0xEEEEEEEE)) 6 = true := by decide +kernel
theorem test_Q1 : gives (run1 (three 0 ones 1 (vec 64 [0x0123456789ABCDEF, 0x8000000000000001]) 2 (vec 64 [0x3F, 0x40]))
    [0xC4, 0xE2, 0xF1, 0x47, 0xC2]) 0 (vec 64 [0x8000000000000000]) 5 = true := by decide +kernel
theorem test_Q3 : gives (run1 (three 0 ones 1 (vec 64 [1, 0xFFFFFFFFFFFFFFFF, 0xFFFFFFFF, 0xDEADBEEFCAFEBABE])
    2 (vec 64 [0, 1, 0x20, 0x8000000000000000])) [0xC4, 0xE2, 0xF5, 0x47, 0xC2]) 0
    (vec 64 [1, 0xFFFFFFFFFFFFFFFE, 0xFFFFFFFF00000000, 0]) 5 = true := by decide +kernel
theorem test_Q6_high_registers :
    gives (run1 (three 20 ones 21 (vec 64 [0xFFFFFFFF, 3] ||| (1#512 <<< 300)) 22 (vec 64 [0x20, 0x3E] ||| (1#512 <<< 400)))
      [0x62, 0xA2, 0xD5, 0x00, 0x47, 0xE6]) 20 (vec 64 [0xFFFFFFFF00000000, 0xC000000000000000]) 6 = true := by decide +kernel
theorem test_Q4_broadcast :
    gives (run1 (withK (withGpr (withMem ((L.setZmm 1 (vec 64 [0x1111111111111111, 0x2222222222222222, 0x3333333333333333,
        0x4444444444444444])).setZmm 0 ones) 0x200200 [0x3C]) 0 0x200200) 7 5) [0x62, 0xF2, 0xF5, 0xBF, 0x47, 0x00]) 0
      (vec 64 [0x1000000000000000, 0, 0x3000000000000000, 0]) 6 = true := by decide +kernel
theorem test_Q5_dest_is_source :
    gives (run1 (withK ((L.setZmm 0 (vec 64 ((List.range 8).map (0xFF + ·)))).setZmm 2 (vec 64 [1, 2, 3, 4, 8, 0x10, 0x3F, 0x40]))
      1 0xF0) [0x62, 0xF2, 0xFD, 0x49, 0x47, 0xC2]) 0
      (vec 64 [0xFF, 0x100, 0x101, 0x102, 0x10300, 0x1040000, 0x8000000000000000, 0]) 6 = true := by decide +kernel

/-! ### Faults: F-1 to F-9 -/

def fInputs (k : Nat) : State :=
  withK (withGpr { (withMem ((L.setZmm 2 (rep 32 16 0x01010101)).setZmm 1 (rep 32 16 0x99999999)) 0x200FE0
      ((List.range 32).map fun n => if n % 4 = 0 then BitVec.ofNat 8 (n / 4) else 0)) with
    denials := [⟨0x201000, 0x1000, .read, 0, false, false, false, false⟩] } 2 0x200FE0) 1 k

theorem test_F1 : gives (run1 (fInputs 0xFF) [0x62, 0xF2, 0x6D, 0x49, 0x47, 0x0A]) 1
    (vec 32 ((List.range 8).map (fun j => 0x01010101 <<< j) ++ List.replicate 8 0x99999999)) 6 = true := by decide +kernel
theorem test_F2 : faultOf (run1 (fInputs 0x1FF) [0x62, 0xF2, 0x6D, 0x49, 0x47, 0x0A]) = some (.pageFault 0 0x201000) := by
  decide +kernel
theorem test_F3 : faultOf (run1 (fInputs 0xFE00) [0x62, 0xF2, 0x6D, 0x49, 0x47, 0x0A]) = some (.pageFault 0 0x201004) := by
  decide +kernel
theorem test_F6 : faultOf (run1 (withGpr L 1 0x0000800000000000) [0xC4, 0xE2, 0xFD, 0x47, 0x19]) = some .generalProtection := by
  decide +kernel
theorem test_F7 : faultOf (run1 (withGpr L 5 0x0000800000000000) [0xC4, 0xE2, 0xE5, 0x47, 0x55, 0x10]) = some .stackSegment := by
  decide +kernel
theorem test_F8 : (nextOf (run1 (withGpr (fInputs 0) 0 0x201000) [0x62, 0xF2, 0x75, 0x59, 0x47, 0x00])).isSome = true := by
  decide +kernel
theorem test_F9 : faultOf (run1 (withGpr (fInputs 1) 0 0x201000) [0x62, 0xF2, 0x75, 0x59, 0x47, 0x00]) =
    some (.pageFault 0 0x201000) := by decide +kernel

/-- The address-size row of 2.5: refused, and with the model's own parameter run with the 32-bit address of R44 (the row's "host:
executes with a 32-bit effective address"). -/
theorem test_addr32_refused : refusalOf (run1 (withGpr L 0 0x100200300) [0x67, 0xC4, 0xE2, 0x75, 0x47, 0x00]) = some .legacyPrefix := by
  decide +kernel
theorem test_addr32_admitted :
    gives (run1 (withMem (withGpr { L.setZmm 1 (rep 32 8 3) with params := { L.params with legacyPrefixes := true } } 0 0x100200300)
      0x200300 [4]) [0x67, 0xC4, 0xE2, 0x75, 0x47, 0x00]) 0 (vec 32 ([48] ++ List.replicate 7 3)) 6 = true := by decide +kernel

/-- The word interface runs the table's word as the first instruction. -/
theorem test_withFetchWord : (nextOf (step (State.reset.withFetchWord 48 0xCB12CAEDF262))).isSome = true := by decide +kernel

/-! ### Addresses: 95_test_vectors.md 2.6 -/

def addressOf (s : State) (bs : List Byte) : Option Addr :=
  match decode bs with
  | .ok i _ =>
    match (operandsOf i).count with
    | .mem m => some (linearAddress i.form (operandsOf i) m s)
    | .reg _ => none
  | _ => none

theorem test_address_scaled_index :
    addressOf (withGpr (withGpr L 9 0x200300) 10 0x10) [0xC4, 0x02, 0x09, 0x47, 0x7C, 0xD1, 0x80] = some 0x200300 := by decide +kernel
theorem test_address_disp8_scaled :
    addressOf (withGpr L 0 0x200340) [0x62, 0xF2, 0xED, 0x48, 0x12, 0x48, 0xFF] = some 0x200300 := by decide +kernel
theorem test_address_broadcast_disp8 :
    addressOf (withGpr L 0 0x200104) [0x62, 0xF2, 0x6D, 0x38, 0x47, 0x48, 0x7F] = some 0x200300 := by decide +kernel
theorem test_address_rip :
    addressOf (L.setPc 0x100013) [0x62, 0xF2, 0xC5, 0x48, 0x47, 0x35, 0xE3, 0x0F, 0x00, 0x00] = some 0x101000 := by decide +kernel

/-! ### Witnesses: states and operands that meet the hypotheses of the statements -/

theorem L_available (f : Form) : Available f L := by
  refine ⟨⟨by decide, by decide, by decide, rfl⟩, ⟨by decide, ⟨by decide, by decide⟩, fun _ => ⟨by decide, by decide, by decide⟩, ?_⟩,
    by decide⟩
  obtain ⟨_ | _, e, v⟩ := f <;> cases e <;> cases v <;> rfl

theorem ordinary_of_no_devices {s : State} {a : Addr} (h : s.devices = []) : Ordinary s a := by
  intro r hr
  simp [h] at hr

theorem granted_of_no_denials {s : State} {k : AccessKind} {a : Addr} (h : s.denials = []) : ¬ Denied s k a := by
  rintro ⟨_, d, hd, _⟩
  simp [h] at hd

/-- A memory operand is readable where nothing is denied, no device lies, and alignment checking is off. -/
theorem plain_readable {f : Form} {o : Operands} {s : State} {la : Addr} (hd : s.denials = []) (hv : s.devices = [])
    (ha : s.alignmentCheckActive = false) (hc : ∀ k < countBytes f o.b, canonical s.params (byteAddr la k) = true) :
    Readable f o s la := by
  refine ⟨fun k hk _ => (canonical_iff _ _).1 (hc k hk), fun _ _ => ordinary_of_no_devices hv,
    fun _ _ _ => granted_of_no_denials hd, fun h => ?_⟩
  rw [(alignmentCheckActive_iff s).2 h] at ha
  cases ha

theorem plain_fetchable {s : State} {a : Addr} (hd : s.denials = []) (hv : s.devices = []) (hc : canonical s.params a = true) :
    Fetchable s a :=
  ⟨(canonical_iff _ _).1 hc, ordinary_of_no_devices hv, granted_of_no_denials hd⟩

def vexRegs : VexArgs := ⟨[], 0, 1, .reg 2⟩
def vexMem : VexArgs := ⟨[.ds], 3, 4, .mem (.base 0 .none)⟩
def evexMem : EvexArgs := ⟨[], 1, 2, .mem (.base 0 (.d8 0xFF)), 2, true, false⟩
def evexBcst : EvexArgs := ⟨[], 1, 2, .mem (.base 0 (.d8 1)), 3, false, true⟩

theorem witness_DecodeInvertsEncode : (Instr.vpsllvqEvex256 evexBcst).wf = true := by decide
theorem witness_DecodedTermsAreWellFormed :
    decode [0x65, 0x67, 0x26, 0x2E, 0xC4, 0xE2, 0x6D, 0x47, 0x0C, 0x25, 0x78, 0x56, 0x34, 0x12, 0x90] =
        .ok (.vpsllvdVex256 ⟨[.gs, .addr32, .es, .cs], 1, 2, .mem (.sibNoBase 0 4 0x12345678)⟩) [0x90] ∧
      [0x65, 0x67, 0x26, 0x2E, 0xC4, 0xE2, 0x6D, 0x47, 0x0C, 0x25, 0x78, 0x56, 0x34, 0x12, (0x90 : Byte)].length ≤ 15 := by decide
theorem witness_DecodeConsumesLength :
    decode [0xC4, 0xE2, 0xD9, 0x47, 0x18, 0x01] = .ok (.vpsllvqVex128 ⟨[], 3, 4, .mem (.base 0 .none)⟩) [0x01] := by decide
theorem witness_VexRowsSelectForms : ∃ row ∈ vexRows,
    (0xC4#8 ++ 0xE2#8 ++ 0xF1#8 ++ 0x47#8 ++ 0xC2#8) &&& 0xFF1F87FF00#40 = row.2 ∧ 5 ≤ [0, 0, 0, 0, (0 : Byte)].length :=
  ⟨(⟨false, .qword, .v128⟩, 0xC402814700#40), by decide⟩
theorem witness_EvexRowsSelectForms : ∃ row ∈ evexRows,
    (0x62#8 ++ 0x72#8 ++ 0x1D#8 ++ 0xDA#8 ++ 0x47#8 ++ 0x1E#8) &&& 0xFF0F8760FF00#48 = row.2 ∧
      5 ≤ [0, 0, 0, 0, (0 : Byte)].length :=
  ⟨(⟨true, .dword, .v512⟩, 0x620205404700#48), by decide⟩
theorem witness_IllegalEvexFieldsRejected_reserved :
    (0xF6#8).extractLsb' 2 2 ≠ 0#2 ∧ (0x71#8).getLsbD 2 = false := by decide
theorem witness_IllegalEvexFieldsRejected_family :
    (0xF2#8).extractLsb' 0 4 = 2#4 ∧ (0xF5#8).extractLsb' 0 3 = 5#3 ∧ (0xF5#8).getLsbD 7 = true ∧
      (0x68#8).extractLsb' 5 2 = 3#2 ∧ ((0xC8#8).getLsbD 7 = true ∧ (0xC8#8).extractLsb' 0 3 = 0#3) ∧
      ((0x58#8).getLsbD 4 = true ∧ (0xC2#8).extractLsb' 6 2 = 3#2) := by decide
theorem witness_IllegalPrefixesRejected :
    (∀ b ∈ [0x3E#8, 0x4F#8], IllegalPrefixByte b ∨ LegalPrefixByte b) ∧ (∃ b ∈ [0x3E#8, 0x4F#8], IllegalPrefixByte b) ∧
      (∃ tail, [0xC4, 0xE2, 0x71, 0x47, 0xC2] = 0xC4#8 :: tail ∨ [0xC4, 0xE2, 0x71, 0x47, 0xC2] = 0x62#8 :: tail) ∧
      decode [0xC4, 0xE2, 0x71, 0x47, 0xC2] ≠ .truncated := by
  refine ⟨?_, ?_, ⟨_, .inl rfl⟩, by decide⟩ <;> simp [IllegalPrefixByte, LegalPrefixByte]
theorem witness_TwoByteVexNeverDecodes : ∃ i rest a, decode [0x64, 0xC4, 0xE2, 0x71, 0x47, 0xC2] = .ok i rest ∧ i.args = .vex a :=
  ⟨.vpsllvdVex128 ⟨[.fs], 0, 1, .reg 2⟩, [], _, by decide, rfl⟩

/-- The launch state with bytes at the pc. -/
def code (bs : List Byte) : State := withMem L 0x100000 bs

theorem code_mode (bs : List Byte) : Mode64 (code bs) :=
  have h := (L_available ⟨true, .word, .v128⟩).1
  ⟨h.1, h.2, h.3, h.4⟩

theorem code_fetchable (bs : List Byte) {n : Nat} (hn : n ≤ 15) :
    ∀ k < n, Fetchable (code bs) ((code bs).pc + BitVec.ofNat 64 k) := by
  intro k hk
  refine plain_fetchable rfl rfl ?_
  have h : ∀ k < 15, canonical L.params (L.pc + BitVec.ofNat 64 k) = true := by decide
  exact h k (by omega)

theorem witness_NeighbourEncodingsRefused : ∃ s n, Mode64 s ∧ s.pendingDebug = false ∧ n ≤ 15 ∧
    (∀ k < n, Fetchable s (s.pc + BitVec.ofNat 64 k)) ∧ decode (bytesAtPc s n) = .notInFamily :=
  ⟨code [0x62, 0xF2, 0x75, 0x48, 0x12, 0xC2], 5, code_mode _, rfl, by decide, code_fetchable _ (by decide), by decide +kernel⟩
theorem witness_NeighbourEncodingsRefused_fields :
    ((0xF2#8).extractLsb' 0 4 = 2#4 ∧ (0x75#8).getLsbD 2 = true ∧ (0x75#8).getLsbD 7 = false ∧ (0x75#8).extractLsb' 0 2 = 1#2 ∧
      (0x74#8).getLsbD 2 = true ∧ (0x74#8).extractLsb' 0 2 ≠ 1#2) ∧
    ((0xE2#8).extractLsb' 0 5 = 2#5 ∧ (0xF1#8).getLsbD 7 = true ∧ (0xF1#8).extractLsb' 0 2 = 1#2 ∧
      (0x70#8).extractLsb' 0 2 ≠ 1#2) := by decide
theorem witness_StepRunsDecodedInstruction : ∃ s i rest n, Mode64 s ∧ s.pendingDebug = false ∧ n ≤ 15 ∧
    (∀ k < n, Fetchable s (s.pc + BitVec.ofNat 64 k)) ∧ decode (bytesAtPc s n) = .ok i rest ∧ Admitted i s :=
  ⟨code [0xC4, 0xE2, 0x71, 0x47, 0xC2], .vpsllvdVex128 vexRegs, [], 5, code_mode _, rfl, by decide, code_fetchable _ (by decide),
    by decide +kernel, .inl rfl⟩
theorem witness_StepRunsDecodedInstruction_refused : ∃ s i rest n, Mode64 s ∧ s.pendingDebug = false ∧ n ≤ 15 ∧
    (∀ k < n, Fetchable s (s.pc + BitVec.ofNat 64 k)) ∧ decode (bytesAtPc s n) = .ok i rest ∧ ¬ Admitted i s :=
  ⟨code [0x3E, 0xC4, 0xE2, 0x75, 0x47, 0x00], .vpsllvdVex256 ⟨[.ds], 0, 1, .mem (.base 0 .none)⟩, [], 6, code_mode _, rfl, by decide,
    code_fetchable _ (by decide), by decide +kernel, fun h => by rcases h with h | h <;> cases h⟩
theorem witness_StepStopsOnUndecodableBytes_undefined : ∃ s n why, Mode64 s ∧ s.pendingDebug = false ∧ n ≤ 15 ∧
    (∀ k < n, Fetchable s (s.pc + BitVec.ofNat 64 k)) ∧ decode (bytesAtPc s n) = .undefined why :=
  ⟨code [0x66, 0xC4, 0xE2, 0x71, 0x47, 0xC2], 6, .illegalPrefix, code_mode _, rfl, by decide, code_fetchable _ (by decide),
    by decide +kernel⟩
theorem witness_StepStopsOnUndecodableBytes_too_long : ∃ s, Mode64 s ∧ s.pendingDebug = false ∧
    (∀ k < 15, Fetchable s (s.pc + BitVec.ofNat 64 k)) ∧ decode (bytesAtPc s 15) = .truncated :=
  ⟨code (List.replicate 11 0x3E ++ [0xC4, 0xE2, 0x71, 0x47, 0xC2]), code_mode _, rfl, code_fetchable _ (by decide),
    by decide +kernel⟩
theorem witness_StepRunsEncodedBytes : ∃ s, ∃ i : Instr, Mode64 s ∧ s.pendingDebug = false ∧ i.wf = true ∧
    (∀ k < i.length, Fetchable s (s.pc + BitVec.ofNat 64 k)) ∧ bytesAtPc s i.length = encode i ∧ Admitted i s :=
  ⟨code (encode (.vpsllvwEvex512 evexMem)), .vpsllvwEvex512 evexMem, code_mode _, rfl, by decide, code_fetchable _ (by decide),
    by decide +kernel, .inl rfl⟩
theorem witness_StepRunsEncodedBytes_refused : ∃ s, ∃ i : Instr, Mode64 s ∧ s.pendingDebug = false ∧ i.wf = true ∧
    (∀ k < i.length, Fetchable s (s.pc + BitVec.ofNat 64 k)) ∧ bytesAtPc s i.length = encode i ∧ ¬ Admitted i s :=
  ⟨code (encode (.vpsllvqVex128 vexMem)), .vpsllvqVex128 vexMem, code_mode _, rfl, by decide, code_fetchable _ (by decide),
    by decide +kernel, fun h => by rcases h with h | h <;> cases h⟩

/-- The state with the model's own parameter that admits legacy prefixes (log 8). -/
def admitting (s : State) : State := { s with params := { s.params with legacyPrefixes := true } }

/-- Two prefix bytes before a whole form; the machine of the default parameters and the one that admits prefixes. -/
theorem witness_LegacyPrefixesRefused : ∀ s ∈ [code [0x64, 0x67, 0xC4, 0xE2, 0x75, 0x47, 0x00],
      admitting (code [0x64, 0x67, 0xC4, 0xE2, 0x75, 0x47, 0x00])],
    Mode64 s ∧ s.pendingDebug = false ∧ (∀ k < 7, Fetchable s (s.pc + BitVec.ofNat 64 k)) ∧
      bytesAtPc s 7 = [0x64, 0x67] ++ [0xC4, 0xE2, 0x75, 0x47, 0x00] ∧ (∀ b ∈ [0x64#8, 0x67#8], LegalPrefixByte b) ∧
      decode [0xC4, 0xE2, 0x75, 0x47, 0x00] = .ok (.vpsllvdVex256 ⟨[], 0, 1, .mem (.base 0 .none)⟩) [] := by
  have hb : ∀ b ∈ [0x64#8, 0x67#8], LegalPrefixByte b := by simp [LegalPrefixByte]
  have hd : decode [0xC4, 0xE2, 0x75, 0x47, 0x00] = .ok (.vpsllvdVex256 ⟨[], 0, 1, .mem (.base 0 .none)⟩) [] := by decide
  intro s hs
  simp only [List.mem_cons, List.not_mem_nil, or_false] at hs
  obtain rfl | rfl := hs
  · exact ⟨code_mode _, rfl, code_fetchable _ (by decide), by decide +kernel, hb, hd⟩
  · have hm := code_mode [0x64, 0x67, 0xC4, 0xE2, 0x75, 0x47, 0x00]
    have hf := code_fetchable [0x64, 0x67, 0xC4, 0xE2, 0x75, 0x47, 0x00] (n := 7) (by decide)
    exact ⟨⟨hm.1, hm.2, hm.3, hm.4⟩, rfl, fun k hk => ⟨(hf k hk).1, (hf k hk).2, (hf k hk).3⟩, by decide +kernel, hb, hd⟩

/-- The pc three bytes below the first non-canonical address. -/
def atEdge : State := L.setPc 0x00007FFFFFFFFFFD

theorem witness_FetchFaultsStopTheStep_noncanonical : ∃ s k, Mode64 s ∧ s.pendingDebug = false ∧ k < 15 ∧
    (∀ j < k, Fetchable s (s.pc + BitVec.ofNat 64 j)) ∧ decode (bytesAtPc s k) = .truncated ∧
    ¬ CanonicalAddr s.params (s.pc + BitVec.ofNat 64 k) := by
  refine ⟨withMem atEdge 0x00007FFFFFFFFFFD [0xC4, 0xE2, 0x71], 3, ⟨by rfl, by rfl, by rfl, by rfl⟩, rfl, by decide, fun j hj => ?_,
    by decide +kernel, ?_⟩
  · refine plain_fetchable rfl rfl ?_
    have h : ∀ j < 3, canonical atEdge.params (atEdge.pc + BitVec.ofNat 64 j) = true := by decide
    exact h j hj
  · rw [← canonical_iff]
    decide +kernel
/-- The page of the pc denied to a fetch, and a device at the pc. -/
def fetchDenied : State := { L with denials := [⟨0x100000, 0x1000, .fetch, 0, true, false, false, true⟩] }
def fetchDevice : State := { L with devices := [⟨0x100000, 1⟩] }

theorem witness_FetchFaultsStopTheStep_denied : Mode64 fetchDenied ∧ fetchDenied.pendingDebug = false ∧
    decode (bytesAtPc fetchDenied 0) = .truncated ∧ CanonicalAddr fetchDenied.params (fetchDenied.pc + BitVec.ofNat 64 0) ∧
    Ordinary fetchDenied (fetchDenied.pc + BitVec.ofNat 64 0) ∧ Denied fetchDenied .fetch (fetchDenied.pc + BitVec.ofNat 64 0) := by
  refine ⟨⟨by decide, by decide, by decide, rfl⟩, rfl, by decide, ?_, ?_, by decide, _, List.mem_singleton_self _, rfl, rfl, ?_⟩
  · rw [← canonical_iff]
    decide +kernel
  · intro r hr
    cases hr
  · exact ⟨by decide, by decide⟩
theorem witness_FetchFaultsStopTheStep_device : Mode64 fetchDevice ∧ fetchDevice.pendingDebug = false ∧
    decode (bytesAtPc fetchDevice 0) = .truncated ∧ CanonicalAddr fetchDevice.params (fetchDevice.pc + BitVec.ofNat 64 0) ∧
    ¬ Ordinary fetchDevice (fetchDevice.pc + BitVec.ofNat 64 0) := by
  refine ⟨⟨by decide, by decide, by decide, rfl⟩, rfl, by decide, ?_, ?_⟩
  · rw [← canonical_iff]
    decide +kernel
  · rw [← isDevice_iff]
    decide +kernel
theorem witness_PendingDebugTrapComesFirst : (L.markTrap true).pendingDebug = true := rfl
theorem witness_SingleStepTrapFollows_set : ∃ s t, step s = .next t ∧ s.rflags.getLsbD 8 = true := by
  obtain ⟨t, h⟩ := of_nextOf (o := step { code [0xC4, 0xE2, 0x71, 0x47, 0xC2] with rflags := 0x102#64 }) (by decide +kernel)
  exact ⟨_, t, h, rfl⟩
theorem witness_SingleStepTrapFollows_clear : ∃ s t, step s = .next t ∧ s.rflags.getLsbD 8 = false := by
  obtain ⟨t, h⟩ := of_nextOf (o := step (code [0xC4, 0xE2, 0x71, 0x47, 0xC2])) (by decide +kernel)
  exact ⟨_, t, h, rfl⟩
theorem witness_ShiftOfElement : Elem.word.bits - 1 < (16#16).toNat ∧ (15#16).toNat ≤ Elem.word.bits - 1 := by decide
theorem witness_ShiftLaws : (65534#16).toNat + (1#16).toNat < 2 ^ Elem.word.bits := by decide
theorem witness_LoadIsLittleEndian : (7 + 1) * (Elem.qword.bits / 8) ≤ 64 ∧ 64 ≤ 64 := by decide
theorem witness_LinearAddressOfOperand :
    LegalFields (Instr.vpsllvqEvex256 evexBcst).form (operandsOf (.vpsllvqEvex256 evexBcst)) ∧
      (operandsOf (.vpsllvqEvex256 evexBcst)).count = .mem (.base 0 (.d8 1)) :=
  ⟨⟨by decide, fun _ => ⟨by decide, _, rfl⟩⟩, rfl⟩
/-- The prefixes of each clause of LinearAddressOfOperand. -/
theorem witness_LinearAddressOfOperand_overrides :
    (LegacyPrefix.fs ∈ [LegacyPrefix.fs] ∧ LegacyPrefix.gs ∉ [LegacyPrefix.fs]) ∧
      (LegacyPrefix.gs ∈ [LegacyPrefix.gs] ∧ LegacyPrefix.fs ∉ [LegacyPrefix.gs]) ∧
      (LegacyPrefix.fs ∈ [LegacyPrefix.gs, .fs] ∧ LegacyPrefix.gs ∈ [LegacyPrefix.gs, .fs]) ∧
      (LegacyPrefix.fs ∉ [LegacyPrefix.ds] ∧ LegacyPrefix.gs ∉ [LegacyPrefix.ds]) := by decide
theorem witness_RipRelativeAddress :
    ((0x35#8).extractLsb' 6 2 = 0#2 ∧ (0x35#8).extractLsb' 0 3 = 5#3) ∧
      (operandsOf (.vpsllvqEvex512 ⟨[], 6, 7, .mem (.rip 0x100), 0, false, false⟩)).count = .mem (.rip 0x100) ∧
      (operandsOf (.vpsllvqEvex512 ⟨[], 6, 7, .mem (.rip 0x100), 0, false, false⟩)).prefixes = [] := ⟨by decide, rfl, rfl⟩

theorem evexMem_readable (i : Instr) (h : i.args = .evex evexMem) : CountReadable i.form (operandsOf i) (withGpr L 0 0x200000) := by
  have ho : (operandsOf i).count = .mem (.base 0 (.d8 0xFF)) ∧ (operandsOf i).b = false ∧ (operandsOf i).prefixes = [] := by
    unfold operandsOf
    rw [h]
    exact ⟨rfl, rfl, rfl⟩
  simp only [CountReadable, ho.1]
  refine plain_readable rfl rfl (by decide) fun k hk => ?_
  cases i <;> simp only [Instr.args] at h <;> cases h <;> revert k <;> decide +kernel

theorem evexMem_legal (i : Instr) (h : i.args = .evex evexMem) : LegalFields i.form (operandsOf i) := by
  unfold operandsOf
  rw [h]
  exact ⟨by decide, fun hb => by cases hb⟩

theorem witness_VpsllvwFormsComplete : ∀ i ∈ [Instr.vpsllvwEvex128 evexMem, .vpsllvwEvex256 evexMem, .vpsllvwEvex512 evexMem],
    Available i.form (withGpr L 0 0x200000) ∧ LegalFields i.form (operandsOf i) ∧
      CountReadable i.form (operandsOf i) (withGpr L 0 0x200000) := by
  intro i hi
  have h : i.args = .evex evexMem := by
    simp only [List.mem_cons, List.not_mem_nil, or_false] at hi
    obtain rfl | rfl | rfl := hi <;> rfl
  have ha := L_available i.form
  exact ⟨⟨⟨ha.1.1, ha.1.2, ha.1.3, ha.1.4⟩, ⟨ha.2.1, ha.2.2, ha.2.3, ha.2.4⟩, ha.3⟩, evexMem_legal i h, evexMem_readable i h⟩
theorem witness_VpsllvdEvexFormsComplete : ∀ i ∈ [Instr.vpsllvdEvex128 evexMem, .vpsllvdEvex256 evexMem, .vpsllvdEvex512 evexMem],
    Available i.form (withGpr L 0 0x200000) ∧ LegalFields i.form (operandsOf i) ∧
      CountReadable i.form (operandsOf i) (withGpr L 0 0x200000) := by
  intro i hi
  have h : i.args = .evex evexMem := by
    simp only [List.mem_cons, List.not_mem_nil, or_false] at hi
    obtain rfl | rfl | rfl := hi <;> rfl
  have ha := L_available i.form
  exact ⟨⟨⟨ha.1.1, ha.1.2, ha.1.3, ha.1.4⟩, ⟨ha.2.1, ha.2.2, ha.2.3, ha.2.4⟩, ha.3⟩, evexMem_legal i h, evexMem_readable i h⟩
theorem witness_VpsllvqEvexFormsComplete : ∀ i ∈ [Instr.vpsllvqEvex128 evexMem, .vpsllvqEvex256 evexMem, .vpsllvqEvex512 evexMem],
    Available i.form (withGpr L 0 0x200000) ∧ LegalFields i.form (operandsOf i) ∧
      CountReadable i.form (operandsOf i) (withGpr L 0 0x200000) := by
  intro i hi
  have h : i.args = .evex evexMem := by
    simp only [List.mem_cons, List.not_mem_nil, or_false] at hi
    obtain rfl | rfl | rfl := hi <;> rfl
  have ha := L_available i.form
  exact ⟨⟨⟨ha.1.1, ha.1.2, ha.1.3, ha.1.4⟩, ⟨ha.2.1, ha.2.2, ha.2.3, ha.2.4⟩, ha.3⟩, evexMem_legal i h, evexMem_readable i h⟩
theorem witness_VpsllvdVexFormsComplete :
    (Available (Instr.vpsllvdVex128 vexRegs).form L ∧
      CountReadable (Instr.vpsllvdVex128 vexRegs).form (operandsOf (.vpsllvdVex128 vexRegs)) L) ∧
    (Available (Instr.vpsllvdVex256 vexMem).form L ∧
      CountReadable (Instr.vpsllvdVex256 vexMem).form (operandsOf (.vpsllvdVex256 vexMem)) L) :=
  ⟨⟨L_available _, trivial⟩, L_available _, plain_readable rfl rfl (by decide) (by decide +kernel)⟩
theorem witness_VpsllvqVexFormsComplete :
    (Available (Instr.vpsllvqVex128 vexMem).form L ∧
      CountReadable (Instr.vpsllvqVex128 vexMem).form (operandsOf (.vpsllvqVex128 vexMem)) L) ∧
    (Available (Instr.vpsllvqVex256 vexRegs).form L ∧
      CountReadable (Instr.vpsllvqVex256 vexRegs).form (operandsOf (.vpsllvqVex256 vexRegs)) L) :=
  ⟨⟨L_available _, plain_readable rfl rfl (by decide) (by decide +kernel)⟩, L_available _, trivial⟩

/-- A completing instruction with a memory operand, masked and zeroing: CompletionNeedsEveryCheck, EveryCompletionWritesTheResult,
MaskedOffElements, ExecFrame. -/
theorem witness_completion : ∃ t, exec (.vpsllvwEvex512 evexMem) (withGpr L 0 0x200000) = .next t :=
  of_nextOf (by decide +kernel)
/-- An element whose mask bit is 0 (MaskedOffElements), under zeroing, and one under merging. -/
theorem witness_MaskedOffElements :
    ((operandsOf (.vpsllvwEvex512 evexMem)).aaa ≠ 0#3 ∧ (L.kAt (operandsOf (.vpsllvwEvex512 evexMem)).aaa).getLsbD 31 = false ∧
      31 < (Instr.vpsllvwEvex512 evexMem).form.lanes ∧ (operandsOf (.vpsllvwEvex512 evexMem)).z = true) ∧
    (operandsOf (.vpsllvqEvex256 evexBcst)).z = false := by decide
theorem witness_StepFrame : ∃ t, step (code [0x62, 0xF2, 0xED, 0xCA, 0x12, 0xCB]) = .next t := of_nextOf (by decide +kernel)

/-- Alignment checking active at CPL 3, a broadcast operand at an odd address, element 0 enabled. -/
def alignState : State :=
  withK (withGpr { L with cr0 := L.cr0 ||| 0x40000#64, rflags := L.rflags ||| 0x40000#64, cpl := 3#2 } 0 0x200001) 3 1

theorem witness_AlignmentCheckIsOpen :
    Available (Instr.vpsllvqEvex256 evexBcst).form alignState ∧
      LegalFields (Instr.vpsllvqEvex256 evexBcst).form (operandsOf (.vpsllvqEvex256 evexBcst)) ∧
      AlignmentChecked alignState ∧ (operandsOf (.vpsllvqEvex256 evexBcst)).b = true ∧
      (∃ j < (Instr.vpsllvqEvex256 evexBcst).form.lanes, EnabledLane (operandsOf (.vpsllvqEvex256 evexBcst)) alignState j) ∧
      (linearAddress (Instr.vpsllvqEvex256 evexBcst).form (operandsOf (.vpsllvqEvex256 evexBcst)) (.base 0 (.d8 1)) alignState).toNat %
        8 ≠ 0 ∧
      (∀ k < 8, CanonicalAddr alignState.params (linearAddress (Instr.vpsllvqEvex256 evexBcst).form
          (operandsOf (.vpsllvqEvex256 evexBcst)) (.base 0 (.d8 1)) alignState + BitVec.ofNat 64 k) ∧
        Ordinary alignState (linearAddress (Instr.vpsllvqEvex256 evexBcst).form
          (operandsOf (.vpsllvqEvex256 evexBcst)) (.base 0 (.d8 1)) alignState + BitVec.ofNat 64 k) ∧
        ¬ Denied alignState .read (linearAddress (Instr.vpsllvqEvex256 evexBcst).form
          (operandsOf (.vpsllvqEvex256 evexBcst)) (.base 0 (.d8 1)) alignState + BitVec.ofNat 64 k)) := by
  refine ⟨⟨⟨by decide, by decide, by decide, rfl⟩, ⟨by decide, ⟨by decide, by decide⟩, fun _ => ⟨by decide, by decide, by decide⟩, rfl⟩,
    by decide⟩, witness_LinearAddressOfOperand.1, ⟨by decide, by decide, rfl⟩, rfl, ⟨0, by decide, .inr (by decide +kernel)⟩,
    by decide +kernel, fun k hk => ?_⟩
  refine ⟨(canonical_iff _ _).1 ?_, ordinary_of_no_devices rfl, granted_of_no_denials rfl⟩
  revert k
  decide +kernel

theorem witness_Mode64 : Mode64 L ∧ Enabled64 (Instr.vpsllvdVex128 vexRegs).form L := ⟨(L_available ⟨true, .word, .v128⟩).1, (L_available _).2⟩
theorem witness_RealAndVirtual8086Fault :
    State.reset.cr0.getLsbD 0 = false ∧ ({ L with rflags := 0x20002#64 } : State).rflags.getLsbD 17 = true := by decide
theorem witness_OtherModesRefused :
    L.cr0.getLsbD 0 = true ∧ L.rflags.getLsbD 17 = false ∧ ({ L with efer := 0 } : State).efer.getLsbD 10 = false ∧
      ({ L with csL := false } : State).csL = false := by decide
theorem witness_MissingFeatureFaults :
    Mode64 { L with params := ⟨⟨false, true, true, true⟩, false, false⟩ } ∧
      requiredFlags (Instr.vpsllvdVex128 vexRegs).form (⟨false, true, true, true⟩ : Features) = false :=
  ⟨⟨by decide, by decide, by decide, rfl⟩, rfl⟩
theorem witness_TaskSwitchedFaults :
    Mode64 { L with cr0 := L.cr0 ||| 8#64 } ∧ (L.cr0 ||| 8#64).getLsbD 3 = true ∧
      Enabled64 (Instr.vpsllvdVex128 vexRegs).form { L with cr0 := L.cr0 ||| 8#64 } ∧
      LegalFields (Instr.vpsllvdVex128 vexRegs).form (operandsOf (.vpsllvdVex128 vexRegs)) := by
  have h := L_available (Instr.vpsllvdVex128 vexRegs).form
  exact ⟨⟨by decide, by decide, by decide, rfl⟩, by decide, ⟨h.2.1, h.2.2, h.2.3, h.2.4⟩, by decide, fun hb => by cases hb⟩

/-- A 16-byte operand whose last byte alone is non-canonical, with a base register and prefixes. -/
def edgeOperand (ps : List LegacyPrefix) (b : BitVec 4) : Instr := .vpsllvdVex128 ⟨ps, 3, 4, .mem (.base b (.d8 0xFF))⟩
def edgeState (b : Nat) : State := withGpr L b 0x00007FFFFFFFFFF2

/-- What NonCanonicalOperandFaults asks, but for the overrides. -/
theorem edge_meets (ps : List LegacyPrefix) (b : BitVec 4) (s : State) (hs : Available ⟨false, .dword, .v128⟩ s)
    (hc : canonical s.params (linearAddress (edgeOperand ps b).form (operandsOf (edgeOperand ps b)) (.base b (.d8 0xFF)) s +
      BitVec.ofNat 64 15) = false) :
    Available (edgeOperand ps b).form s ∧ LegalFields (edgeOperand ps b).form (operandsOf (edgeOperand ps b)) ∧
      (operandsOf (edgeOperand ps b)).count = .mem (.base b (.d8 0xFF)) ∧
      15 < countBytes (edgeOperand ps b).form (operandsOf (edgeOperand ps b)).b ∧
      AccessedByte (edgeOperand ps b).form (operandsOf (edgeOperand ps b)) s 15 ∧
      ¬ CanonicalAddr s.params (linearAddress (edgeOperand ps b).form (operandsOf (edgeOperand ps b)) (.base b (.d8 0xFF)) s +
        BitVec.ofNat 64 15) := by
  refine ⟨hs, ⟨by simp [operandsOf, edgeOperand, Instr.args, ofVex], fun h => by cases h⟩, rfl,
    (show 15 < countBytes ⟨false, .dword, .v128⟩ false by decide), ?_, ?_⟩
  · simp only [AccessedByte, operandsOf, edgeOperand, Instr.args, ofVex]
    exact .inl rfl
  · rw [← canonical_iff, hc]
    simp

theorem edge_available (b : Nat) : Available ⟨false, .dword, .v128⟩ (edgeState b) := by
  have h := L_available ⟨false, .dword, .v128⟩
  exact ⟨⟨h.1.1, h.1.2, h.1.3, h.1.4⟩, ⟨h.2.1, h.2.2, h.2.3, h.2.4⟩, h.3⟩

/-- Each clause: base RBP and base RAX without override, SS with RBP (agrees), FS, and DS with RBP (disagrees: first clause). -/
theorem witness_NonCanonicalOperandFaults :
    (∀ p ∈ [([], 5#4), ([], 0#4), ([.ss], 5#4), ([.fs], 5#4), ([.ds], 5#4)],
      canonical (edgeState p.2.toNat).params (linearAddress (edgeOperand p.1 p.2).form (operandsOf (edgeOperand p.1 p.2))
        (.base p.2 (.d8 0xFF)) (edgeState p.2.toNat) + BitVec.ofNat 64 15) = false) ∧
    Available (edgeOperand [.ss] 5).form (edgeState 5) ∧ StackBase (.base 5#4 (.d8 0xFF)) ∧ ¬ StackBase (.base 0#4 (.d8 0xFF)) :=
  ⟨by decide +kernel, edge_available 5, .inr rfl, by simp [StackBase]⟩

/-- A denied page that only the last byte of the operand lies in. -/
def denied : State := { withGpr L 0 0x200FF2 with denials := [⟨0x201000, 0x1000, .read, 0, false, true, false, false⟩] }

theorem witness_PageFaultReport :
    Available (edgeOperand [] 0).form denied ∧
      (∀ n < 16, Ordinary denied (linearAddress (edgeOperand [] 0).form (operandsOf (edgeOperand [] 0)) (.base 0 (.d8 0xFF)) denied +
          BitVec.ofNat 64 n) ∧
        CanonicalAddr denied.params (linearAddress (edgeOperand [] 0).form (operandsOf (edgeOperand [] 0)) (.base 0 (.d8 0xFF)) denied +
          BitVec.ofNat 64 n)) ∧
      Denied denied .read (linearAddress (edgeOperand [] 0).form (operandsOf (edgeOperand [] 0)) (.base 0 (.d8 0xFF)) denied +
        BitVec.ofNat 64 15) := by
  have h := edge_available 0
  refine ⟨⟨⟨h.1.1, h.1.2, h.1.3, h.1.4⟩, ⟨h.2.1, h.2.2, h.2.3, h.2.4⟩, h.3⟩, fun n hn => ⟨ordinary_of_no_devices rfl, ?_⟩,
    by decide, _, List.mem_singleton_self _, rfl, rfl, by decide +kernel, by decide +kernel⟩
  rw [← canonical_iff]
  revert n
  decide +kernel
theorem witness_DeviceOperandRefused :
    Available (edgeOperand [] 0).form { denied with devices := [⟨0x201000, 1⟩] } ∧
      ¬ Ordinary { denied with devices := [⟨0x201000, 1⟩] } (linearAddress (edgeOperand [] 0).form (operandsOf (edgeOperand [] 0))
        (.base 0 (.d8 0xFF)) { denied with devices := [⟨0x201000, 1⟩] } + BitVec.ofNat 64 15) := by
  have h := edge_available 0
  refine ⟨⟨⟨h.1.1, h.1.2, h.1.3, h.1.4⟩, ⟨h.2.1, h.2.2, h.2.3, h.2.4⟩, h.3⟩, ?_⟩
  rw [← isDevice_iff]
  decide +kernel

/-- One fault of each kind a memory operand raises (MemoryFaultsHaveAnAccessedCause). -/
theorem witness_MemoryFaultsHaveAnAccessedCause :
    exec (edgeOperand [] 5) (edgeState 5) = .fault .stackSegment ∧
      exec (edgeOperand [] 0) (edgeState 0) = .fault .generalProtection ∧
      exec (edgeOperand [] 0) denied = .fault (.pageFault 8 0x201000) :=
  ⟨of_faultOf (by decide +kernel), of_faultOf (by decide +kernel), of_faultOf (by decide +kernel)⟩
theorem witness_AllMaskedFormsCompleteAnywhere :
    Available (Instr.vpsllvwEvex512 evexMem).form L ∧ LegalFields (Instr.vpsllvwEvex512 evexMem).form (operandsOf (.vpsllvwEvex512 evexMem)) ∧
      (operandsOf (.vpsllvwEvex512 evexMem)).aaa ≠ 0#3 ∧
      (∀ j < (Instr.vpsllvwEvex512 evexMem).form.lanes, (L.kAt (operandsOf (.vpsllvwEvex512 evexMem)).aaa).getLsbD j = false) ∧
      L.devices = [] := ⟨L_available _, evexMem_legal _ rfl, by decide, by decide +kernel, rfl⟩
theorem witness_RegisterFormsFaultOnlyUdNm :
    (operandsOf (.vpsllvdVex128 vexRegs)).count = .reg 2 ∧ exec (.vpsllvdVex128 vexRegs) State.reset = .fault .invalidOpcode :=
  ⟨rfl, of_faultOf (by decide +kernel)⟩
theorem witness_ExecRefusals :
    exec (.vpsllvdVex128 vexRegs) { L with csL := false } = .refused .outside64BitMode ∧
      exec (edgeOperand [] 0) { denied with devices := [⟨0x201000, 1⟩] } = .refused .deviceMemory :=
  ⟨of_refusalOf (by decide +kernel), of_refusalOf (by decide +kernel)⟩
theorem witness_VexEvexAgreement :
    Unscaled vexMem.count ∧ Mode64 L ∧ Enabled64 (Instr.vpsllvdVex128 vexMem).form L ∧
      Enabled64 (Instr.vpsllvdEvex128 (widen vexMem)).form L :=
  ⟨fun x => by simp, (L_available ⟨true, .word, .v128⟩).1, (L_available _).2, (L_available _).2⟩
/-- Two states that differ above VL and in mask bits above KL agree on the footprint, and both complete. -/
theorem witness_ResultDependsOnlyOnFootprint :
    (∃ t, exec (.vpsllvdVex128 vexRegs) L = .next t) ∧ (∃ t, exec (.vpsllvdVex128 vexRegs) (L.setZmm 1 (1#512 <<< 128)) = .next t) ∧
      SameFootprint (Instr.vpsllvdVex128 vexRegs).form (operandsOf (.vpsllvdVex128 vexRegs)) L (L.setZmm 1 (1#512 <<< 128)) := by
  refine ⟨of_nextOf (by decide +kernel), of_nextOf (by decide +kernel), by decide +kernel, fun r hr => ?_, fun m hm => (by cases hm),
    fun h => absurd rfl h, fun _ n _ h => absurd (.inl rfl) h⟩
  cases hr
  decide +kernel
theorem witness_FlagsNeitherReadNorWritten :
    (0xCD5#64).getLsbD 17 = L.rflags.getLsbD 17 ∧ (0xCD5#64).getLsbD 18 = L.rflags.getLsbD 18 := by decide
/-- The bits of R133 rows 1 to 4 after the launch of `withFetchWord`, PAE and LME as the model has them (log 33). -/
theorem test_launch_bits : State.reset.launch.cr0 = 0xE0000011#64 ∧ State.reset.launch.cr4 = 0x40020#64 ∧
    State.reset.launch.efer = 0x500#64 ∧ State.reset.launch.xcr0 = 0xE7#64 := by decide
theorem witness_LaunchPremise : LaunchPremise (code [0xC4, 0xE2, 0x71, 0x47, 0xC2]) ∧
    ∃ t, step (code [0xC4, 0xE2, 0x71, 0x47, 0xC2]) = .next t :=
  ⟨⟨by rfl, by rfl, by rfl, by rfl, by rfl, by rfl, ⟨by rfl, by rfl⟩, ⟨by rfl, by rfl, by rfl⟩, by rfl, .inl (by rfl), ⟨by rfl, by rfl⟩⟩,
    of_nextOf (by decide +kernel)⟩
theorem witness_MachineInv : MachineInv (code [0xC4, 0xE2, 0x71, 0x47, 0xC2]) :=
  ⟨writeBytes_wf Memory.wf_nil _ _, fun _ => by rfl⟩
theorem witness_FaultEndsRun :
    step (code [0x66, 0xC4, 0xE2, 0x71, 0x47, 0xC2]) = .fault .invalidOpcode ∧ (code [0x66, 0xC4, 0xE2, 0x71, 0x47, 0xC2]).pc ≠ 0#64 ∧
      step (code [0x90]) = .refused .notInFamily ∧ (code []).pc = 0x100000#64 :=
  ⟨of_faultOf (by decide +kernel), by decide, of_refusalOf (by decide +kernel), rfl⟩

end Sys2Proof.Tests
end

section
/-! PROOFS. The launch premise over one step (00_scope.md R8, 10_state.md R30, R32): the rule of each state operation, then of the
execution sequence and of the step. -/

namespace Sys2Proof.Machine

/-! ### The launch premise over the state operations

No operation writes a control register, RFLAGS, XCR0, IA32_EFER, CS or the CPL; only `markTrap` writes the pending debug trap. -/

theorem LaunchPremise.spend {s : State} (h : LaunchPremise s) (n : Nat) : LaunchPremise (s.spend n) := { h with }

theorem LaunchPremise.setZmm {s : State} (h : LaunchPremise s) (n : BitVec 5) (v : Zmm) : LaunchPremise (s.setZmm n v) :=
  { h with }

theorem LaunchPremise.setPc {s : State} (h : LaunchPremise s) (a : Addr) : LaunchPremise (s.setPc a) := { h with }

/-- With no trap marked the premise stays: the pending debug trap is the one field that is written. -/
theorem LaunchPremise.markTrap_false {s : State} (h : LaunchPremise s) : LaunchPremise (s.markTrap false) :=
  { h with noTrap := ⟨h.noTrap.left, s.markTrap_pendingDebug false⟩ }

/-! ### The execution sequence and the step -/

theorem LaunchPremise.completed {s : State} (h : LaunchPremise s) (f : Form) (o : Operands) :
    LaunchPremise (completed f o s) :=
  ((h.spend _).setZmm _ _).setPc _

/-- The trap that a step leaves pending is that of RFLAGS.TF before it (R131), which the premise has clear. -/
theorem LaunchPremise.tf_eq_false {s : State} (h : LaunchPremise s) : s.tf = false := h.noTrap.left

/-- A step that completes leaves the completed state of the instruction at the pc, with the trap of RFLAGS.TF marked (R30, R131). -/
theorem step_next_completed {s t : State} (h : step s = .next t) :
    ∃ i, fetchInstr s = .run i ∧ t = (completed i.form (operandsOf i) s).markTrap s.tf := by
  obtain ⟨-, i, u, hfetch, hexec, rfl⟩ := step_next h
  rw [exec_eq_execShift] at hexec
  obtain ⟨-, -, rfl⟩ := (execShift_next_iff ..).1 hexec
  exact ⟨i, hfetch, rfl⟩

/-- Settles O52: the completed state keeps the premise, and TF = 0 before the step means that no trap is marked after it. -/
theorem stepKeepsLaunchPremise : Obligations.StepKeepsLaunchPremise := by
  unfold Obligations.StepKeepsLaunchPremise
  intro s t hs hstep
  obtain ⟨i, -, rfl⟩ := step_next_completed hstep
  rw [hs.tf_eq_false]
  exact (hs.completed i.form (operandsOf i)).markTrap_false

end Sys2Proof.Machine
end

section
/-! PROOFS. The state of the machine (10_state.md): what an execution and a step change and what they leave (R30), the machine's
invariant over one step (R28, R49), what a completed instruction has passed, and the registers that no form reads (R21, R22). -/

namespace Sys2Proof.Machine

/-! ### The completed state (R30, R88 steps 8 and 9) -/

theorem zmmAt_completed_other (f : Form) (o : Operands) (s : State) {r : BitVec 5} (h : r ≠ o.dest) :
    (completed f o s).zmmAt r = s.zmmAt r :=
  State.zmmAt_setZmm_other (s.spend (countDraws f o s)) (shifted f o s) h

@[simp] theorem byteAt_completed (f : Form) (o : Operands) (s : State) (a : Addr) :
    (completed f o s).byteAt a = s.byteAt a := rfl

@[simp] theorem State.zmmAt_markTrap (s : State) (b : Bool) (r : BitVec 5) : (s.markTrap b).zmmAt r = s.zmmAt r := rfl

@[simp] theorem State.byteAt_markTrap (s : State) (b : Bool) (a : Addr) : (s.markTrap b).byteAt a = s.byteAt a := rfl

/-- An instruction completes exactly when neither the checks nor the read of its count operand stop it, and it leaves the completed
state. -/
theorem exec_next_iff (i : Instr) (s t : State) :
    exec i s = .next t ↔ unavailable i.form (operandsOf i) s = none ∧ countStop i.form (operandsOf i) s = none ∧
      t = completed i.form (operandsOf i) s := by
  rw [exec_eq_execShift, execShift_next_iff]

theorem exec_next_eq_completed {i : Instr} {s t : State} (h : exec i s = .next t) :
    t = completed i.form (operandsOf i) s := by
  obtain ⟨-, -, ht⟩ := (exec_next_iff i s t).1 h
  exact ht

/-! ### The invariant of the machine over the state operations -/

/-- The invariant is about memory, CR0, and the bits that make 64-bit mode (R26, R49). -/
theorem MachineInv.congr {s t : State} (h : MachineInv s) (hmem : t.mem = s.mem) (hcr0 : t.cr0 = s.cr0)
    (hrflags : t.rflags = s.rflags) (hefer : t.efer = s.efer) (hcsL : t.csL = s.csL) : MachineInv t where
  memory := hmem ▸ h.memory
  paging := fun ⟨hpe, hvm, hlma, hl⟩ => by
    rw [hcr0]
    exact h.paging ⟨hcr0 ▸ hpe, hrflags ▸ hvm, hefer ▸ hlma, hcsL ▸ hl⟩

theorem MachineInv.completed {s : State} (h : MachineInv s) (f : Form) (o : Operands) : MachineInv (completed f o s) :=
  h.congr rfl rfl rfl rfl rfl

theorem MachineInv.markTrap {s : State} (h : MachineInv s) (b : Bool) : MachineInv (s.markTrap b) :=
  h.congr rfl rfl rfl rfl rfl

/-- Settles O53: a step leaves the completed state of one instruction with the trap of RFLAGS.TF marked; neither operation touches
memory, CR0 or the mode. -/
theorem stepKeepsMachineInv : Obligations.StepKeepsMachineInv := by
  unfold Obligations.StepKeepsMachineInv
  intro s t hs hstep
  obtain ⟨i, -, rfl⟩ := step_next_completed hstep
  refine ⟨(hs.completed i.form (operandsOf i)).markTrap s.tf, fun a => ?_⟩
  rw [State.byteAt_markTrap, byteAt_completed]

/-! ### What a completed instruction has passed (R40, R45, R46) -/

/-- A memory read that nothing stops: all of the operand is ordinary memory, and its accessed bytes are canonical and granted. (Not
`Readable`: an open alignment check may have been drawn not to fault, R116.) -/
theorem checks_passed_of_memoryStop_none {f : Form} {o : Operands} {s : State} {m : MemOperand} {la : Addr}
    (h : memoryStop f o s m la = none) {k : Nat} (hk : k < countBytes f o.b) :
    Ordinary s (byteAddr la k) ∧
      (AccessedByte f o s k → CanonicalAddr s.params (byteAddr la k) ∧ ¬ Denied s .read (byteAddr la k)) := by
  unfold memoryStop at h
  simp only at h
  split at h
  · cases h
  rename_i hcanon
  split at h
  · cases h
  rename_i hdevice
  split at h
  · cases h
  rename_i hpage
  simp only [List.any_eq_true, not_exists, not_and, Bool.not_eq_true', Bool.not_eq_false] at hcanon
  simp only [List.any_eq_true, List.mem_range, isDevice_iff, not_exists, not_and, not_not] at hdevice
  refine ⟨hdevice k hk, fun hacc => ?_⟩
  have hmem : byteAddr la k ∈ accessedAddrs f o s la := (mem_accessedAddrs ..).2 ⟨k, hk, hacc, rfl⟩
  exact ⟨(canonical_iff _ _).1 (hcanon _ hmem), (reportedPageFault_none_iff s .read _).1 hpage _ hmem⟩

/-- Settles O28: `unavailable` answers none exactly for an available form with legal fields, and `countStop` none only past the
checks of each byte. -/
theorem completionNeedsEveryCheck : Obligations.CompletionNeedsEveryCheck := by
  unfold Obligations.CompletionNeedsEveryCheck
  intro i s t hexec
  obtain ⟨havail, hcount, -⟩ := (exec_next_iff i s t).1 hexec
  obtain ⟨hav, hlegal⟩ := (unavailable_none_iff ..).1 havail
  refine ⟨hav, hlegal, fun m hm k hk => ?_⟩
  simp only [countStop, hm] at hcount
  exact checks_passed_of_memoryStop_none hcount hk

/-! ### The frame (R30) -/

/-- Settles O31: the completed state is the old one with another destination register, pc and number of draws. -/
theorem execFrame : Obligations.ExecFrame := by
  unfold Obligations.ExecFrame
  intro i s t hexec
  obtain rfl := exec_next_eq_completed hexec
  refine ⟨fun r hr => zmmAt_completed_other i.form (operandsOf i) s hr, ?_⟩
  simp [completed_eq, operandsOf_len, State.byteAt]

/-- Settles O32: the step's instruction is that of the fetch, and marking the trap changes only the pending trap. -/
theorem stepFrame : Obligations.StepFrame := by
  unfold Obligations.StepFrame
  intro s t hstep
  obtain ⟨i, hfetch, rfl⟩ := step_next_completed hstep
  refine ⟨i, hfetch, fun r hr => ?_, ?_⟩
  · rw [State.zmmAt_markTrap, zmmAt_completed_other i.form (operandsOf i) s hr]
  · simp [completed_eq, operandsOf_len, State.byteAt]

/-! ### Registers that are neither read nor written (R21, R22) -/

/-- A change of the state that the checks and the read of the count operand do not see, and that the completed state keeps, commutes
with the execution sequence. -/
theorem execShift_comm {f : Form} {o : Operands} {s : State} (g : State → State)
    (havail : unavailable f o (g s) = unavailable f o s) (hcount : countStop f o (g s) = countStop f o s)
    (hcompleted : completed f o (g s) = g (completed f o s)) : execShift f o (g s) = mapNext g (execShift f o s) := by
  unfold execShift
  rw [havail, hcount, hcompleted]
  cases unavailable f o s with
  | some st => cases st <;> rfl
  | none =>
    cases countStop f o s with
    | some st => cases st <;> rfl
    | none => rfl

section Rflags

variable {s : State} {fl : BitVec 64}

/-- With the same VM bit the mode is the same, and the checks before execution read no other flag. -/
theorem unavailable_rflags (hvm : fl.getLsbD 17 = s.rflags.getLsbD 17) (f : Form) (o : Operands) :
    unavailable f o { s with rflags := fl } = unavailable f o s := by
  have hmode : ({ s with rflags := fl } : State).realOrV86 = s.realOrV86 := congrArg (!s.pe || ·) hvm
  have h64 : ({ s with rflags := fl } : State).in64 = s.in64 := congrArg (!· && s.lma && s.csL) hmode
  unfold unavailable
  rw [hmode, h64]
  rfl

/-- With the same AC bit alignment checking is as active as before. -/
theorem alignmentOpen_rflags (hac : fl.getLsbD 18 = s.rflags.getLsbD 18) (f : Form) (o : Operands) (la : Addr) :
    alignmentOpen f o { s with rflags := fl } la = alignmentOpen f o s la := by
  have hactive : ({ s with rflags := fl } : State).alignmentCheckActive = s.alignmentCheckActive :=
    congrArg (s.am && · && s.cpl == 3#2) hac
  unfold alignmentOpen
  rw [hactive]
  rfl

theorem memoryStop_rflags (hac : fl.getLsbD 18 = s.rflags.getLsbD 18) (f : Form) (o : Operands) (m : MemOperand) (la : Addr) :
    memoryStop f o { s with rflags := fl } m la = memoryStop f o s m la := by
  unfold memoryStop
  rw [alignmentOpen_rflags hac]
  rfl

theorem countStop_rflags (hac : fl.getLsbD 18 = s.rflags.getLsbD 18) (f : Form) (o : Operands) :
    countStop f o { s with rflags := fl } = countStop f o s := by
  unfold countStop
  cases o.count with
  | reg r => rfl
  | mem m => exact memoryStop_rflags hac f o m (linearAddress f o m s)

theorem countDraws_rflags (hac : fl.getLsbD 18 = s.rflags.getLsbD 18) (f : Form) (o : Operands) :
    countDraws f o { s with rflags := fl } = countDraws f o s := by
  unfold countDraws
  cases o.count with
  | reg r => rfl
  | mem m => exact congrArg (fun b : Bool => if b then 1 else 0) (alignmentOpen_rflags hac f o (linearAddress f o m s))

/-- No result reads RFLAGS; the draws that a completed read has used depend on AC alone. -/
theorem completed_rflags (hac : fl.getLsbD 18 = s.rflags.getLsbD 18) (f : Form) (o : Operands) :
    completed f o { s with rflags := fl } = { completed f o s with rflags := fl } := by
  rw [completed_eq, completed_eq, countDraws_rflags hac]
  rfl

end Rflags

/-- Settles O49: VM enters only through the mode, AC only through the alignment check, and the completed state keeps RFLAGS. -/
theorem flagsNeitherReadNorWritten : Obligations.FlagsNeitherReadNorWritten := by
  unfold Obligations.FlagsNeitherReadNorWritten
  intro i s fl hvm hac
  constructor
  · rw [exec_eq_execShift, exec_eq_execShift]
    exact execShift_comm (fun t => { t with rflags := fl }) (unavailable_rflags hvm _ _) (countStop_rflags hac _ _)
      (completed_rflags hac _ _)
  · intro t hexec
    rw [exec_next_eq_completed hexec, completed_eq]

/-- Settles O50: no check, no address, no count and no result mentions MXCSR, so the two executions are the same computation. -/
theorem mxcsrNeitherReadNorWritten : Obligations.MxcsrNeitherReadNorWritten := by
  unfold Obligations.MxcsrNeitherReadNorWritten
  intro i s w
  constructor
  · rw [exec_eq_execShift, exec_eq_execShift]
    exact execShift_comm (fun t => { t with mxcsr := w }) rfl rfl rfl
  · intro t hexec
    rw [exec_next_eq_completed hexec, completed_eq]

end Sys2Proof.Machine
end

section
/-! PROOFS. The modes outside 64-bit mode (10_state.md R26), the state after reset (R31), and the state a launch leaves (R32,
R133). -/

namespace Sys2Proof.Machine

/-! ### The modes (R26) -/

theorem exec_of_unavailable {i : Instr} {s : State} {st : Stop} (h : unavailable i.form (operandsOf i) s = some st) :
    exec i s = st.outcome := by
  rw [exec_eq_execShift, execShift, h]

theorem realOrV86_iff (s : State) : s.realOrV86 = true ↔ s.cr0.getLsbD 0 = false ∨ s.rflags.getLsbD 17 = true := by
  simp [State.realOrV86, State.pe, State.vm]

/-- Settles O35: the mode is the first check of R120. -/
theorem realAndVirtual8086Fault : Obligations.RealAndVirtual8086Fault := by
  unfold Obligations.RealAndVirtual8086Fault
  intro i s hmode
  have hstop : unavailable i.form (operandsOf i) s = some (.fault .invalidOpcode) := by
    rw [unavailable, if_pos ((realOrV86_iff s).2 hmode)]
  exact exec_of_unavailable hstop

/-- Settles O36: past the first check, LMA = 0 or CS.L = 0 is not 64-bit mode. -/
theorem otherModesRefused : Obligations.OtherModesRefused := by
  unfold Obligations.OtherModesRefused
  intro i s hpe hvm hmode
  have hprotected : ¬ s.realOrV86 = true := by
    rw [realOrV86_iff, hpe, hvm]
    decide
  have hnot64 : s.in64 = false := by
    rw [← Bool.not_eq_true, in64_iff]
    rintro ⟨-, -, hlma, hl⟩
    rw [hlma, hl] at hmode
    simp at hmode
  have hstop : unavailable i.form (operandsOf i) s = some (.refuse .outside64BitMode) := by
    rw [unavailable, if_neg hprotected, hnot64]
    rfl
  exact exec_of_unavailable hstop

/-! ### Reset (R31) -/

@[simp] theorem reset_zmmAt (n : BitVec 5) : State.reset.zmmAt n = 0 := by
  simp [State.zmmAt, State.reset, Vector.get_eq_getElem]

@[simp] theorem reset_kAt (n : BitVec 3) : State.reset.kAt n = 0 := by
  simp [State.kAt, State.reset, Vector.get_eq_getElem]

@[simp] theorem reset_gprAt (n : BitVec 4) : State.reset.gprAt n = 0 := by
  simp [State.gprAt, State.reset, Vector.get_eq_getElem]

/-- After reset CR0.PE is 0: the machine is in real-address mode (R31, R132). -/
theorem not_mode64_reset : ¬ Mode64 State.reset := fun h => absurd h.protectedMode (by decide)

theorem machineInv_reset : MachineInv State.reset := ⟨reset_mem_wf, fun h => absurd h not_mode64_reset⟩

/-- Settles O54: memory is empty and the mode is not 64-bit mode, so the invariant holds; the registers are as `State.reset` lists
them. -/
theorem resetMeetsInvAndValues : Obligations.ResetMeetsInvAndValues := by
  unfold Obligations.ResetMeetsInvAndValues
  exact ⟨machineInv_reset, reset_zmmAt, reset_kAt, fun n _ _ => reset_gprAt n, rfl, rfl, rfl, rfl, rfl, rfl, rfl, rfl, rfl⟩

/-! ### The launch (R32, R133) -/

theorem launchPremise_launch (s : State) : LaunchPremise s.launch := by
  constructor <;> simp [State.launch]

theorem systemSetUp_launch (s : State) : SystemSetUp s.launch := by
  constructor <;> simp [State.launch]

/-- Moving the pc to a canonical window leaves every other field. -/
theorem settlePc_eq (s : State) : ∃ a, s.settlePc = s.setPc a := by
  unfold State.settlePc
  split
  · exact ⟨s.pc, rfl⟩
  · exact ⟨0, rfl⟩

theorem LaunchPremise.placeCode {s : State} (h : LaunchPremise s) (bs : List Byte) : LaunchPremise (s.placeCode bs) :=
  { h with }

theorem SystemSetUp.setPc {s : State} (h : SystemSetUp s) (a : Addr) : SystemSetUp (s.setPc a) := { h with }

theorem SystemSetUp.placeCode {s : State} (h : SystemSetUp s) (bs : List Byte) : SystemSetUp (s.placeCode bs) := { h with }

/-- Settles O56: `State.launch` sets the bits, and settling the pc and placing the code write none of them. -/
theorem launchEstablishesPremise : Obligations.LaunchEstablishesPremise := by
  unfold Obligations.LaunchEstablishesPremise
  intro s nbits w
  obtain ⟨a, ha⟩ := settlePc_eq s.launch
  rw [State.withFetchWord, ha]
  exact ⟨((launchPremise_launch s).setPc a).placeCode _, ((systemSetUp_launch s).setPc a).placeCode _⟩

end Sys2Proof.Machine
end

section
/-! PROOFS. Memory reads as numbers (20_memory.md R34) and the address of a memory operand (R41 to R44). -/

namespace Sys2Proof.Machine

/-! ### Little-endian reads (R34) -/

theorem loadBytes_high (s : State) (la : Addr) (acc : Nat → Bool) {n i : Nat} (h : 8 * n ≤ i) :
    (loadBytes s la acc n).getLsbD i = false :=
  ofLanes_high (by decide) _ h

/-- A field of `m` bytes as a number: its bytes, the least significant first, are its digits in base 256. -/
theorem toNat_extractLsb'_eq_sum_bytes (v : Zmm) (a m : Nat) :
    (v.extractLsb' (8 * a) (8 * m)).toNat =
      ((List.range m).map fun k => (v.extractLsb' (8 * (a + k)) 8).toNat * 256 ^ k).sum := by
  induction m with
  | zero => simp
  | succ m ih =>
    have hpow : 2 ^ (8 * m) = 256 ^ m := by rw [Nat.pow_mul]
    have htop : v.toNat >>> (8 * (a + m)) = v.toNat >>> (8 * a) / 2 ^ (8 * m) := by
      rw [Nat.mul_add, Nat.shiftRight_add, Nat.shiftRight_eq_div_pow (_ >>> _)]
    rw [List.range_succ, List.map_append, List.sum_append, ← ih]
    simp only [BitVec.extractLsb'_toNat, List.map_singleton, List.sum_singleton, htop]
    rw [Nat.mul_succ, Nat.pow_add, Nat.mod_mul, hpow, Nat.mul_comm (256 ^ m)]

theorem elem_bits_eq_bytes (e : Elem) : e.bits = 8 * (e.bits / 8) := by cases e <;> rfl

/-- An element as a number, by its bytes. -/
theorem elemNat_eq_sum_bytes (e : Elem) (j : Nat) (v : Zmm) :
    elemNat e.bits j v =
      ((List.range (e.bits / 8)).map fun k =>
        (v.extractLsb' (8 * (j * (e.bits / 8) + k)) 8).toNat * 256 ^ k).sum := by
  rw [← toNat_extractLsb'_eq_sum_bytes, elemNat, BitVec.extractLsb'_toNat, BitVec.extractLsb'_toNat, ← elem_bits_eq_bytes,
    Nat.mul_left_comm, ← elem_bits_eq_bytes]

/-- Settles O20: byte `k` of the read is byte `k` of memory, nothing stands above byte `n`, and an element is the number that its
bytes make in base 256. -/
theorem loadIsLittleEndian : Obligations.LoadIsLittleEndian := by
  unfold Obligations.LoadIsLittleEndian
  intro s la n hn
  have hbyte : ∀ k < n, (loadBytes s la (fun _ => true) n).extractLsb' (8 * k) 8 = s.byteAt (la + BitVec.ofNat 64 k) :=
    fun k hk => byte_loadBytes s la _ hn hk rfl
  refine ⟨hbyte, fun b hb => loadBytes_high s la _ hb, fun e j hj => ?_⟩
  rw [elemNat_eq_sum_bytes]
  refine congrArg List.sum (List.map_congr_left fun k hk => ?_)
  have hk' : k < e.bits / 8 := List.mem_range.1 hk
  have hlast : j * (e.bits / 8) + k < n := by
    rw [Nat.add_mul] at hj
    omega
  rw [hbyte _ hlast]

/-! ### The address of a memory operand (R41 to R44)

The address is computed modulo 2^64, or, under `67H`, from 32-bit registers modulo 2^32. Both are read off the low
`w` bits, where every term is the integer it stands for. -/

section Width

variable {w : Nat} {a32 : Bool}

theorem setWidth_ofInt_of_le (hw : w ≤ 64) (z : Int) : (BitVec.ofInt 64 z).setWidth w = BitVec.ofInt w z := by
  apply BitVec.eq_of_toNat_eq
  have hdvd : ((2 ^ w : Nat) : Int) ∣ (2 ^ 64 : Nat) := by exact_mod_cast Nat.pow_dvd_pow 2 hw
  rw [BitVec.toNat_setWidth, BitVec.toNat_ofInt, BitVec.toNat_ofInt, ← Int.emod_emod_of_dvd z hdvd,
    Int.toNat_emod (Int.emod_nonneg _ (by decide)) (Int.natCast_nonneg _), Int.toNat_natCast]

theorem setWidth_signExtend_of_le (hw : w ≤ 64) {n : Nat} (d : BitVec n) :
    (d.signExtend 64).setWidth w = BitVec.ofInt w d.toInt :=
  setWidth_ofInt_of_le hw d.toInt

theorem setWidth_low32 (hw : w ≤ 32) (x : Addr) : (low32 x).setWidth w = x.setWidth w := by
  rw [low32, BitVec.setWidth_setWidth_of_le _ (by omega), BitVec.setWidth_setWidth_of_le _ hw]

/-- What `67H` takes from a register or an address does not reach its low 32 bits (R44). -/
theorem setWidth_ite_low32 (h32 : a32 = true → w ≤ 32) (x : Addr) :
    (if a32 then low32 x else x).setWidth w = x.setWidth w := by
  split
  next h => exact setWidth_low32 (h32 h) x
  next => rfl

theorem setWidth_addrReg (h32 : a32 = true → w ≤ 32) (s : State) (n : BitVec 4) :
    (addrReg a32 s n).setWidth w = BitVec.ofInt w (s.gprAt n).toNat := by
  rw [BitVec.ofInt_natCast, BitVec.ofNat_toNat, addrReg, setWidth_ite_low32 h32]

theorem setWidth_dispValue (hw : w ≤ 64) (n : Nat) (d : Disp) :
    (dispValue n d).setWidth w = BitVec.ofInt w (dispInt n d) := by
  cases d with
  | none => exact setWidth_ofInt_of_le hw 0
  | d8 d =>
    rw [dispValue, dispInt, BitVec.signExtend, ← BitVec.ofInt_natCast, ← BitVec.ofInt_mul]
    exact setWidth_ofInt_of_le hw _
  | d32 d => exact setWidth_signExtend_of_le hw d

theorem twoPow_eq_ofInt (n : Nat) : BitVec.twoPow w n = BitVec.ofInt w (2 ^ n) := by
  have hcast : (2 : Int) ^ n = ((2 ^ n : Nat) : Int) := by rw [Nat.cast_pow]; rfl
  apply BitVec.eq_of_toNat_eq
  rw [hcast, BitVec.ofInt_natCast, BitVec.toNat_twoPow, BitVec.toNat_ofNat]

theorem setWidth_indexTerm (hw : w ≤ 64) (h32 : a32 = true → w ≤ 32) (s : State) (scale : BitVec 2) (index : BitVec 4) :
    (indexTerm a32 s scale index).setWidth w = BitVec.ofInt w (indexInt s scale index) := by
  unfold indexTerm indexInt
  split
  · exact setWidth_ofInt_of_le hw 0
  · rw [BitVec.setWidth_shiftLeft_of_le hw, setWidth_addrReg h32, BitVec.shiftLeft_eq_mul_twoPow, BitVec.ofInt_mul,
      twoPow_eq_ofInt]

/-- The low `w` bits of the effective address are those of the integer sum of R41 to R43. -/
theorem setWidth_effectiveAddress (hw : w ≤ 64) (h32 : a32 = true → w ≤ 32) (f : Form) (o : Operands) (s : State)
    (m : MemOperand) :
    (effectiveAddress a32 (tupleScale f o.b) (s.pc + BitVec.ofNat 64 o.len) s m).setWidth w =
      BitVec.ofInt w (addressInt f o s m) := by
  unfold effectiveAddress
  rw [setWidth_ite_low32 h32]
  cases m with
  | base b d =>
    simp only [addressInt, BitVec.setWidth_add _ _ hw, BitVec.ofInt_add, setWidth_addrReg h32, setWidth_dispValue hw]
  | rip d =>
    simp only [addressInt, BitVec.setWidth_add _ _ hw, BitVec.ofInt_add, setWidth_signExtend_of_le hw, BitVec.ofInt_natCast,
      BitVec.ofNat_toNat, BitVec.setWidth_ofNat_of_le hw]
  | sib scale index b d =>
    simp only [addressInt, BitVec.setWidth_add _ _ hw, BitVec.ofInt_add, setWidth_addrReg h32, setWidth_indexTerm hw h32,
      setWidth_dispValue hw]
  | sibNoBase scale index d =>
    simp only [addressInt, BitVec.setWidth_add _ _ hw, BitVec.ofInt_add, setWidth_indexTerm hw h32,
      setWidth_signExtend_of_le hw]

end Width

/-- The effective address as the integer sum, modulo 2^32 under `67H` and else modulo 2^64 (R44). -/
theorem effectiveAddress_eq_addressInt (a32 : Bool) (f : Form) (o : Operands) (s : State) (m : MemOperand) :
    effectiveAddress a32 (tupleScale f o.b) (s.pc + BitVec.ofNat 64 o.len) s m =
      if a32 then (BitVec.ofInt 32 (addressInt f o s m)).setWidth 64 else BitVec.ofInt 64 (addressInt f o s m) := by
  cases a32 with
  | true =>
    rw [if_pos rfl, ← setWidth_effectiveAddress (a32 := true) (by decide) (fun _ => le_rfl) f o s m]
    unfold effectiveAddress
    rw [if_pos rfl, setWidth_low32 le_rfl]
    rfl
  | false =>
    rw [if_neg (by decide), ← setWidth_effectiveAddress (a32 := false) le_rfl (by decide) f o s m, BitVec.setWidth_eq]

/-- The factor of an 8-bit displacement is that of R42's table, except for a word broadcast, which no legal encoding has (R72). -/
theorem dispScale_eq_tupleScale {f : Form} {o : Operands} (h : o.b = true → f.elem ≠ .word) :
    dispScale f o.b = tupleScale f o.b := by
  obtain ⟨evex, e, v⟩ := f
  cases evex with
  | false => rfl
  | true =>
    cases hb : o.b with
    | false => cases v <;> simp [dispScale, tupleScale, countBytes, VLen.bits]
    | true =>
      cases e with
      | word => exact absurd rfl (h hb)
      | dword => simp [dispScale, tupleScale, countBytes, Elem.bits]
      | qword => simp [dispScale, tupleScale, countBytes, Elem.bits]

theorem addr32_iff (o : Operands) : o.addr32 = true ↔ .addr32 ∈ o.prefixes := List.contains_iff_mem

/-- The base that the overrides add: of an FS and a GS override it is one or the other (log 10). -/
theorem segmentBase_cases (ps : List LegacyPrefix) (s : State) :
    (.fs ∈ ps → .gs ∉ ps → segmentBase ps s = s.fsBase) ∧
      (.gs ∈ ps → .fs ∉ ps → segmentBase ps s = s.gsBase) ∧
      (.fs ∈ ps → .gs ∈ ps → segmentBase ps s = s.fsBase ∨ segmentBase ps s = s.gsBase) ∧
      (.fs ∉ ps → .gs ∉ ps → segmentBase ps s = 0#64) := by
  unfold segmentBase usesFs
  by_cases hfs : .fs ∈ ps <;> by_cases hgs : .gs ∈ ps <;> simp [hfs, hgs]
  cases Config.overrideChoice (ps.map LegacyPrefix.byte) <;> simp

/-- Settles O21: the base of the overrides plus the effective address, which is the integer sum in its width. -/
theorem linearAddressOfOperand : Obligations.LinearAddressOfOperand := by
  unfold Obligations.LinearAddressOfOperand
  intro f o m s hlegal _
  refine ⟨segmentBase o.prefixes s, ?_, segmentBase_cases o.prefixes s⟩
  have hscale : dispScale f o.b = tupleScale f o.b := dispScale_eq_tupleScale fun hb => (hlegal.2 hb).1
  rw [linearAddress, hscale, effectiveAddress_eq_addressInt]
  simp only [addr32_iff]

/-! ### RIP-relative addressing (R43) -/

/-- `mod` = 00 and `r/m` = 101 name a displacement from the next instruction; `X` and `B` are ignored. -/
theorem takeModRm_rip (x b : Bool) {modrm : Byte} (d0 d1 d2 d3 : Byte) (rest : List Byte)
    (hmod : modrm.extractLsb' 6 2 = 0#2) (hrm : modrm.extractLsb' 0 3 = 5#3) :
    takeModRm x b (modrm :: d0 :: d1 :: d2 :: d3 :: rest) =
      some (modrm.extractLsb' 3 3, .mem (.rip (le32 d0 d1 d2 d3)), rest) := by
  simp [takeModRm, takeD32, hmod, hrm]

/-- A RIP-relative address uses no displacement factor. -/
theorem effectiveAddress_rip (a32 : Bool) (n n' : Nat) (next : Addr) (s : State) (d : BitVec 32) :
    effectiveAddress a32 n next s (.rip d) = effectiveAddress a32 n' next s (.rip d) := rfl

/-- Settles O22: the ModRM bytes decode by their fields, and without an override nothing is added to the effective address. -/
theorem ripRelativeAddress : Obligations.RipRelativeAddress := by
  unfold Obligations.RipRelativeAddress
  refine ⟨fun x b modrm d0 d1 d2 d3 rest => takeModRm_rip x b d0 d1 d2 d3 rest, fun i s d _ hps => ?_⟩
  obtain ⟨-, -, -, hbase⟩ := segmentBase_cases (operandsOf i).prefixes s
  have haddr32 : (operandsOf i).addr32 = false := by rw [Operands.addr32, hps]; rfl
  rw [linearAddress, hbase (by simp [hps]) (by simp [hps]), haddr32,
    effectiveAddress_rip _ _ (tupleScale i.form (operandsOf i).b), effectiveAddress_eq_addressInt, addressInt, operandsOf_len]
  simp

end Sys2Proof.Machine
end

section
/-! PROOFS. What stops an instruction with a memory operand (20_memory.md R40, R45, R46; 60_exceptions.md R113 to R116): refusals
and faults with their causes, and forms whose mask bits are all 0. -/

namespace Sys2Proof.Machine

/-! ### The two checks of an execution -/

/-- What stops a form before its operand is read: #UD, #NM, or, outside 64-bit mode, a refusal (R109 to R112, D1). -/
theorem unavailable_cases {f : Form} {o : Operands} {s : State} {st : Stop} (h : unavailable f o s = some st) :
    st = .fault .invalidOpcode ∨ st = .fault .deviceNotAvailable ∨ (st = .refuse .outside64BitMode ∧ ¬ Mode64 s) := by
  unfold unavailable at h
  split_ifs at h with _ h64 <;> cases h
  · exact .inl rfl
  · refine .inr (.inr ⟨rfl, fun hmode => ?_⟩)
    rw [(in64_iff s).2 hmode] at h64
    exact absurd h64 (by decide)
  · exact .inl rfl
  · exact .inl rfl
  · exact .inr (.inl rfl)

/-- What stops the read of the count operand stops the read of a memory operand. -/
theorem countStop_some {f : Form} {o : Operands} {s : State} {st : Stop} (h : countStop f o s = some st) :
    ∃ m, o.count = .mem m ∧ memoryStop f o s m (linearAddress f o m s) = some st := by
  unfold countStop at h
  split at h
  next => cases h
  next m hm => exact ⟨m, hm, h⟩

theorem execShift_refused_iff (f : Form) (o : Operands) (s : State) (r : Refusal) :
    execShift f o s = .refused r ↔
      unavailable f o s = some (.refuse r) ∨ (unavailable f o s = none ∧ countStop f o s = some (.refuse r)) := by
  unfold execShift
  cases unavailable f o s with
  | some st => cases st <;> simp [Stop.outcome, raise]
  | none =>
    cases countStop f o s with
    | some st => cases st <;> simp [Stop.outcome, raise]
    | none => simp

/-! ### Refusals (D1, D20) -/

/-- Settles O45: the checks refuse only outside 64-bit mode, and the read only for device memory. -/
theorem execRefusals : Obligations.ExecRefusals := by
  unfold Obligations.ExecRefusals
  intro i s r hexec
  rw [exec_eq_execShift, execShift_refused_iff] at hexec
  obtain hstop | ⟨hnone, hstop⟩ := hexec
  · obtain h | h | ⟨h, hmode⟩ := unavailable_cases hstop
    · cases h
    · cases h
    · cases h
      exact .inl ⟨rfl, hmode⟩
  · obtain ⟨havail, -⟩ := (unavailable_none_iff ..).1 hnone
    obtain ⟨m, hm, hmem⟩ := countStop_some hstop
    obtain ⟨h, -⟩ | ⟨h, hdevice⟩ | ⟨x, -, h⟩ | ⟨h, -⟩ := memoryStop_cases hmem
    · cases h
    · cases h
      exact .inr ⟨rfl, havail, m, hm, hdevice⟩
    · cases h
    · cases h

/-- Past the canonical check a byte on device memory refuses the read, accessed or not (R40, D20, log 7). -/
theorem memoryStop_of_device {f : Form} {o : Operands} {s : State} {m : MemOperand} {la : Addr} {k : Nat}
    (hcanon : ∀ n < countBytes f o.b, AccessedByte f o s n → CanonicalAddr s.params (byteAddr la n))
    (hk : k < countBytes f o.b) (hdevice : ¬ Ordinary s (byteAddr la k)) :
    memoryStop f o s m la = some (.refuse .deviceMemory) := by
  have hnone : ¬ (accessedAddrs f o s la).any (fun a => !canonical s.params a) = true := by
    simp only [List.any_eq_true, mem_accessedAddrs, Bool.not_eq_true', not_exists, not_and, Bool.not_eq_false]
    rintro a ⟨n, hn, hacc, rfl⟩
    exact (canonical_iff _ _).2 (hcanon n hn hacc)
  have hsome : (List.range (countBytes f o.b)).any (fun n => s.isDevice (byteAddr la n)) = true :=
    List.any_eq_true.2 ⟨k, List.mem_range.2 hk, (isDevice_iff _ _).2 hdevice⟩
  unfold memoryStop
  simp only
  rw [if_neg hnone, if_pos hsome]

/-- Settles O41: nothing stops the form before its read, and the read is refused. -/
theorem deviceOperandRefused : Obligations.DeviceOperandRefused := by
  unfold Obligations.DeviceOperandRefused
  intro i s m k havail hlegal hm hcanon hk hdevice
  rw [exec_eq_execShift, execShift_refused_iff]
  refine .inr ⟨(unavailable_none_iff ..).2 ⟨havail, hlegal⟩, ?_⟩
  simp only [countStop, hm]
  exact memoryStop_of_device hcanon hk hdevice

/-! ### Faults (R113 to R116) -/

theorem alignmentOpen_iff (f : Form) (o : Operands) (s : State) (la : Addr) :
    alignmentOpen f o s la = true ↔
      AlignmentChecked s ∧ o.b = true ∧ (∃ j < f.lanes, EnabledLane o s j) ∧ la.toNat % (f.elem.bits / 8) ≠ 0 := by
  simp [alignmentOpen, alignmentCheckActive_iff, anyEnabled_iff, and_assoc]

theorem countBytes_pos (f : Form) (b : Bool) : 0 < countBytes f b := by
  unfold countBytes
  split
  · cases f.elem <;> decide
  · cases f.vl <;> decide

/-- A fault of the read of a memory operand has its cause at an accessed byte. The alignment check is of the whole operand; its
first byte is accessed, since a broadcast accesses all bytes or none (R46, R116). -/
theorem memoryStop_fault_cause {f : Form} {o : Operands} {s : State} {m : MemOperand} {la : Addr} {x : Fault}
    (h : memoryStop f o s m la = some (.fault x)) :
    ∃ k < countBytes f o.b, AccessedByte f o s k ∧
      (((x = .stackSegment ∨ x = .generalProtection) ∧ ¬ CanonicalAddr s.params (byteAddr la k)) ∨
       (∃ code, x = .pageFault code (byteAddr la k) ∧ Denied s .read (byteAddr la k)) ∨
       (x = .alignmentCheck ∧ AlignmentChecked s ∧ o.b = true ∧ la.toNat % (f.elem.bits / 8) ≠ 0)) := by
  obtain ⟨hx, k, hk, hacc, hcanon⟩ | ⟨hx, -⟩ | ⟨y, hy, hx⟩ | ⟨hx, hopen⟩ := memoryStop_cases h
  · refine ⟨k, hk, hacc, .inl ⟨?_, hcanon⟩⟩
    cases hx
    split
    · exact .inl rfl
    · exact .inr rfl
  · cases hx
  · cases hx
    obtain ⟨d, hd, a, ha, rfl, hpaging, hdenies⟩ := mem_pageFaults hy
    obtain ⟨k, hk, hacc, rfl⟩ := (mem_accessedAddrs ..).1 ha
    exact ⟨k, hk, hacc, .inr (.inl ⟨d.code, rfl, hpaging, d, hd, hdenies⟩)⟩
  · cases hx
    obtain ⟨hactive, hb, hlane, halign⟩ := (alignmentOpen_iff ..).1 hopen
    refine ⟨0, countBytes_pos f o.b, ?_, .inr (.inr ⟨rfl, hactive, hb, halign⟩)⟩
    rw [AccessedByte, if_pos hb]
    exact hlane

/-- Settles O42: the checks before the read fault with #UD and #NM alone, and the read only for an accessed byte. -/
theorem memoryFaultsHaveAnAccessedCause : Obligations.MemoryFaultsHaveAnAccessedCause := by
  unfold Obligations.MemoryFaultsHaveAnAccessedCause
  intro i s x hexec
  rw [exec_eq_execShift, execShift_fault_iff] at hexec
  obtain hstop | ⟨-, hstop⟩ := hexec
  · obtain h | h | ⟨h, -⟩ := unavailable_cases hstop
    · cases h
      exact .inl rfl
    · cases h
      exact .inr (.inl rfl)
    · cases h
  · obtain ⟨m, hm, hmem⟩ := countStop_some hstop
    exact .inr (.inr ⟨m, hm, memoryStop_fault_cause hmem⟩)

/-! ### Forms whose mask bits are all 0 (R46, R74) -/

/-- An available, legal form with a readable count operand completes, using no free value. -/
theorem exec_of_countReadable {i : Instr} {s : State} (havail : Available i.form s)
    (hlegal : LegalFields i.form (operandsOf i)) (hread : CountReadable i.form (operandsOf i) s) :
    exec i s = .next ((s.setZmm (operandsOf i).dest (shifted i.form (operandsOf i) s)).setPc
      (s.pc + BitVec.ofNat 64 i.length)) := by
  obtain ⟨hstop, hdraws⟩ := countStop_of_readable hread
  rw [exec_next_iff]
  refine ⟨(unavailable_none_iff ..).2 ⟨havail, hlegal⟩, hstop, ?_⟩
  rw [completed, hdraws, State.spend_zero, State.advance, operandsOf_len, State.setZmm_pc]

/-- Byte `k` of a whole-vector operand lies in an element below KL. -/
theorem byte_lane_lt {f : Form} {k : Nat} (hk : k < countBytes f false) : k / (f.elem.bits / 8) < f.lanes := by
  obtain ⟨_, e, v⟩ := f
  cases e <;> cases v <;> simp [countBytes, Form.lanes, Elem.bits, VLen.bits] at hk ⊢ <;> omega

/-- Bit `n` below VL lies in an element below KL. -/
theorem bit_lane_lt {f : Form} {n : Nat} (hn : n < f.vl.bits) : n / f.elem.bits < f.lanes := by
  rw [← lanes_mul_bits f] at hn
  exact Nat.div_lt_of_lt_mul hn

/-- With no element enabled, no byte of the operand is accessed (R46). -/
theorem not_accessedByte_of_all_masked {f : Form} {o : Operands} {s : State} {k : Nat}
    (hmask : ∀ j < f.lanes, ¬ EnabledLane o s j) (hk : k < countBytes f o.b) : ¬ AccessedByte f o s k := by
  unfold AccessedByte
  split
  next =>
    rintro ⟨j, hj, hen⟩
    exact hmask j hj hen
  next hb =>
    rw [Bool.not_eq_true] at hb
    rw [hb] at hk
    exact hmask _ (byte_lane_lt hk)

/-- With no element enabled, a memory operand need only be ordinary memory to be readable. -/
theorem countReadable_of_all_masked {f : Form} {o : Operands} {s : State} (hmask : ∀ j < f.lanes, ¬ EnabledLane o s j)
    (hord : ∀ m, o.count = .mem m → ∀ k < countBytes f o.b, Ordinary s (byteAddr (linearAddress f o m s) k)) :
    CountReadable f o s := by
  unfold CountReadable
  split
  next => trivial
  next m hm =>
    exact {
      canonical := fun k hk hacc => absurd hacc (not_accessedByte_of_all_masked hmask hk)
      ordinary := hord m hm
      granted := fun k hk hacc => absurd hacc (not_accessedByte_of_all_masked hmask hk)
      aligned := fun _ _ ⟨j, hj, hen⟩ => absurd hen (hmask j hj) }

/-- A masked-off element of the result is the old one under merging and zero under zeroing, bit by bit (R84, R85). -/
theorem getLsbD_shifted_of_masked {f : Form} {o : Operands} {s : State} {n : Nat} (hn : n < f.vl.bits)
    (hmask : ¬ EnabledLane o s (n / f.elem.bits)) :
    (shifted f o s).getLsbD n = (!o.z && (s.zmmAt o.dest).getLsbD n) := by
  have hlt : n % f.elem.bits < f.elem.bits := Nat.mod_lt _ (elem_bits_pos _)
  have hbit (v : Zmm) : (lane f.elem.bits (n / f.elem.bits) v).getLsbD (n % f.elem.bits) = v.getLsbD n := by
    rw [getLsbD_lane, Nat.div_add_mod, decide_eq_true hlt, Bool.true_and]
  have hoff : ¬ (!o.masked || (s.kAt o.aaa).getLsbD (n / f.elem.bits)) = true :=
    fun hen => hmask ((enabled_iff o s _).1 hen)
  rw [← hbit (shifted f o s), shifted, lane_vsllv f _ _ _ _ _ _ (bit_lane_lt hn), if_neg hoff]
  cases o.z with
  | true => simp
  | false => exact hbit (s.zmmAt o.dest)

/-- Settles O43: no byte is accessed, so the operand is readable wherever it is, and every element is masked off. -/
theorem allMaskedFormsCompleteAnywhere : Obligations.AllMaskedFormsCompleteAnywhere := by
  unfold Obligations.AllMaskedFormsCompleteAnywhere
  intro i s havail hlegal haaa hmask hord
  have hoff : ∀ j < i.form.lanes, ¬ EnabledLane (operandsOf i) s j := by
    rintro j hj (h | h)
    · exact haaa h
    · exact absurd ((hmask j hj).symm.trans h) (by decide)
  refine ⟨shifted i.form (operandsOf i) s,
    exec_of_countReadable havail hlegal (countReadable_of_all_masked hoff hord),
    fun n hn => getLsbD_shifted_of_masked hn (hoff _ (bit_lane_lt hn)), fun n hn => vsllv_high i.form _ _ _ _ _ _ hn⟩

end Sys2Proof.Machine
end

section
/-! PROOFS. The decoder and the encoder of the family (30_encoding.md R54 to R73): what each part of the decoder takes is what the
encoder writes, and when the decoder answers with an instruction. -/

namespace Sys2Proof

/-! ### ModRM, SIB, displacement (R62 to R64) -/

theorem bytes32_le32 (b0 b1 b2 b3 : Byte) : bytes32 (le32 b0 b1 b2 b3) = [b0, b1, b2, b3] := by
  simp only [bytes32, le32, List.cons.injEq, and_true]
  refine ⟨?_, ?_, ?_, ?_⟩
  all_goals
    apply BitVec.eq_of_getLsbD_eq
    intro i hi
    simp only [BitVec.getLsbD_extractLsb', BitVec.getLsbD_append, hi, decide_true, Bool.true_and]
    grind

theorem packFields_extract (m : Byte) :
    packFields (m.extractLsb' 6 2) (m.extractLsb' 3 3) (m.extractLsb' 0 3) = m := by
  revert m; decide

theorem takeD32_some {bs rest : List Byte} {d : BitVec 32} (h : takeD32 bs = some (d, rest)) : bs = bytes32 d ++ rest := by
  unfold takeD32 at h
  split at h
  · cases h
    rw [bytes32_le32]
    rfl
  · cases h

theorem mod_eq_two {mod : BitVec 2} (h0 : mod ≠ 0#2) (h1 : mod ≠ 1#2) (h3 : mod ≠ 3#2) : mod = 2#2 := by
  revert mod; decide

/-- The displacement that is taken is encoded by `mod` and the bytes taken. -/
theorem takeDisp_some {mod : BitVec 2} {bs rest : List Byte} {d : Disp} (hmod : mod ≠ 3#2)
    (h : takeDisp mod bs = some (d, rest)) : mod = d.mod ∧ bs = d.bytes ++ rest := by
  unfold takeDisp at h
  split_ifs at h with h0 h1
  · cases h
    exact ⟨h0, rfl⟩
  · split at h
    · cases h
      exact ⟨h1, rfl⟩
    · cases h
  · obtain ⟨⟨d', rest'⟩, hd, he⟩ := Option.map_eq_some_iff.1 h
    cases he
    exact ⟨mod_eq_two h0 h1 hmod, takeD32_some hd⟩

theorem Disp.fits_of_not {d : Disp} {low : BitVec 3} (h : ¬ (d.mod = 0#2 ∧ low = 5#3)) : d.fits low = true := by
  cases d with
  | none => simpa [Disp.fits, Disp.mod] using h
  | d8 d => rfl
  | d32 d => rfl

theorem low3_ofBool_append (b : Bool) (low : BitVec 3) : (BitVec.ofBool b ++ low).extractLsb' 0 3 = low := by
  revert b low; decide

/-- A SIB byte and what follows it, after a ModRM byte whose `r/m` is 100: the encoding of the operand taken. -/
theorem takeSib_some {x b : Bool} {mod : BitVec 2} {bs rest : List Byte} {m : MemOperand} (hmod : mod ≠ 3#2)
    (h : takeSib x b mod bs = some (m, rest)) (reg : BitVec 3) :
    packFields mod reg 4#3 :: bs = encodeModRm reg (.mem m) ++ rest ∧ m.wf = true := by
  cases bs with
  | nil => cases h
  | cons sib bs =>
    simp only [takeSib] at h
    split_ifs at h with hbase
    · obtain ⟨⟨d, rest'⟩, hd, he⟩ := Option.map_eq_some_iff.1 h
      cases he
      obtain ⟨rfl, hlow⟩ := hbase
      have hsib : packFields (sib.extractLsb' 6 2) (sib.extractLsb' 3 3) 5#3 = sib := hlow ▸ packFields_extract sib
      exact ⟨by simp [encodeModRm, low3_ofBool_append, hsib, takeD32_some hd], rfl⟩
    · obtain ⟨⟨d, rest'⟩, hd, he⟩ := Option.map_eq_some_iff.1 h
      cases he
      obtain ⟨rfl, rfl⟩ := takeDisp_some hmod hd
      refine ⟨by simp [encodeModRm, low3_ofBool_append, packFields_extract], ?_⟩
      simp only [MemOperand.wf, low3_ofBool_append]
      exact Disp.fits_of_not hbase

/-- The ModRM byte and what belongs to it are the encoding of what is taken, and a memory operand is well formed. -/
theorem takeModRm_some {x b : Bool} {bs rest : List Byte} {reg : BitVec 3} {rm : RmField}
    (h : takeModRm x b bs = some (reg, rm, rest)) :
    bs = encodeModRm reg rm ++ rest ∧ ∀ m, rm = .mem m → m.wf = true := by
  cases bs with
  | nil => cases h
  | cons modrm bs =>
    have hpack := packFields_extract modrm
    simp only [takeModRm] at h
    split_ifs at h with hreg hsib hrip
    · cases h
      rw [hreg] at hpack
      exact ⟨by simp [encodeModRm, hpack], fun m hm => by cases hm⟩
    · obtain ⟨⟨m, rest'⟩, hm, he⟩ := Option.map_eq_some_iff.1 h
      cases he
      obtain ⟨hbytes, hwf⟩ := takeSib_some hreg hm (modrm.extractLsb' 3 3)
      rw [hsib] at hpack
      exact ⟨by rw [← hbytes, hpack], fun m' hm' => by cases hm'; exact hwf⟩
    · obtain ⟨⟨d, rest'⟩, hd, he⟩ := Option.map_eq_some_iff.1 h
      cases he
      rw [hrip.1, hrip.2] at hpack
      exact ⟨by simp [encodeModRm, hpack, takeD32_some hd], fun m' hm' => by cases hm'; rfl⟩
    · obtain ⟨⟨d, rest'⟩, hd, he⟩ := Option.map_eq_some_iff.1 h
      cases he
      obtain ⟨hmod, rfl⟩ := takeDisp_some hreg hd
      refine ⟨by simp [encodeModRm, low3_ofBool_append, ← hmod, hpack], fun m' hm' => ?_⟩
      cases hm'
      rw [hmod] at hrip
      simp only [MemOperand.wf, low3_ofBool_append, Bool.and_eq_true, bne_iff_ne]
      exact ⟨hsib, Disp.fits_of_not hrip⟩

/-- Whether the `r/m` field names memory. -/
def RmField.isMemory : RmField → Bool
  | .reg _ => false
  | .mem _ => true

/-- The operand is memory exactly where `mod` is not 11 (R62). -/
theorem isMemory_of_takeModRm {x b : Bool} {modrm : Byte} {bs rest : List Byte} {reg : BitVec 3} {rm : RmField}
    (h : takeModRm x b (modrm :: bs) = some (reg, rm, rest)) : rm.isMemory = true ↔ modrm.extractLsb' 6 2 ≠ 3#2 := by
  simp only [takeModRm] at h
  split_ifs at h with hreg
  · cases h
    exact iff_of_false Bool.false_ne_true (not_not_intro hreg)
  all_goals
    obtain ⟨_, -, he⟩ := Option.map_eq_some_iff.1 h
    cases he
    exact iff_of_true rfl hreg

theorem takeD32_of_length {bs : List Byte} (h : 4 ≤ bs.length) : ∃ r, takeD32 bs = some r := by
  match bs, h with
  | b0 :: b1 :: b2 :: b3 :: rest, _ => exact ⟨_, rfl⟩

theorem takeDisp_of_length (mod : BitVec 2) {bs : List Byte} (h : 4 ≤ bs.length) : ∃ r, takeDisp mod bs = some r := by
  obtain ⟨r, hr⟩ := takeD32_of_length h
  unfold takeDisp
  split_ifs
  · exact ⟨_, rfl⟩
  · cases bs with
    | nil => cases h
    | cons b bs => exact ⟨_, rfl⟩
  · exact ⟨_, by rw [hr]; rfl⟩

theorem takeSib_of_length (x b : Bool) (mod : BitVec 2) {bs : List Byte} (h : 5 ≤ bs.length) :
    ∃ r, takeSib x b mod bs = some r := by
  cases bs with
  | nil => cases h
  | cons sib bs =>
    have hlen : 4 ≤ bs.length := Nat.le_of_succ_le_succ h
    obtain ⟨r, hr⟩ := takeD32_of_length hlen
    obtain ⟨q, hq⟩ := takeDisp_of_length mod hlen
    simp only [takeSib, hr, hq]
    split_ifs <;> exact ⟨_, rfl⟩

/-- After a ModRM byte at most a SIB byte and four displacement bytes belong to the operand (R70). -/
theorem takeModRm_of_length (x b : Bool) (modrm : Byte) {bs : List Byte} (h : 5 ≤ bs.length) :
    ∃ reg rm rest, takeModRm x b (modrm :: bs) = some (reg, rm, rest) := by
  obtain ⟨r, hr⟩ := takeD32_of_length (bs := bs) (by omega)
  obtain ⟨q, hq⟩ := takeDisp_of_length (modrm.extractLsb' 6 2) (bs := bs) (by omega)
  obtain ⟨t, ht⟩ := takeSib_of_length x b (modrm.extractLsb' 6 2) h
  simp only [takeModRm, hr, hq, ht]
  split_ifs <;> exact ⟨_, _, _, rfl⟩

/-! ### The instructions by their forms -/

@[simp] theorem vexInstr_args (w l : Bool) (a : VexArgs) : (vexInstr w l a).args = .vex a := by
  cases w <;> cases l <;> rfl

@[simp] theorem evexInstr_args (e : Elem) (vl : VLen) (a : EvexArgs) : (evexInstr e vl a).args = .evex a := by
  cases e <;> cases vl <;> rfl

/-- The form of the VEX instruction that `W` and `L` select (R67). -/
def vexForm (w l : Bool) : Form := ⟨false, if w then .qword else .dword, if l then .v256 else .v128⟩

theorem vexForm_inj {w l w' l' : Bool} : vexForm w l = vexForm w' l' ↔ w = w' ∧ l = l' := by
  revert w l w' l'; decide

theorem vexInstr_form (w l : Bool) (a : VexArgs) : (vexInstr w l a).form = vexForm w l := by
  cases w <;> cases l <;> rfl

theorem evexInstr_form (e : Elem) (vl : VLen) (a : EvexArgs) : (evexInstr e vl a).form = ⟨true, e, vl⟩ := by
  cases e <;> cases vl <;> rfl

@[simp] theorem vexInstr_prefixes (w l : Bool) (a : VexArgs) : (vexInstr w l a).prefixes = a.prefixes := by
  simp [Instr.prefixes]

@[simp] theorem evexInstr_prefixes (e : Elem) (vl : VLen) (a : EvexArgs) : (evexInstr e vl a).prefixes = a.prefixes := by
  simp [Instr.prefixes]

@[simp] theorem vexInstr_length (w l : Bool) (a : VexArgs) : (vexInstr w l a).length = a.length := by
  simp [Instr.length]

@[simp] theorem evexInstr_length (e : Elem) (vl : VLen) (a : EvexArgs) : (evexInstr e vl a).length = a.length := by
  simp [Instr.length]

/-- Each of the thirteen forms is a VEX form of some `W` and `L`, or an EVEX form of some element width and vector length. -/
theorem Instr.eq_vexInstr_or_evexInstr (i : Instr) :
    (∃ w l a, i = vexInstr w l a) ∨ (∃ e vl a, i = evexInstr e vl a) := by
  cases i with
  | vpsllvdVex128 a => exact .inl ⟨false, false, a, rfl⟩
  | vpsllvqVex128 a => exact .inl ⟨true, false, a, rfl⟩
  | vpsllvdVex256 a => exact .inl ⟨false, true, a, rfl⟩
  | vpsllvqVex256 a => exact .inl ⟨true, true, a, rfl⟩
  | vpsllvwEvex128 a => exact .inr ⟨.word, .v128, a, rfl⟩
  | vpsllvwEvex256 a => exact .inr ⟨.word, .v256, a, rfl⟩
  | vpsllvwEvex512 a => exact .inr ⟨.word, .v512, a, rfl⟩
  | vpsllvdEvex128 a => exact .inr ⟨.dword, .v128, a, rfl⟩
  | vpsllvdEvex256 a => exact .inr ⟨.dword, .v256, a, rfl⟩
  | vpsllvdEvex512 a => exact .inr ⟨.dword, .v512, a, rfl⟩
  | vpsllvqEvex128 a => exact .inr ⟨.qword, .v128, a, rfl⟩
  | vpsllvqEvex256 a => exact .inr ⟨.qword, .v256, a, rfl⟩
  | vpsllvqEvex512 a => exact .inr ⟨.qword, .v512, a, rfl⟩

theorem illegalFields_eq_none_iff (e : Elem) (z b : Bool) (aaa : BitVec 3) (memory : Bool) :
    illegalFields e z b aaa memory = none ↔ ¬ (z = true ∧ aaa = 0#3) ∧ (b = true → e ≠ .word ∧ memory = true) := by
  unfold illegalFields
  split_ifs <;> simp_all

/-- R72 on the fields of an EVEX form, as the decoder tests them. -/
theorem EvexArgs.legal_iff (e : Elem) (a : EvexArgs) {memory : Bool} (hm : memory = true ↔ ∃ m, a.count = .mem m) :
    a.legal e = true ↔ illegalFields e a.z a.b a.aaa memory = none := by
  rw [illegalFields_eq_none_iff, hm]
  cases hc : a.count <;> simp [EvexArgs.legal, hc, imp_iff_not_or]

/-! ### VEX forms (R58, R65) -/

/-- The count operand of a VEX form that the `r/m` field and the bit B name (R65). -/
def RmField.vexCount (b : Bool) : RmField → Count 4
  | .reg r => .reg (BitVec.ofBool b ++ r)
  | .mem m => .mem m

/-- The operands of a VEX form from the bytes before its opcode and what the ModRM byte gives (R58, R65). -/
def vexArgs (ps : List LegacyPrefix) (p1 p2 : Byte) (reg : BitVec 3) (rm : RmField) : VexArgs where
  prefixes := ps
  dest := BitVec.ofBool (!bitOf p1 7) ++ reg
  src1 := ~~~ p2.extractLsb' 3 4
  count := rm.vexCount (!bitOf p1 5)

/-- The fixed fields of a VEX form: map 0F38, pp = 66, opcode 47 (R67). -/
structure VexFields (p1 p2 opcode : Byte) : Prop where
  map : p1.extractLsb' 0 5 = 2#5
  pp : p2.extractLsb' 0 2 = 1#2
  opcode : opcode = 0x47#8

theorem decodeVex_of_fields {ps : List LegacyPrefix} {p1 p2 opcode : Byte} {bs rest : List Byte} {reg : BitVec 3} {rm : RmField}
    (hf : VexFields p1 p2 opcode) (hm : takeModRm (!bitOf p1 6) (!bitOf p1 5) bs = some (reg, rm, rest)) :
    decodeVex ps (p1 :: p2 :: opcode :: bs) =
      .ok (vexInstr (bitOf p2 7) (bitOf p2 2) (vexArgs ps p1 p2 reg rm)) rest := by
  obtain ⟨hmap, hpp, rfl⟩ := hf
  simp only [decodeVex, hmap, hpp, and_self, if_true, hm]
  rfl

theorem decodeVex_of_not_fields {ps : List LegacyPrefix} {p1 p2 opcode : Byte} {bs : List Byte}
    (hf : ¬ VexFields p1 p2 opcode) : decodeVex ps (p1 :: p2 :: opcode :: bs) = .notInFamily := by
  rw [decodeVex, if_neg fun h => hf ⟨h.1, h.2.1, h.2.2⟩]

theorem decodeVex_ok {ps : List LegacyPrefix} {bs rest : List Byte} {i : Instr} (h : decodeVex ps bs = .ok i rest) :
    ∃ p1 p2 opcode bs' reg rm, bs = p1 :: p2 :: opcode :: bs' ∧ VexFields p1 p2 opcode ∧
      takeModRm (!bitOf p1 6) (!bitOf p1 5) bs' = some (reg, rm, rest) ∧
      i = vexInstr (bitOf p2 7) (bitOf p2 2) (vexArgs ps p1 p2 reg rm) := by
  match bs with
  | [] | [_] | [_, _] => cases h
  | p1 :: p2 :: opcode :: bs =>
    by_cases hf : VexFields p1 p2 opcode
    · cases hm : takeModRm (!bitOf p1 6) (!bitOf p1 5) bs with
      | none =>
        obtain ⟨hmap, hpp, rfl⟩ := hf
        simp [decodeVex, hmap, hpp, hm] at h
      | some r =>
        obtain ⟨reg, rm, rest'⟩ := r
        rw [decodeVex_of_fields hf hm] at h
        cases h
        exact ⟨p1, p2, opcode, bs, reg, rm, rfl, hf, hm, rfl⟩
    · rw [decodeVex_of_not_fields hf] at h
      cases h

/-! ### EVEX forms (R60, R66, R72) -/

/-- The fixed fields of an EVEX form, and its element width and vector length (R60, R67). -/
structure EvexFields (p0 p1 p2 opcode : Byte) (e : Elem) (vl : VLen) : Prop where
  reserved0 : p0.extractLsb' 2 2 = 0#2
  reserved1 : bitOf p1 2 = true
  map : p0.extractLsb' 0 2 = 2#2
  pp : p1.extractLsb' 0 2 = 1#2
  elem : evexElem opcode (bitOf p1 7) = some e
  length : evexLength (p2.extractLsb' 5 2) = some vl

section Evex

variable {ps : List LegacyPrefix} {p0 p1 p2 opcode : Byte} {bs rest : List Byte} {e : Elem} {vl : VLen} {reg : BitVec 3}
  {rm : RmField}

/-- With the fixed fields and the operand read, the answer rests on `z`, `aaa` and `b` (R72). -/
theorem decodeEvex_eq_elim (hf : EvexFields p0 p1 p2 opcode e vl)
    (hm : takeModRm (!bitOf p0 6) (!bitOf p0 5) bs = some (reg, rm, rest)) :
    decodeEvex ps (p0 :: p1 :: p2 :: opcode :: bs) =
      (illegalFields e (bitOf p2 7) (bitOf p2 4) (p2.extractLsb' 0 3) rm.isMemory).elim
        (.ok (evexInstr e vl (evexArgs ps p0 p1 p2 reg rm)) rest) .undefined := by
  obtain ⟨hr0, hr1, hmap, hpp, helem, hlen⟩ := hf
  rw [decodeEvex, if_neg (by simp [hr0, hr1]), if_neg (by simp [hmap, hpp]), helem, hlen, hm]
  cases rm with
  | reg r => cases hl : illegalFields e (bitOf p2 7) (bitOf p2 4) (p2.extractLsb' 0 3) false <;> simp [RmField.isMemory, hl]
  | mem m => cases hl : illegalFields e (bitOf p2 7) (bitOf p2 4) (p2.extractLsb' 0 3) true <;> simp [RmField.isMemory, hl]

theorem decodeEvex_of_fields (hf : EvexFields p0 p1 p2 opcode e vl)
    (hm : takeModRm (!bitOf p0 6) (!bitOf p0 5) bs = some (reg, rm, rest))
    (hl : illegalFields e (bitOf p2 7) (bitOf p2 4) (p2.extractLsb' 0 3) rm.isMemory = none) :
    decodeEvex ps (p0 :: p1 :: p2 :: opcode :: bs) = .ok (evexInstr e vl (evexArgs ps p0 p1 p2 reg rm)) rest := by
  rw [decodeEvex_eq_elim hf hm, hl, Option.elim_none]

theorem decodeEvex_of_illegalFields {why : UdReason} (hf : EvexFields p0 p1 p2 opcode e vl)
    (hm : takeModRm (!bitOf p0 6) (!bitOf p0 5) bs = some (reg, rm, rest))
    (hl : illegalFields e (bitOf p2 7) (bitOf p2 4) (p2.extractLsb' 0 3) rm.isMemory = some why) :
    decodeEvex ps (p0 :: p1 :: p2 :: opcode :: bs) = .undefined why := by
  rw [decodeEvex_eq_elim hf hm, hl, Option.elim_some]

theorem decodeEvex_of_reserved (h : p0.extractLsb' 2 2 ≠ 0#2 ∨ bitOf p1 2 = false) :
    decodeEvex ps (p0 :: p1 :: p2 :: opcode :: bs) = .undefined .reservedEvexBits := by
  rw [decodeEvex, if_pos h]

/-- Bytes of another map, another pp or another opcode (R68, R73). -/
theorem decodeEvex_of_notInFamily (h0 : p0.extractLsb' 2 2 = 0#2) (h1 : bitOf p1 2 = true)
    (h : p0.extractLsb' 0 2 ≠ 2#2 ∨ p1.extractLsb' 0 2 ≠ 1#2 ∨ evexElem opcode (bitOf p1 7) = none) :
    decodeEvex ps (p0 :: p1 :: p2 :: opcode :: bs) = .notInFamily := by
  rw [decodeEvex, if_neg (by simp [h0, h1])]
  split
  next => rfl
  next hfamily =>
    rw [not_or, not_not, not_not] at hfamily
    obtain h | h | h := h
    · exact absurd hfamily.1 h
    · exact absurd hfamily.2 h
    · rw [h]

theorem decodeEvex_of_vectorLength (h0 : p0.extractLsb' 2 2 = 0#2) (h1 : bitOf p1 2 = true)
    (hmap : p0.extractLsb' 0 2 = 2#2) (hpp : p1.extractLsb' 0 2 = 1#2) (helem : evexElem opcode (bitOf p1 7) = some e)
    (hlen : evexLength (p2.extractLsb' 5 2) = none) :
    decodeEvex ps (p0 :: p1 :: p2 :: opcode :: bs) = .undefined .vectorLength := by
  rw [decodeEvex, if_neg (by simp [h0, h1]), if_neg (by simp [hmap, hpp]), helem, hlen]

theorem decodeEvex_ok {i : Instr} (h : decodeEvex ps bs = .ok i rest) :
    ∃ p0 p1 p2 opcode bs' e vl reg rm, bs = p0 :: p1 :: p2 :: opcode :: bs' ∧ EvexFields p0 p1 p2 opcode e vl ∧
      takeModRm (!bitOf p0 6) (!bitOf p0 5) bs' = some (reg, rm, rest) ∧
      illegalFields e (bitOf p2 7) (bitOf p2 4) (p2.extractLsb' 0 3) rm.isMemory = none ∧
      i = evexInstr e vl (evexArgs ps p0 p1 p2 reg rm) := by
  unfold decodeEvex at h
  split at h
  next p0 p1 p2 opcode bs =>
    split_ifs at h with hreserved hfamily
    simp only [not_or, not_not, Bool.not_eq_false] at hreserved hfamily
    split at h
    next => cases h
    next e helem =>
      split at h
      next => cases h
      next vl hlen =>
        split at h
        next => cases h
        next reg rm rest' hm =>
          simp only at h
          split at h
          next => cases h
          next hl =>
            cases h
            refine ⟨p0, p1, p2, opcode, bs, e, vl, reg, rm, rfl, ⟨hreserved.1, hreserved.2, hfamily.1, hfamily.2, helem, hlen⟩,
              hm, ?_, rfl⟩
            cases rm <;> exact hl
  next => cases h

end Evex

end Sys2Proof
end

section
/-! PROOFS. Whole encodings (30_encoding.md R55 to R67): the legacy prefixes, the bytes the encoder writes, and what `decode`
answers behind them. -/

namespace Sys2Proof

/-! ### Legacy prefixes (R57) -/

theorem legalPrefix_some {b : Byte} {p : LegacyPrefix} (h : legalPrefix b = some p) : b = p.byte := by
  unfold legalPrefix at h
  split_ifs at h <;> cases h <;> assumption

/-- The bytes in front are the legal prefixes in order, where no illegal one stands among them. -/
theorem eq_of_splitPrefixes {bs : List Byte} (h : (splitPrefixes bs).2.1 = false) :
    bs = (splitPrefixes bs).1.map LegacyPrefix.byte ++ (splitPrefixes bs).2.2 := by
  induction bs with
  | nil => rfl
  | cons b bs ih =>
    simp only [splitPrefixes] at h ⊢
    split at h
    next p hp =>
      simp only [List.map_cons, List.cons_append, ← legalPrefix_some hp, ← ih h]
    next => split_ifs at h ⊢; rfl

/-- Behind legal prefixes, a byte that is none begins the instruction. -/
theorem decode_of_prefixes (ps : List LegacyPrefix) {b : Byte} (bs : List Byte) (h1 : legalPrefix b = none)
    (h2 : isIllegalPrefix b = false) : decode (ps.map LegacyPrefix.byte ++ b :: bs) = decodeEscape ps (b :: bs) := by
  simp only [decode, splitPrefixes_encode ps b bs h1 h2]
  cases decodeEscape ps (b :: bs) <;> rfl

theorem decode_vex (ps : List LegacyPrefix) (bs : List Byte) :
    decode (ps.map LegacyPrefix.byte ++ 0xC4#8 :: bs) = decodeVex ps bs := decode_of_prefixes ps bs rfl rfl

theorem decode_evex (ps : List LegacyPrefix) (bs : List Byte) :
    decode (ps.map LegacyPrefix.byte ++ 0x62#8 :: bs) = decodeEvex ps bs := decode_of_prefixes ps bs rfl rfl

theorem decodeVex_prefixes {ps : List LegacyPrefix} {bs rest : List Byte} {i : Instr} (h : decodeVex ps bs = .ok i rest) :
    i.prefixes = ps := by
  obtain ⟨p1, p2, opcode, bs', reg, rm, -, -, -, rfl⟩ := decodeVex_ok h
  exact vexInstr_prefixes _ _ _

theorem decodeEvex_prefixes {ps : List LegacyPrefix} {bs rest : List Byte} {i : Instr} (h : decodeEvex ps bs = .ok i rest) :
    i.prefixes = ps := by
  obtain ⟨p0, p1, p2, opcode, bs', e, vl, reg, rm, -, -, -, -, rfl⟩ := decodeEvex_ok h
  exact evexInstr_prefixes _ _ _

/-- An answer with an instruction comes from the bytes behind the prefixes, with none illegal before an escape byte. -/
theorem decodeEscape_of_decode_ok {bs rest : List Byte} {i : Instr} (h : decode bs = .ok i rest) :
    decodeEscape (splitPrefixes bs).1 (splitPrefixes bs).2.2 = .ok i rest ∧
      ((splitPrefixes bs).2.1 && startsWithEscape (splitPrefixes bs).2.2) = false := by
  unfold decode at h
  generalize hd : decodeEscape (splitPrefixes bs).1 (splitPrefixes bs).2.2 = d at h ⊢
  cases hi : (splitPrefixes bs).2.1 && startsWithEscape (splitPrefixes bs).2.2 with
  | false => cases d <;> simp_all
  | true => cases d <;> simp_all

theorem decodeEscape_ok {ps : List LegacyPrefix} {bs rest : List Byte} {i : Instr} (h : decodeEscape ps bs = .ok i rest) :
    ∃ tail, (bs = 0xC4#8 :: tail ∧ decodeVex ps tail = .ok i rest) ∨
      (bs = 0x62#8 :: tail ∧ decodeEvex ps tail = .ok i rest) := by
  cases bs with
  | nil => cases h
  | cons b bs =>
    simp only [decodeEscape] at h
    split_ifs at h with hvex hevex
    · exact ⟨bs, .inl ⟨by rw [hvex], h⟩⟩
    · exact ⟨bs, .inr ⟨by rw [hevex], h⟩⟩

/-- Bytes that decode are an instruction's legal prefixes, an escape byte and a VEX or EVEX form (R55). -/
theorem decode_ok {bs rest : List Byte} {i : Instr} (h : decode bs = .ok i rest) :
    ∃ ps tail, i.prefixes = ps ∧
      ((bs = ps.map LegacyPrefix.byte ++ 0xC4#8 :: tail ∧ decodeVex ps tail = .ok i rest) ∨
        (bs = ps.map LegacyPrefix.byte ++ 0x62#8 :: tail ∧ decodeEvex ps tail = .ok i rest)) := by
  obtain ⟨hescape, hill⟩ := decodeEscape_of_decode_ok h
  have hbytes := eq_of_splitPrefixes (bs := bs)
  obtain ⟨tail, ⟨htail, hd⟩ | ⟨htail, hd⟩⟩ := decodeEscape_ok hescape
  · rw [htail] at hill hbytes
    exact ⟨_, tail, decodeVex_prefixes hd, .inl ⟨hbytes (by simpa [startsWithEscape] using hill), hd⟩⟩
  · rw [htail] at hill hbytes
    exact ⟨_, tail, decodeEvex_prefixes hd, .inr ⟨hbytes (by simpa [startsWithEscape] using hill), hd⟩⟩

theorem decode_cons_vex (bs : List Byte) : decode (0xC4#8 :: bs) = decodeVex [] bs := decode_vex [] bs

theorem decode_cons_evex (bs : List Byte) : decode (0x62#8 :: bs) = decodeEvex [] bs := decode_evex [] bs

theorem decode_ok_of_no_prefixes {bs rest : List Byte} {i : Instr} (h : decode bs = .ok i rest) (hps : i.prefixes = []) :
    ∃ tail, (bs = 0xC4#8 :: tail ∧ decodeVex [] tail = .ok i rest) ∨
      (bs = 0x62#8 :: tail ∧ decodeEvex [] tail = .ok i rest) := by
  obtain ⟨ps, tail, hi, hd⟩ := decode_ok h
  rw [hps] at hi
  subst hi
  exact ⟨tail, hd⟩

/-! ### The escape byte and payload of the encoder (R58, R60) -/

/-- The first byte after `C4`, from its fields before inversion (R58). -/
def vexP1 (r x b : Bool) : Byte := BitVec.ofBool (!r) ++ BitVec.ofBool (!x) ++ BitVec.ofBool (!b) ++ 2#5

/-- The second byte after `C4`. -/
def vexP2 (w : Bool) (vvvv : BitVec 4) (l : Bool) : Byte := BitVec.ofBool w ++ ~~~ vvvv ++ BitVec.ofBool l ++ 1#2

theorem vexPrefix_eq (r x b w : Bool) (vvvv : BitVec 4) (l : Bool) :
    vexPrefix r x b w vvvv l = [0xC4#8, vexP1 r x b, vexP2 w vvvv l] := rfl

theorem vexP1_fields (r x b : Bool) : (vexP1 r x b).extractLsb' 0 5 = 2#5 ∧ bitOf (vexP1 r x b) 7 = !r ∧
    bitOf (vexP1 r x b) 6 = !x ∧ bitOf (vexP1 r x b) 5 = !b := by
  revert r x b; decide

theorem vexP2_fields (w : Bool) (vvvv : BitVec 4) (l : Bool) : (vexP2 w vvvv l).extractLsb' 0 2 = 1#2 ∧
    bitOf (vexP2 w vvvv l) 7 = w ∧ bitOf (vexP2 w vvvv l) 2 = l ∧ ~~~ (vexP2 w vvvv l).extractLsb' 3 4 = vvvv := by
  revert w vvvv l; decide

/-- The first byte after `62`, from its fields before inversion (R60). -/
def evexP0 (r x b r' : Bool) : Byte :=
  BitVec.ofBool (!r) ++ BitVec.ofBool (!x) ++ BitVec.ofBool (!b) ++ BitVec.ofBool (!r') ++ 0#2 ++ 2#2

/-- The second byte after `62`. -/
def evexP1 (w : Bool) (vvvv : BitVec 4) : Byte := BitVec.ofBool w ++ ~~~ vvvv ++ 1#1 ++ 1#2

/-- The third byte after `62`. -/
def evexP2 (z : Bool) (ll : BitVec 2) (bc v' : Bool) (aaa : BitVec 3) : Byte :=
  BitVec.ofBool z ++ ll ++ BitVec.ofBool bc ++ BitVec.ofBool (!v') ++ aaa

theorem evexPrefix_eq (r x b r' w : Bool) (vvvv : BitVec 4) (z : Bool) (ll : BitVec 2) (bc v' : Bool) (aaa : BitVec 3) :
    evexPrefix r x b r' w vvvv z ll bc v' aaa = [0x62#8, evexP0 r x b r', evexP1 w vvvv, evexP2 z ll bc v' aaa] := rfl

theorem evexP0_fields (r x b r' : Bool) : (evexP0 r x b r').extractLsb' 2 2 = 0#2 ∧ (evexP0 r x b r').extractLsb' 0 2 = 2#2 ∧
    bitOf (evexP0 r x b r') 7 = !r ∧ bitOf (evexP0 r x b r') 6 = !x ∧ bitOf (evexP0 r x b r') 5 = !b ∧
    bitOf (evexP0 r x b r') 4 = !r' := by
  revert r x b r'; decide

theorem evexP1_fields (w : Bool) (vvvv : BitVec 4) : (evexP1 w vvvv).extractLsb' 0 2 = 1#2 ∧ bitOf (evexP1 w vvvv) 2 = true ∧
    bitOf (evexP1 w vvvv) 7 = w ∧ ~~~ (evexP1 w vvvv).extractLsb' 3 4 = vvvv := by
  revert w vvvv; decide

theorem evexP2_fields (z : Bool) (ll : BitVec 2) (bc v' : Bool) (aaa : BitVec 3) :
    bitOf (evexP2 z ll bc v' aaa) 7 = z ∧ (evexP2 z ll bc v' aaa).extractLsb' 5 2 = ll ∧ bitOf (evexP2 z ll bc v' aaa) 4 = bc ∧
    bitOf (evexP2 z ll bc v' aaa) 3 = !v' ∧ (evexP2 z ll bc v' aaa).extractLsb' 0 3 = aaa := by
  revert z ll bc v' aaa; decide

/-! ### The encoder by forms (R55, R67) -/

/-- The count operand of an EVEX form that the `r/m` field and the bits X and B name (R66). -/
def RmField.evexCount (x b : Bool) : RmField → Count 5
  | .reg r => .reg (BitVec.ofBool x ++ BitVec.ofBool b ++ r)
  | .mem m => .mem m

theorem evexArgs_count (ps : List LegacyPrefix) (p0 p1 p2 : Byte) (reg : BitVec 3) (rm : RmField) :
    (evexArgs ps p0 p1 p2 reg rm).count = rm.evexCount (!bitOf p0 6) (!bitOf p0 5) := by
  cases rm <;> rfl

/-- The opcode byte of an EVEX form of an element width (R67). -/
def Elem.opcode : Elem → Byte
  | .word => 0x12#8
  | .dword | .qword => 0x47#8

/-- The bit `W` of an EVEX form of an element width (R67). -/
def Elem.wBit : Elem → Bool
  | .dword => false
  | .word | .qword => true

/-- The field `L'L` of a vector length (R60). -/
def VLen.code : VLen → BitVec 2
  | .v128 => 0#2
  | .v256 => 1#2
  | .v512 => 2#2

theorem evexElem_eq_some_iff {opcode : Byte} {w : Bool} {e : Elem} :
    evexElem opcode w = some e ↔ opcode = e.opcode ∧ w = e.wBit := by
  unfold evexElem
  cases e <;> split_ifs <;> simp_all [Elem.opcode, Elem.wBit]

theorem evexLength_eq_some_iff {ll : BitVec 2} {vl : VLen} : evexLength ll = some vl ↔ ll = vl.code := by
  revert ll; cases vl <;> decide

theorem decode_vexPrefix {ps : List LegacyPrefix} {r x b w l : Bool} {vvvv : BitVec 4} {reg : BitVec 3} {rm : RmField}
    {rest : List Byte} (hm : takeModRm x b (encodeModRm reg rm ++ rest) = some (reg, rm, rest)) :
    decode (ps.map LegacyPrefix.byte ++ (vexPrefix r x b w vvvv l ++ 0x47#8 :: encodeModRm reg rm) ++ rest) =
      .ok (vexInstr w l ⟨ps, BitVec.ofBool r ++ reg, vvvv, rm.vexCount b⟩) rest := by
  obtain ⟨hmap, hr, hx, hb⟩ := vexP1_fields r x b
  obtain ⟨hpp, hw, hl, hv⟩ := vexP2_fields w vvvv l
  have hd := decodeVex_of_fields (ps := ps) (p1 := vexP1 r x b) (p2 := vexP2 w vvvv l) ⟨hmap, hpp, rfl⟩
    (by rw [hx, hb, Bool.not_not, Bool.not_not]; exact hm)
  rw [vexPrefix_eq, List.append_assoc]
  simp only [List.cons_append, List.nil_append]
  rw [decode_vex, hd]
  simp only [vexArgs, hr, hb, hw, hl, hv, Bool.not_not]

theorem decode_evexPrefix {ps : List LegacyPrefix} {r x b r' z bc v' : Bool} {vvvv : BitVec 4}
    {aaa reg : BitVec 3} {rm : RmField} {e : Elem} {vl : VLen} {rest : List Byte}
    (hlegal : illegalFields e z bc aaa rm.isMemory = none)
    (hm : takeModRm x b (encodeModRm reg rm ++ rest) = some (reg, rm, rest)) :
    decode (ps.map LegacyPrefix.byte ++
        (evexPrefix r x b r' e.wBit vvvv z vl.code bc v' aaa ++ e.opcode :: encodeModRm reg rm) ++ rest) =
      .ok (evexInstr e vl ⟨ps, BitVec.ofBool r' ++ BitVec.ofBool r ++ reg, BitVec.ofBool v' ++ vvvv, rm.evexCount x b, aaa, z, bc⟩)
        rest := by
  obtain ⟨h0, hmap, hr, hx, hb, hr'⟩ := evexP0_fields r x b r'
  obtain ⟨hpp, h1, hw, hvvvv⟩ := evexP1_fields e.wBit vvvv
  obtain ⟨hz, hll, hbc, hv', haaa⟩ := evexP2_fields z vl.code bc v' aaa
  have hd := decodeEvex_of_fields (ps := ps) (p0 := evexP0 r x b r') (p1 := evexP1 e.wBit vvvv) (p2 := evexP2 z vl.code bc v' aaa)
    ⟨h0, h1, hmap, hpp, evexElem_eq_some_iff.2 ⟨rfl, hw⟩, evexLength_eq_some_iff.2 hll⟩
    (by rw [hx, hb, Bool.not_not, Bool.not_not]; exact hm) (by rw [hz, hbc, haaa]; exact hlegal)
  have hargs : evexArgs ps (evexP0 r x b r') (evexP1 e.wBit vvvv) (evexP2 z vl.code bc v' aaa) reg rm =
      ⟨ps, BitVec.ofBool r' ++ BitVec.ofBool r ++ reg, BitVec.ofBool v' ++ vvvv, rm.evexCount x b, aaa, z, bc⟩ := by
    cases rm <;> simp only [evexArgs, RmField.evexCount, hr, hx, hb, hr', hvvvv, hz, hbc, hv', haaa, Bool.not_not]
  rw [evexPrefix_eq, List.append_assoc]
  simp only [List.cons_append, List.nil_append]
  rw [decode_evex, hd, hargs]

theorem decode_encodeVex (w l : Bool) (a : VexArgs) (rest : List Byte) (hwf : a.count.wf = true) :
    decode (encodeVex w l a ++ rest) = .ok (vexInstr w l a) rest := by
  obtain ⟨ps, dest, src1, count⟩ := a
  cases count with
  | reg c =>
    simpa only [encodeVex, RmField.vexCount, ofBool_append_low3] using
      decode_vexPrefix (ps := ps) (r := dest.getLsbD 3) (w := w) (l := l) (vvvv := src1)
        (takeModRm_encode_reg false (c.getLsbD 3) (dest.extractLsb' 0 3) (c.extractLsb' 0 3) rest)
  | mem m =>
    simpa only [encodeVex, RmField.vexCount, ofBool_append_low3] using
      decode_vexPrefix (ps := ps) (r := dest.getLsbD 3) (w := w) (l := l) (vvvv := src1)
        (takeModRm_encode_mem (dest.extractLsb' 0 3) m hwf rest)

theorem decode_encodeEvex (e : Elem) (vl : VLen) (a : EvexArgs) (rest : List Byte) (hwf : a.count.wf = true)
    (hlegal : a.legal e = true) : decode (encodeEvex e.opcode e.wBit vl.code a ++ rest) = .ok (evexInstr e vl a) rest := by
  obtain ⟨ps, dest, src1, count, aaa, z, bc⟩ := a
  cases count with
  | reg c =>
    simpa only [encodeEvex, RmField.evexCount, ofBool_append_low3_five, ofBool_append_low4] using
      decode_evexPrefix (ps := ps) (r := dest.getLsbD 3) (r' := dest.getLsbD 4) (v' := src1.getLsbD 4)
        (vvvv := src1.extractLsb' 0 4) ((EvexArgs.legal_iff e _ (by simp [RmField.isMemory])).1 hlegal)
        (takeModRm_encode_reg (c.getLsbD 4) (c.getLsbD 3) (dest.extractLsb' 0 3) (c.extractLsb' 0 3) rest)
  | mem m =>
    simpa only [encodeEvex, RmField.evexCount, ofBool_append_low3_five, ofBool_append_low4] using
      decode_evexPrefix (ps := ps) (r := dest.getLsbD 3) (r' := dest.getLsbD 4) (v' := src1.getLsbD 4)
        (vvvv := src1.extractLsb' 0 4) ((EvexArgs.legal_iff e _ (by simp [RmField.isMemory])).1 hlegal)
        (takeModRm_encode_mem (dest.extractLsb' 0 3) m hwf rest)

theorem encode_vexInstr (w l : Bool) (a : VexArgs) : encode (vexInstr w l a) = encodeVex w l a := by
  cases w <;> cases l <;> rfl

theorem encode_evexInstr (e : Elem) (vl : VLen) (a : EvexArgs) :
    encode (evexInstr e vl a) = encodeEvex e.opcode e.wBit vl.code a := by
  cases e <;> cases vl <;> rfl

theorem wf_vexInstr_iff (w l : Bool) (a : VexArgs) : (vexInstr w l a).wf = true ↔ a.length ≤ 15 ∧ a.count.wf = true := by
  simp only [Instr.wf, vexInstr_args, vexInstr_length, Bool.and_eq_true, decide_eq_true_eq, Config.maxInstrBytes]

theorem wf_evexInstr_iff (e : Elem) (vl : VLen) (a : EvexArgs) :
    (evexInstr e vl a).wf = true ↔ a.length ≤ 15 ∧ a.count.wf = true ∧ a.legal e = true := by
  simp only [Instr.wf, evexInstr_args, evexInstr_length, evexInstr_form, Bool.and_eq_true, decide_eq_true_eq, Config.maxInstrBytes]

/-- Settles O1: each form is a VEX or an EVEX form, whose bytes are taken as they were written. -/
theorem decodeInvertsEncode : Obligations.DecodeInvertsEncode := by
  unfold Obligations.DecodeInvertsEncode
  intro i rest hwf
  obtain ⟨w, l, a, rfl⟩ | ⟨e, vl, a, rfl⟩ := i.eq_vexInstr_or_evexInstr
  · obtain ⟨-, hcount⟩ := (wf_vexInstr_iff w l a).1 hwf
    rw [encode_vexInstr, decode_encodeVex w l a rest hcount]
  · obtain ⟨-, hcount, hlegal⟩ := (wf_evexInstr_iff e vl a).1 hwf
    rw [encode_evexInstr, decode_encodeEvex e vl a rest hcount hlegal]

end Sys2Proof
end

section
/-! PROOFS. What the decoder consumes and which bytes it takes for which form (30_encoding.md R55 to R73): lengths and presence
rules, the rows of the opcode map, the illegal encodings and the neighbours of the family. -/

namespace Sys2Proof.Machine

/-! ### The bytes of a decoded instruction (R62 to R64, R70) -/

theorem encodeModRm_length_vex (reg : BitVec 3) (b : Bool) (rm : RmField) :
    (encodeModRm reg rm).length = 1 + (rm.vexCount b).tailLength := by
  rw [encodeModRm_length]
  cases rm <;> rfl

theorem encodeModRm_length_evex (reg : BitVec 3) (x b : Bool) (rm : RmField) :
    (encodeModRm reg rm).length = 1 + (rm.evexCount x b).tailLength := by
  rw [encodeModRm_length]
  cases rm <;> rfl

section Bytes

variable {ps : List LegacyPrefix} {bs rest : List Byte} {i : Instr}

/-- The length of R70 counts the legacy prefixes, the escape byte and the bytes taken after it. -/
theorem decodeVex_ok_bytes (h : decodeVex ps bs = .ok i rest) :
    ∃ head, bs = head ++ rest ∧ i.length = ps.length + 1 + head.length := by
  obtain ⟨p1, p2, opcode, bs', reg, rm, rfl, -, hm, rfl⟩ := decodeVex_ok h
  obtain ⟨rfl, -⟩ := takeModRm_some hm
  refine ⟨p1 :: p2 :: opcode :: encodeModRm reg rm, rfl, ?_⟩
  simp only [vexInstr_length, VexArgs.length, vexArgs, List.length_cons, encodeModRm_length_vex reg (!bitOf p1 5)]
  omega

theorem decodeEvex_ok_bytes (h : decodeEvex ps bs = .ok i rest) :
    ∃ head, bs = head ++ rest ∧ i.length = ps.length + 1 + head.length := by
  obtain ⟨p0, p1, p2, opcode, bs', e, vl, reg, rm, rfl, -, hm, -, rfl⟩ := decodeEvex_ok h
  obtain ⟨rfl, -⟩ := takeModRm_some hm
  refine ⟨p0 :: p1 :: p2 :: opcode :: encodeModRm reg rm, rfl, ?_⟩
  have hps : (evexArgs ps p0 p1 p2 reg rm).prefixes = ps := rfl
  simp only [evexInstr_length, EvexArgs.length, hps, evexArgs_count, List.length_cons,
    encodeModRm_length_evex reg (!bitOf p0 6) (!bitOf p0 5)]
  omega

theorem decodeVex_ok_wf (h : decodeVex ps bs = .ok i rest) (hlen : i.length ≤ 15) : i.wf = true := by
  obtain ⟨p1, p2, opcode, bs', reg, rm, -, -, hm, rfl⟩ := decodeVex_ok h
  obtain ⟨-, hwf⟩ := takeModRm_some hm
  refine (wf_vexInstr_iff ..).2 ⟨by rwa [vexInstr_length] at hlen, ?_⟩
  cases rm with
  | reg r => rfl
  | mem m => exact hwf m rfl

theorem decodeEvex_ok_wf (h : decodeEvex ps bs = .ok i rest) (hlen : i.length ≤ 15) : i.wf = true := by
  obtain ⟨p0, p1, p2, opcode, bs', e, vl, reg, rm, -, -, hm, hlegal, rfl⟩ := decodeEvex_ok h
  obtain ⟨-, hwf⟩ := takeModRm_some hm
  refine (wf_evexInstr_iff ..).2 ⟨by rwa [evexInstr_length] at hlen, ?_, (EvexArgs.legal_iff e _ ?_).2 hlegal⟩
  · cases rm with
    | reg r => rfl
    | mem m => exact hwf m rfl
  · cases rm <;> simp [evexArgs, RmField.isMemory]

/-- The bytes that a decoded instruction was read from are as many as R70 says. -/
theorem decode_ok_bytes (h : decode bs = .ok i rest) : ∃ head, bs = head ++ rest ∧ head.length = i.length := by
  obtain ⟨ps, tail, -, ⟨rfl, hd⟩ | ⟨rfl, hd⟩⟩ := decode_ok h
  · obtain ⟨head, rfl, hlen⟩ := decodeVex_ok_bytes hd
    refine ⟨ps.map LegacyPrefix.byte ++ 0xC4#8 :: head, by rw [List.append_assoc]; rfl, ?_⟩
    rw [List.length_append, List.length_map, List.length_cons]
    omega
  · obtain ⟨head, rfl, hlen⟩ := decodeEvex_ok_bytes hd
    refine ⟨ps.map LegacyPrefix.byte ++ 0x62#8 :: head, by rw [List.append_assoc]; rfl, ?_⟩
    rw [List.length_append, List.length_map, List.length_cons]
    omega

theorem decode_ok_wf (h : decode bs = .ok i rest) (hlen : i.length ≤ 15) : i.wf = true := by
  obtain ⟨ps, tail, -, ⟨-, hd⟩ | ⟨-, hd⟩⟩ := decode_ok h
  · exact decodeVex_ok_wf hd hlen
  · exact decodeEvex_ok_wf hd hlen

end Bytes

/-- Settles O3: the bytes decoded are the instruction's, so it is no longer than they are. -/
theorem decodedTermsAreWellFormed : Obligations.DecodedTermsAreWellFormed := by
  unfold Obligations.DecodedTermsAreWellFormed
  intro bs rest i h hbs
  obtain ⟨head, rfl, hhead⟩ := decode_ok_bytes h
  rw [List.length_append] at hbs
  exact decode_ok_wf h (by omega)

/-- Settles O4: the bytes are the instruction's and those left over. -/
theorem decodeConsumesLength : Obligations.DecodeConsumesLength := by
  unfold Obligations.DecodeConsumesLength
  intro bs rest i h
  obtain ⟨head, rfl, hhead⟩ := decode_ok_bytes h
  exact ⟨by rw [List.length_append, hhead], List.drop_left' hhead⟩

/-! ### The rows of the opcode map (R67) -/

theorem append_eq_append_iff {w v : Nat} {s t : BitVec w} {x y : BitVec v} : s ++ x = t ++ y ↔ s = t ∧ x = y := by
  refine ⟨fun h => ?_, fun ⟨h1, h2⟩ => by rw [h1, h2]⟩
  have hhi := congrArg (BitVec.extractLsb' v w) h
  have hlo := congrArg (BitVec.extractLsb' 0 v) h
  rw [BitVec.extractLsb'_append_eq_left, BitVec.extractLsb'_append_eq_left] at hhi
  rw [BitVec.extractLsb'_append_eq_right, BitVec.extractLsb'_append_eq_right] at hlo
  exact ⟨hhi, hlo⟩

theorem append_and_append_eq_iff {w v : Nat} {s m c : BitVec w} {x n d : BitVec v} :
    (s ++ x) &&& (m ++ n) = c ++ d ↔ s &&& m = c ∧ x &&& n = d := by
  rw [BitVec.and_append, append_eq_append_iff]

theorem five_bytes_and_eq_iff (b0 b1 b2 b3 b4 m0 m1 m2 m3 m4 c0 c1 c2 c3 c4 : Byte) :
    (b0 ++ b1 ++ b2 ++ b3 ++ b4) &&& (m0 ++ m1 ++ m2 ++ m3 ++ m4) = c0 ++ c1 ++ c2 ++ c3 ++ c4 ↔
      (((b0 &&& m0 = c0 ∧ b1 &&& m1 = c1) ∧ b2 &&& m2 = c2) ∧ b3 &&& m3 = c3) ∧ b4 &&& m4 = c4 := by
  rw [append_and_append_eq_iff, append_and_append_eq_iff, append_and_append_eq_iff, append_and_append_eq_iff]

theorem six_bytes_and_eq_iff (b0 b1 b2 b3 b4 b5 m0 m1 m2 m3 m4 m5 c0 c1 c2 c3 c4 c5 : Byte) :
    (b0 ++ b1 ++ b2 ++ b3 ++ b4 ++ b5) &&& (m0 ++ m1 ++ m2 ++ m3 ++ m4 ++ m5) = c0 ++ c1 ++ c2 ++ c3 ++ c4 ++ c5 ↔
      ((((b0 &&& m0 = c0 ∧ b1 &&& m1 = c1) ∧ b2 &&& m2 = c2) ∧ b3 &&& m3 = c3) ∧ b4 &&& m4 = c4) ∧ b5 &&& m5 = c5 := by
  rw [append_and_append_eq_iff, five_bytes_and_eq_iff]

theorem and_ones (b : Byte) : b &&& 0xFF#8 = b := BitVec.and_allOnes

/-- The match bits of the VEX row of `W` and `L` (R67). -/
def vexMatch (w l : Bool) : BitVec 40 := 0xC4#8 ++ 0x02#8 ++ (BitVec.ofBool w ++ 0#4 ++ BitVec.ofBool l ++ 1#2) ++ 0x47#8 ++ 0#8

theorem mem_vexRows {row : Form × BitVec 40} (h : row ∈ vexRows) :
    ∃ w l, row = (vexForm w l, vexMatch w l) := by
  simp only [vexRows, List.mem_cons, List.not_mem_nil, or_false] at h
  obtain rfl | rfl | rfl | rfl := h
  · exact ⟨false, false, rfl⟩
  · exact ⟨true, false, rfl⟩
  · exact ⟨false, true, rfl⟩
  · exact ⟨true, true, rfl⟩

theorem vex_map_mask (b : Byte) : b &&& 0x1F#8 = 0x02#8 ↔ b.extractLsb' 0 5 = 2#5 := by
  revert b; decide

theorem vex_p2_mask (b : Byte) (w l : Bool) : b &&& 0x87#8 = BitVec.ofBool w ++ 0#4 ++ BitVec.ofBool l ++ 1#2 ↔
    b.extractLsb' 0 2 = 1#2 ∧ bitOf b 7 = w ∧ bitOf b 2 = l := by
  revert b w l; decide

/-- Five bytes match a VEX row exactly when they have the fixed fields and the row's `W` and `L`. -/
theorem vexMatch_iff (b0 b1 b2 b3 b4 : Byte) (w l : Bool) :
    (b0 ++ b1 ++ b2 ++ b3 ++ b4) &&& 0xFF1F87FF00#40 = vexMatch w l ↔
      b0 = 0xC4#8 ∧ VexFields b1 b2 b3 ∧ bitOf b2 7 = w ∧ bitOf b2 2 = l := by
  refine (five_bytes_and_eq_iff b0 b1 b2 b3 b4 0xFF#8 0x1F#8 0x87#8 0xFF#8 0#8 0xC4#8 0x02#8 _ 0x47#8 0#8).trans ?_
  rw [and_ones, and_ones, vex_map_mask, vex_p2_mask, BitVec.and_zero]
  constructor
  · rintro ⟨⟨⟨⟨h0, h1⟩, h2, hw, hl⟩, h3⟩, -⟩
    exact ⟨h0, ⟨h1, h2, h3⟩, hw, hl⟩
  · rintro ⟨h0, ⟨h1, h2, h3⟩, hw, hl⟩
    exact ⟨⟨⟨⟨h0, h1⟩, h2, hw, hl⟩, h3⟩, rfl⟩

/-- Settles O5: the fixed fields are what the match bits test, and five more bytes hold any operand (R70). -/
theorem vexRowsSelectForms : Obligations.VexRowsSelectForms := by
  unfold Obligations.VexRowsSelectForms
  intro row hrow b0 b1 b2 b3 b4 tail htail
  obtain ⟨w, l, rfl⟩ := mem_vexRows hrow
  rw [vexMatch_iff]
  constructor
  · rintro ⟨i, rest, hd, hform, hps⟩
    rw [operandsOf_prefixes] at hps
    obtain ⟨bs, ⟨hbs, hv⟩ | ⟨hbs, hv⟩⟩ := decode_ok_of_no_prefixes hd hps
    · obtain ⟨p1, p2, opcode, bs', reg, rm, rfl, hf, -, rfl⟩ := decodeVex_ok hv
      cases hbs
      rw [vexInstr_form, vexForm_inj] at hform
      exact ⟨rfl, hf, hform⟩
    · obtain ⟨p0, p1, p2, opcode, bs', e, vl, reg, rm, rfl, -, -, -, rfl⟩ := decodeEvex_ok hv
      rw [evexInstr_form] at hform
      cases hform
  · rintro ⟨rfl, hf, hw, hl⟩
    obtain ⟨reg, rm, rest, hm⟩ := takeModRm_of_length (!bitOf b1 6) (!bitOf b1 5) b4 htail
    refine ⟨_, rest, (decode_cons_vex _).trans (decodeVex_of_fields hf hm), ?_, ?_⟩
    · rw [vexInstr_form, hw, hl]
    · rw [operandsOf_prefixes, vexInstr_prefixes]
      rfl

/-- The match bits of the EVEX row of an element width and a vector length (R67). -/
def evexMatch (e : Elem) (vl : VLen) : BitVec 48 :=
  0x62#8 ++ 0x02#8 ++ (BitVec.ofBool e.wBit ++ 5#7) ++ (0#1 ++ vl.code ++ 0#5) ++ e.opcode ++ 0#8

theorem mem_evexRows {row : Form × BitVec 48} (h : row ∈ evexRows) : ∃ e vl, row = (⟨true, e, vl⟩, evexMatch e vl) := by
  simp only [evexRows, List.mem_cons, List.not_mem_nil, or_false] at h
  obtain rfl | rfl | rfl | rfl | rfl | rfl | rfl | rfl | rfl := h <;> exact ⟨_, _, rfl⟩

theorem evex_p0_mask (b : Byte) : b &&& 0x0F#8 = 0x02#8 ↔ b.extractLsb' 2 2 = 0#2 ∧ b.extractLsb' 0 2 = 2#2 := by
  revert b; decide

theorem evex_p1_mask (b : Byte) (w : Bool) :
    b &&& 0x87#8 = BitVec.ofBool w ++ 5#7 ↔ bitOf b 2 = true ∧ b.extractLsb' 0 2 = 1#2 ∧ bitOf b 7 = w := by
  revert b w; decide

theorem evex_p2_mask (b : Byte) (ll : BitVec 2) : b &&& 0x60#8 = 0#1 ++ ll ++ 0#5 ↔ b.extractLsb' 5 2 = ll := by
  revert b ll; decide

/-- Six bytes match an EVEX row exactly when they have its fixed fields. -/
theorem evexMatch_iff (b0 b1 b2 b3 b4 b5 : Byte) (e : Elem) (vl : VLen) :
    (b0 ++ b1 ++ b2 ++ b3 ++ b4 ++ b5) &&& 0xFF0F8760FF00#48 = evexMatch e vl ↔ b0 = 0x62#8 ∧ EvexFields b1 b2 b3 b4 e vl := by
  refine (six_bytes_and_eq_iff b0 b1 b2 b3 b4 b5 0xFF#8 0x0F#8 0x87#8 0x60#8 0xFF#8 0#8 0x62#8 0x02#8 _ _ e.opcode 0#8).trans ?_
  rw [and_ones, and_ones, evex_p0_mask, evex_p1_mask, evex_p2_mask, BitVec.and_zero]
  constructor
  · rintro ⟨⟨⟨⟨⟨h0, hr0, hmap⟩, hr1, hpp, hw⟩, hll⟩, hop⟩, -⟩
    exact ⟨h0, hr0, hr1, hmap, hpp, evexElem_eq_some_iff.2 ⟨hop, hw⟩, evexLength_eq_some_iff.2 hll⟩
  · rintro ⟨h0, hr0, hr1, hmap, hpp, helem, hlen⟩
    obtain ⟨hop, hw⟩ := evexElem_eq_some_iff.1 helem
    exact ⟨⟨⟨⟨⟨h0, hr0, hmap⟩, hr1, hpp, hw⟩, evexLength_eq_some_iff.1 hlen⟩, hop⟩, rfl⟩

theorem opcode_eq_47_iff (e : Elem) : e.opcode = 0x47#8 ↔ e ≠ .word := by
  cases e <;> decide

/-- The legal settings of `z`, `aaa` and `b`, told from the bytes of an EVEX form (R72). -/
theorem illegalFields_none_iff_bytes {p0 p1 p2 opcode modrm : Byte} {e : Elem} {vl : VLen} {x b : Bool} {bs rest : List Byte}
    {reg : BitVec 3} {rm : RmField} (hf : EvexFields p0 p1 p2 opcode e vl)
    (hm : takeModRm x b (modrm :: bs) = some (reg, rm, rest)) :
    illegalFields e (bitOf p2 7) (bitOf p2 4) (p2.extractLsb' 0 3) rm.isMemory = none ↔
      ¬ (bitOf p2 7 = true ∧ p2.extractLsb' 0 3 = 0#3) ∧
        (bitOf p2 4 = true → opcode = 0x47#8 ∧ modrm.extractLsb' 6 2 ≠ 3#2) := by
  obtain ⟨rfl, -⟩ := evexElem_eq_some_iff.1 hf.elem
  rw [illegalFields_eq_none_iff, opcode_eq_47_iff, isMemory_of_takeModRm hm]

/-- Settles O6: the fixed fields are what the match bits test, and the answer stands where `z`, `aaa` and `b` are legal. -/
theorem evexRowsSelectForms : Obligations.EvexRowsSelectForms := by
  unfold Obligations.EvexRowsSelectForms
  intro row hrow b0 b1 b2 b3 b4 b5 tail htail
  obtain ⟨e, vl, rfl⟩ := mem_evexRows hrow
  rw [evexMatch_iff]
  constructor
  · rintro ⟨i, rest, hd, hform, hps⟩
    rw [operandsOf_prefixes] at hps
    obtain ⟨bs, ⟨hbs, hv⟩ | ⟨hbs, hv⟩⟩ := decode_ok_of_no_prefixes hd hps
    · obtain ⟨p1, p2, opcode, bs', reg, rm, rfl, -, -, rfl⟩ := decodeVex_ok hv
      rw [vexInstr_form] at hform
      cases hform
    · obtain ⟨p0, p1, p2, opcode, bs', e', vl', reg, rm, rfl, hf, hm, hlegal, rfl⟩ := decodeEvex_ok hv
      cases hbs
      rw [evexInstr_form] at hform
      cases hform
      exact ⟨⟨rfl, hf⟩, (illegalFields_none_iff_bytes hf hm).1 hlegal⟩
  · rintro ⟨⟨rfl, hf⟩, hlegal⟩
    obtain ⟨reg, rm, rest, hm⟩ := takeModRm_of_length (!bitOf b1 6) (!bitOf b1 5) b5 htail
    have hd := decodeEvex_of_fields (ps := []) hf hm ((illegalFields_none_iff_bytes hf hm).2 hlegal)
    refine ⟨_, rest, (decode_cons_evex _).trans hd, evexInstr_form _ _ _, ?_⟩
    rw [operandsOf_prefixes, evexInstr_prefixes]
    rfl

/-! ### Illegal encodings and neighbours (R57, R59, R72, R73) -/

theorem evexElem_of_family {opcode : Byte} {w : Bool} (h : opcode = 0x47#8 ∨ (opcode = 0x12#8 ∧ w = true)) :
    ∃ e, evexElem opcode w = some e := by
  obtain rfl | ⟨rfl, rfl⟩ := h
  · exact ⟨_, rfl⟩
  · exact ⟨_, rfl⟩

theorem evexLength_eq_none_iff {ll : BitVec 2} : evexLength ll = none ↔ ll = 3#2 := by
  revert ll; decide

theorem evex_p0_low (p0 : Byte) : p0.extractLsb' 0 4 = 2#4 ↔ p0.extractLsb' 2 2 = 0#2 ∧ p0.extractLsb' 0 2 = 2#2 := by
  revert p0; decide

theorem evex_p1_low (p1 : Byte) : p1.extractLsb' 0 3 = 5#3 ↔ bitOf p1 2 = true ∧ p1.extractLsb' 0 2 = 1#2 := by
  revert p1; decide

/-- Settles O7: P0[3:2] and P1[2] are tested first, then L'L, and `z`, `aaa`, `b` once the operand is known (R68). -/
theorem illegalEvexFieldsRejected : Obligations.IllegalEvexFieldsRejected := by
  unfold Obligations.IllegalEvexFieldsRejected
  intro p0 p1 p2 opcode modrm tail htail
  rw [decode_cons_evex]
  refine ⟨fun h => ⟨_, decodeEvex_of_reserved h⟩, fun hp0 hp1 hop hbad => ?_⟩
  obtain ⟨hr0, hmap⟩ := (evex_p0_low p0).1 hp0
  obtain ⟨hr1, hpp⟩ := (evex_p1_low p1).1 hp1
  obtain ⟨e, helem⟩ := evexElem_of_family hop
  cases hlen : evexLength (p2.extractLsb' 5 2) with
  | none => exact ⟨_, decodeEvex_of_vectorLength hr0 hr1 hmap hpp helem hlen⟩
  | some vl =>
    have hf : EvexFields p0 p1 p2 opcode e vl := ⟨hr0, hr1, hmap, hpp, helem, hlen⟩
    obtain ⟨reg, rm, rest, hm⟩ := takeModRm_of_length (!bitOf p0 6) (!bitOf p0 5) modrm htail
    cases hill : illegalFields e (bitOf p2 7) (bitOf p2 4) (p2.extractLsb' 0 3) rm.isMemory with
    | some why => exact ⟨why, decodeEvex_of_illegalFields hf hm hill⟩
    | none =>
      obtain ⟨hz, hb⟩ := (illegalFields_none_iff_bytes hf hm).1 hill
      obtain hll | hzero | ⟨hbit, hword | hreg⟩ := hbad
      · rw [evexLength_eq_none_iff.2 hll] at hlen
        cases hlen
      · exact absurd hzero hz
      · exact absurd (hword.symm.trans (hb hbit).1) (by decide)
      · exact absurd hreg (hb hbit).2

/-- Settles O10: after `C5` nothing is decoded, and a VEX form is decoded behind `C4` alone. -/
theorem twoByteVexNeverDecodes : Obligations.TwoByteVexNeverDecodes := by
  unfold Obligations.TwoByteVexNeverDecodes
  refine ⟨fun bs => decode_of_prefixes [] bs rfl rfl, fun bs rest i a hd hargs => ?_⟩
  obtain ⟨ps, tail, hi, ⟨hbs, -⟩ | ⟨-, hv⟩⟩ := decode_ok hd
  · rw [Instr.prefixes, hargs] at hi
    obtain rfl : a.prefixes = ps := hi
    exact ⟨tail, hbs⟩
  · obtain ⟨p0, p1, p2, opcode, bs', e, vl, reg, rm, -, -, -, -, rfl⟩ := decodeEvex_ok hv
    rw [evexInstr_args] at hargs
    cases hargs

/-- Settles O2: each word decodes by computation. -/
theorem specWordsDecode : Obligations.SpecWordsDecode := by
  unfold Obligations.SpecWordsDecode
  decide

end Sys2Proof.Machine
end

section
/-! PROOFS. Legacy prefixes before an encoding (30_encoding.md R57, 20_memory.md R44), and the step at the bytes that stand at the pc
(R68, R88, R114, R131). -/

namespace Sys2Proof.Machine

/-! ### Prefix bytes (R57) -/

theorem isIllegalPrefix_iff (b : Byte) : isIllegalPrefix b = true ↔ IllegalPrefixByte b := by
  have hrex : b.extractLsb' 4 4 = 4#4 ↔ 0x40 ≤ b.toNat ∧ b.toNat ≤ 0x4F := by
    revert b; decide
  simp only [isIllegalPrefix, IllegalPrefixByte, Bool.or_eq_true, beq_iff_eq, hrex, or_assoc]

/-- A byte that is legal there is that of one of the legal prefixes. -/
theorem exists_byte_of_legal {b : Byte} (h : LegalPrefixByte b) : ∃ p : LegacyPrefix, p.byte = b := by
  obtain rfl | rfl | rfl | rfl | rfl | rfl | rfl := h
  exacts [⟨.es, rfl⟩, ⟨.cs, rfl⟩, ⟨.ss, rfl⟩, ⟨.ds, rfl⟩, ⟨.fs, rfl⟩, ⟨.gs, rfl⟩, ⟨.addr32, rfl⟩]

theorem not_illegal_byte (p : LegacyPrefix) : ¬ IllegalPrefixByte p.byte := by
  rw [← isIllegalPrefix_iff]
  cases p <;> decide

theorem legalPrefix_of_illegal {b : Byte} (h : IllegalPrefixByte b) : legalPrefix b = none := by
  cases hp : legalPrefix b with
  | none => rfl
  | some p => exact absurd (legalPrefix_some hp ▸ h) (not_illegal_byte p)

theorem exists_prefixes_of_legal {ps : List Byte} (h : ∀ b ∈ ps, LegalPrefixByte b) :
    ∃ qs : List LegacyPrefix, qs.map LegacyPrefix.byte = ps := by
  induction ps with
  | nil => exact ⟨[], rfl⟩
  | cons b ps ih =>
    rw [List.forall_mem_cons] at h
    obtain ⟨p, rfl⟩ := exists_byte_of_legal h.1
    obtain ⟨qs, rfl⟩ := ih h.2
    exact ⟨p :: qs, rfl⟩

/-- Prefix bytes before bytes that begin with none are taken off, and whether an illegal one stands among them is noted. -/
theorem splitPrefixes_prefix_bytes {ps bs : List Byte} (hps : ∀ b ∈ ps, IllegalPrefixByte b ∨ LegalPrefixByte b)
    (hbs : splitPrefixes bs = ([], false, bs)) :
    (splitPrefixes (ps ++ bs)).2.2 = bs ∧
      ((splitPrefixes (ps ++ bs)).2.1 = true ↔ ∃ b ∈ ps, IllegalPrefixByte b) := by
  induction ps with
  | nil => simp [hbs]
  | cons b ps ih =>
    rw [List.forall_mem_cons] at hps
    obtain ⟨htail, hill⟩ := ih hps.2
    simp only [List.exists_mem_cons_iff, List.cons_append]
    by_cases hb : IllegalPrefixByte b
    · simp only [splitPrefixes, legalPrefix_of_illegal hb, if_pos ((isIllegalPrefix_iff b).2 hb)]
      exact ⟨htail, iff_of_true trivial (.inl hb)⟩
    · obtain ⟨p, rfl⟩ := exists_byte_of_legal (hps.1.resolve_left hb)
      simp only [splitPrefixes, legalPrefix_byte]
      exact ⟨htail, hill.trans (or_iff_right hb).symm⟩

/-! ### The answer with other prefixes -/

theorem decodeVex_truncated_iff (ps qs : List LegacyPrefix) (bs : List Byte) :
    decodeVex ps bs = .truncated ↔ decodeVex qs bs = .truncated := by
  unfold decodeVex
  split
  next =>
    split_ifs
    · simp only
      split <;> simp
    · rfl
  next => rfl

theorem decodeEvex_truncated_iff (ps qs : List LegacyPrefix) (bs : List Byte) :
    decodeEvex ps bs = .truncated ↔ decodeEvex qs bs = .truncated := by
  unfold decodeEvex
  split
  next =>
    split_ifs
    · rfl
    · rfl
    · split
      · rfl
      · split
        · rfl
        · split
          · rfl
          · simp only
            split <;> simp
  next => rfl

theorem decodeEscape_truncated_iff (ps qs : List LegacyPrefix) (bs : List Byte) :
    decodeEscape ps bs = .truncated ↔ decodeEscape qs bs = .truncated := by
  cases bs with
  | nil => rfl
  | cons b bs =>
    simp only [decodeEscape]
    split_ifs
    · exact decodeVex_truncated_iff ps qs bs
    · exact decodeEvex_truncated_iff ps qs bs
    · rfl

theorem splitPrefixes_of_escape {bs : List Byte} (h : ∃ tail, bs = 0xC4#8 :: tail ∨ bs = 0x62#8 :: tail) :
    splitPrefixes bs = ([], false, bs) ∧ startsWithEscape bs = true := by
  obtain ⟨tail, rfl | rfl⟩ := h
  · exact ⟨rfl, rfl⟩
  · exact ⟨rfl, rfl⟩

/-- Without prefixes before it, an escape byte begins the instruction. -/
theorem decode_of_escape {bs : List Byte} (h : ∃ tail, bs = 0xC4#8 :: tail ∨ bs = 0x62#8 :: tail) :
    decode bs = decodeEscape [] bs := by
  obtain ⟨tail, rfl | rfl⟩ := h
  · exact decode_cons_vex tail
  · exact decode_cons_evex tail

/-- Settles O8: the prefixes are taken off with the illegal one noted, and whether the bytes behind them end too early does not
depend on the prefixes. -/
theorem illegalPrefixesRejected : Obligations.IllegalPrefixesRejected := by
  unfold Obligations.IllegalPrefixesRejected
  intro ps bs hps hex hesc htrunc
  obtain ⟨hsplit, hstart⟩ := splitPrefixes_of_escape hesc
  obtain ⟨htail, hill⟩ := splitPrefixes_prefix_bytes hps hsplit
  rw [decode_of_escape hesc, ne_eq, decodeEscape_truncated_iff [] (splitPrefixes (ps ++ bs)).1] at htrunc
  unfold decode
  simp only [htail, hill.2 hex, hstart]
  cases hd : decodeEscape (splitPrefixes (ps ++ bs)).1 bs with
  | truncated => exact absurd hd htrunc
  | _ => rfl

/-- Legal prefixes before an instruction's bytes are added to its prefixes and its length, and change nothing else (R57, R70). -/
theorem decode_of_legal_prefixes (qs : List LegacyPrefix) {bs rest : List Byte} {i : Instr} (h : decode bs = .ok i rest) :
    ∃ i', decode (qs.map LegacyPrefix.byte ++ bs) = .ok i' rest ∧ i'.form = i.form ∧ i'.length = qs.length + i.length ∧
      operandsOf i' = { operandsOf i with prefixes := qs ++ (operandsOf i).prefixes, len := i'.length } := by
  obtain ⟨ps, tail, -, ⟨rfl, hv⟩ | ⟨rfl, hv⟩⟩ := decode_ok h <;> rw [← List.append_assoc, ← List.map_append]
  · obtain ⟨p1, p2, opcode, bs', reg, rm, rfl, hf, hm, rfl⟩ := decodeVex_ok hv
    refine ⟨_, (decode_vex _ _).trans (decodeVex_of_fields hf hm), ?_, ?_, ?_⟩
    · rw [vexInstr_form, vexInstr_form]
    · simp [VexArgs.length, vexArgs, Nat.add_assoc]
    · simp [operandsOf, ofVex, vexArgs]
  · obtain ⟨p0, p1, p2, opcode, bs', e, vl, reg, rm, rfl, hf, hm, hl, rfl⟩ := decodeEvex_ok hv
    refine ⟨_, (decode_evex _ _).trans (decodeEvex_of_fields hf hm hl), ?_, ?_, ?_⟩
    · rw [evexInstr_form, evexInstr_form]
    · simp [EvexArgs.length, evexArgs, Nat.add_assoc]
    · simp [operandsOf, ofEvex, evexArgs]

/-! ### The step (R68, R88, R114, R131) -/

section Step

variable {s : State} {n : Nat} (h64 : Mode64 s) (hn : n ≤ 15) (hfetch : ∀ k < n, Fetchable s (s.pc + BitVec.ofNat 64 k))

include h64 hn hfetch

theorem fetchInstr_of_undefined {why : UdReason} (hd : decode (bytesAtPc s n) = .undefined why) :
    fetchInstr s = .stop (.fault .invalidOpcode) := by
  rw [fetchInstr_of_decode h64 hn hfetch (by simp [hd]), decodeAdmitted_of_not_ok (by simp [hd]), hd]

theorem fetchInstr_of_notInFamily (hd : decode (bytesAtPc s n) = .notInFamily) :
    fetchInstr s = .stop (.refuse .notInFamily) := by
  rw [fetchInstr_of_decode h64 hn hfetch (by simp [hd]), decodeAdmitted_of_not_ok (by simp [hd]), hd]

/-- A step at bytes that decode runs the instruction if it is admitted, and is refused otherwise. -/
theorem step_of_decode_ok {i : Instr} {rest : List Byte} (hp : s.pendingDebug = false)
    (hd : decode (bytesAtPc s n) = .ok i rest) :
    (Admitted i s → StepRuns i s) ∧ (¬ Admitted i s → step s = .refused .legacyPrefix) := by
  obtain ⟨hrun, hrefuse⟩ := fetchInstr_of_ok h64 hn hfetch hd
  exact ⟨fun ha => stepRuns_of_fetch hp (hrun ha), fun ha => step_of_stop hp (hrefuse ha)⟩

end Step

/-- All 15 bytes can be fetched and end inside the instruction (R114). -/
theorem fetchInstr_of_too_long {s : State} (h64 : Mode64 s) (hfetch : ∀ k < 15, Fetchable s (s.pc + BitVec.ofNat 64 k))
    (hd : decode (bytesAtPc s 15) = .truncated) : fetchInstr s = .stop (.fault .generalProtection) := by
  have hw : fetchWindow s = (bytesAtPc s 15, none) := by
    rw [fetchWindow_eq h64 le_rfl hfetch]
    simp [fetchFrom]
  have hadmitted : decodeAdmitted s.params (bytesAtPc s 15) = .truncated := by
    rw [decodeAdmitted_of_not_ok (by simp [hd]), hd]
  rw [fetchInstr, if_pos ((in64_iff s).2 h64), fetched64, hw, hadmitted]
  rfl

/-- Settles O9: the decoder tests the opcode map, pp and the opcode before anything that the neighbours share with the family. -/
theorem neighbourEncodingsRefused : Obligations.NeighbourEncodingsRefused := by
  unfold Obligations.NeighbourEncodingsRefused
  refine ⟨fun p0 p1 p2 opcode tail => ⟨?_, ?_⟩, fun s n h64 hp hn hfetch hd => ?_⟩
  · rintro ⟨hp0, hr1, h⟩
    obtain ⟨hr0, -⟩ := (evex_p0_low p0).1 hp0
    rw [decode_cons_evex]
    refine decodeEvex_of_notInFamily hr0 hr1 (.inr ?_)
    obtain ⟨rfl, hw, -⟩ | ⟨-, hpp⟩ := h
    · have hw' : bitOf p1 7 = false := hw
      rw [hw']
      exact .inr rfl
    · exact .inl hpp
  · rintro ⟨-, h⟩
    rw [decode_cons_vex]
    refine decodeVex_of_not_fields fun hf => ?_
    obtain ⟨hop, -⟩ | ⟨-, hpp⟩ := h
    · exact absurd (hop.symm.trans hf.opcode) (by decide)
    · exact hpp hf.pp
  · exact step_of_stop hp (fetchInstr_of_notInFamily h64 hn hfetch hd)

/-- Settles O11: what the bytes decode to is what the fetch gives. -/
theorem stepRunsDecodedInstruction : Obligations.StepRunsDecodedInstruction := by
  unfold Obligations.StepRunsDecodedInstruction
  intro s i rest n h64 hp hn hfetch hd
  exact step_of_decode_ok h64 hn hfetch hp hd

/-- Settles O12: an illegal encoding stops the fetch with #UD, and 15 bytes that do not end the instruction stop it with #GP(0). -/
theorem stepStopsOnUndecodableBytes : Obligations.StepStopsOnUndecodableBytes := by
  unfold Obligations.StepStopsOnUndecodableBytes
  intro s n h64 hp hn hfetch
  refine ⟨fun why hd => step_of_stop hp (fetchInstr_of_undefined h64 hn hfetch hd), ?_⟩
  rintro hd rfl
  exact step_of_stop hp (fetchInstr_of_too_long h64 hfetch hd)

theorem length_le_of_wf {i : Instr} (h : i.wf = true) : i.length ≤ 15 := by
  rw [Instr.wf, Bool.and_eq_true, decide_eq_true_eq] at h
  exact h.1

/-- Settles O13: the encoded bytes decode to the instruction, with nothing after them. -/
theorem stepRunsEncodedBytes : Obligations.StepRunsEncodedBytes := by
  unfold Obligations.StepRunsEncodedBytes
  intro s i h64 hp hwf hfetch hbytes
  have hd : decode (bytesAtPc s i.length) = .ok i [] := by
    rw [hbytes, ← List.append_nil (encode i)]
    exact decodeInvertsEncode i [] hwf
  exact step_of_decode_ok h64 (length_le_of_wf hwf) hfetch hp hd

/-- Settles O58: the prefixed bytes decode to the instruction with the prefixes added, which only the parameter admits. -/
theorem legacyPrefixesRefused : Obligations.LegacyPrefixesRefused := by
  unfold Obligations.LegacyPrefixesRefused
  intro s ps bs rest i n h64 hp hn hfetch hbytes hne hlegal hd
  obtain ⟨qs, rfl⟩ := exists_prefixes_of_legal hlegal
  obtain ⟨i', hd', hform, hlen, hops⟩ := decode_of_legal_prefixes qs hd
  rw [← hbytes] at hd'
  obtain ⟨hrun, hrefuse⟩ := step_of_decode_ok h64 hn hfetch hp hd'
  constructor
  · intro hparam
    refine hrefuse fun hadmitted => ?_
    rw [Admitted, hops, hparam] at hadmitted
    obtain hnil | h := hadmitted
    · exact hne (by rw [(List.append_eq_nil_iff.1 hnil).1]; rfl)
    · cases h
  · intro hparam
    exact ⟨qs, i', rfl, hform, by rw [hlen, List.length_map], hops, hrun (.inr hparam)⟩

end Sys2Proof.Machine
end

section
/-! PROOFS. A VEX form and the unmasked EVEX form of the same mnemonic and vector length (30_encoding.md R75 d, 42_vpsllvd.md R97,
R99): the execution sequence tells VEX from EVEX only in the checks before execution and in the scale of an 8-bit displacement. -/

namespace Sys2Proof.Machine

/-! ### The operands of the two encodings -/

theorem widen_tailLength (a : VexArgs) : (widen a).count.tailLength = a.count.tailLength := by
  obtain ⟨ps, dest, src1, count⟩ := a
  cases count with
  | reg r => rfl
  | mem m => rfl

theorem widen_length (a : VexArgs) : (widen a).length = a.length + 1 := by
  have hps : (widen a).prefixes = a.prefixes := rfl
  rw [EvexArgs.length, VexArgs.length, widen_tailLength, hps]
  omega

/-- The EVEX operands are those of the VEX form but for the length. -/
theorem ofEvex_widen (a : VexArgs) : ofEvex (widen a) = { ofVex a with len := a.length + 1 } := by
  rw [← widen_length]
  rfl

theorem unscaled_ofVex {a : VexArgs} (h : Unscaled a.count) : Unscaled (ofVex a).count := by
  obtain ⟨ps, d, s, c⟩ := a
  cases c with
  | reg r => trivial
  | mem m => cases m <;> exact h

/-! ### The execution sequence of the two encodings -/

/-- An address without an 8-bit displacement, not relative to the pc, depends on neither the scale nor the next pc (R41 to R43). -/
theorem effectiveAddress_of_unscaled {n : Nat} {m : MemOperand} (h : Unscaled (Count.mem m : Count n)) (a32 : Bool)
    (k k' : Nat) (next next' : Addr) (s : State) : effectiveAddress a32 k next s m = effectiveAddress a32 k' next' s m := by
  have hdisp {d : Disp} (hd : ∀ x, d ≠ .d8 x) : dispValue k d = dispValue k' d := by
    cases d with
    | none => rfl
    | d8 x => exact absurd rfl (hd x)
    | d32 x => rfl
  cases m with
  | base b d => simp only [effectiveAddress, hdisp h]
  | rip d => exact h.elim
  | sib sc i b d => simp only [effectiveAddress, hdisp h]
  | sibNoBase sc i d => rfl

section Agree

variable {e : Elem} {vl : VLen} {o : Operands} {s : State} {len : Nat}

theorem linearAddress_of_unscaled {ps : List LegacyPrefix} {dest src1 : BitVec 5} {m : MemOperand} {aaa : BitVec 3} {z b : Bool}
    {n : Nat} (h : Unscaled (Count.mem m : Count 5)) :
    linearAddress ⟨true, e, vl⟩ ⟨ps, dest, src1, .mem m, aaa, z, b, len⟩ m s =
      linearAddress ⟨false, e, vl⟩ ⟨ps, dest, src1, .mem m, aaa, z, b, n⟩ m s := by
  exact congrArg (segmentBase ps s + ·) (effectiveAddress_of_unscaled h ..)

theorem countStop_of_unscaled (h : Unscaled o.count) :
    countStop ⟨true, e, vl⟩ { o with len := len } s = countStop ⟨false, e, vl⟩ o s := by
  obtain ⟨ps, dest, src1, count, aaa, z, b, n⟩ := o
  cases count with
  | reg r => rfl
  | mem m =>
    simp only [countStop]
    rw [linearAddress_of_unscaled (n := n) h]
    rfl

theorem countDraws_of_unscaled (h : Unscaled o.count) :
    countDraws ⟨true, e, vl⟩ { o with len := len } s = countDraws ⟨false, e, vl⟩ o s := by
  obtain ⟨ps, dest, src1, count, aaa, z, b, n⟩ := o
  cases count with
  | reg r => rfl
  | mem m =>
    simp only [countDraws]
    rw [linearAddress_of_unscaled (n := n) h]
    rfl

theorem countVector_of_unscaled (h : Unscaled o.count) :
    countVector ⟨true, e, vl⟩ { o with len := len } s = countVector ⟨false, e, vl⟩ o s := by
  obtain ⟨ps, dest, src1, count, aaa, z, b, n⟩ := o
  cases count with
  | reg r => rfl
  | mem m =>
    simp only [countVector]
    rw [linearAddress_of_unscaled (n := n) h]
    rfl

theorem completed_of_unscaled (h : Unscaled o.count) :
    completed ⟨true, e, vl⟩ { o with len := len } s =
      (completed ⟨false, e, vl⟩ o s).setPc (s.pc + BitVec.ofNat 64 len) := by
  rw [completed_eq, completed_eq, countDraws_of_unscaled h, shifted, countVector_of_unscaled h]
  rfl

/-- With both encodings enabled the checks before execution are the same ones (R109 to R112). -/
theorem unavailable_of_enabled (hvex : Enabled64 ⟨false, e, vl⟩ s) (hevex : Enabled64 ⟨true, e, vl⟩ s) :
    unavailable ⟨true, e, vl⟩ { o with len := len } s = unavailable ⟨false, e, vl⟩ o s := by
  obtain ⟨hos, hx, hf⟩ := (enabled64_iff ..).1 hvex
  obtain ⟨-, hx', hf'⟩ := (enabled64_iff ..).1 hevex
  unfold unavailable
  rw [hos, hx, hf, hx', hf']
  rfl

theorem execShift_of_unscaled (h : Unscaled o.count) (hvex : Enabled64 ⟨false, e, vl⟩ s) (hevex : Enabled64 ⟨true, e, vl⟩ s) :
    execShift ⟨true, e, vl⟩ { o with len := len } s =
      mapNext (fun t => t.setPc (s.pc + BitVec.ofNat 64 len)) (execShift ⟨false, e, vl⟩ o s) := by
  unfold execShift
  rw [unavailable_of_enabled hvex hevex, countStop_of_unscaled h, completed_of_unscaled h]
  cases unavailable ⟨false, e, vl⟩ o s with
  | some st => cases st <;> rfl
  | none =>
    cases countStop ⟨false, e, vl⟩ o s with
    | some st => cases st <;> rfl
    | none => rfl

end Agree

/-- A VEX form and the EVEX form of the widened operands, of one element width and vector length. -/
theorem exec_widen {e : Elem} {vl : VLen} {a : VexArgs} {s : State} {i j : Instr} (hi : i.form = ⟨false, e, vl⟩)
    (hia : i.args = .vex a) (hj : j.form = ⟨true, e, vl⟩) (hja : j.args = .evex (widen a)) (h : Unscaled a.count)
    (hvex : Enabled64 i.form s) (hevex : Enabled64 j.form s) :
    j.length = i.length + 1 ∧ exec j s = mapNext (fun t => t.setPc (s.pc + BitVec.ofNat 64 j.length)) (exec i s) := by
  have hilen : i.length = a.length := by rw [Instr.length, hia]
  have hjlen : j.length = a.length + 1 := by rw [Instr.length, hja, ← widen_length]
  refine ⟨by rw [hjlen, hilen], ?_⟩
  rw [hi] at hvex
  rw [hj] at hevex
  rw [exec_eq_execShift, exec_eq_execShift, hi, hj, operandsOf, operandsOf, hia, hja, hjlen]
  simp only [ofEvex_widen]
  exact execShift_of_unscaled (unscaled_ofVex h) hvex hevex

/-- Settles O47: each pair is a VEX and an EVEX form of one element width and vector length. -/
theorem vexEvexAgreement : Obligations.VexEvexAgreement := by
  unfold Obligations.VexEvexAgreement
  intro a s h _ p hp hvex hevex
  simp only [List.mem_cons, List.not_mem_nil, or_false] at hp
  obtain rfl | rfl | rfl | rfl := hp <;> exact exec_widen rfl rfl rfl rfl h hvex hevex

end Sys2Proof.Machine
end

section
/-! PROOFS. The lane function as arithmetic modulo 2^w (40_common_semantics.md R80, R81), and the vector function element by element
(R83 to R85, R87). -/

namespace Sys2Proof.Machine

/-! ### The lane function (R80, R81) -/

/-- In or out of range, the lane function multiplies by a power of two: from `w` on the power is a multiple of 2^w. -/
theorem toNat_sll {w : Nat} (a c : BitVec w) : (sll a c).toNat = a.toNat * 2 ^ c.toNat % 2 ^ w := by
  obtain hlt | hle := Nat.lt_or_ge c.toNat w
  · exact toNat_sll_of_lt a c hlt
  · have hdvd : 2 ^ w ∣ a.toNat * 2 ^ c.toNat := (Nat.pow_dvd_pow 2 hle).mul_left _
    rw [sll_of_le a c hle, Nat.mod_eq_zero_of_dvd hdvd, BitVec.toNat_zero]

/-- Reducing modulo 2^w between two shifts loses nothing. -/
theorem sll_sll {w : Nat} (a : BitVec w) {c d : BitVec w} (h : c.toNat + d.toNat < 2 ^ w) :
    sll (sll a c) d = sll a (c + d) := by
  apply BitVec.eq_of_toNat_eq
  calc (sll (sll a c) d).toNat
      = a.toNat * 2 ^ c.toNat % 2 ^ w * 2 ^ d.toNat % 2 ^ w := by rw [toNat_sll, toNat_sll]
    _ = a.toNat * 2 ^ c.toNat * 2 ^ d.toNat % 2 ^ w := Nat.mod_mul_mod ..
    _ = a.toNat * 2 ^ (c.toNat + d.toNat) % 2 ^ w := by rw [Nat.mul_assoc, Nat.pow_add]
    _ = (sll a (c + d)).toNat := by rw [toNat_sll, BitVec.toNat_add_of_lt h]

@[simp] theorem sll_zero {w : Nat} (a : BitVec w) : sll a 0#w = a := by
  apply BitVec.eq_of_toNat_eq
  rw [toNat_sll, BitVec.toNat_zero, Nat.pow_zero, Nat.mul_one, Nat.mod_eq_of_lt a.isLt]

@[simp] theorem zero_sll {w : Nat} (c : BitVec w) : sll 0#w c = 0#w := by
  apply BitVec.eq_of_toNat_eq
  rw [toNat_sll, BitVec.toNat_zero, Nat.zero_mul, Nat.zero_mod]

/-- The largest count in range moves bit 0 to bit w - 1. -/
theorem toNat_sll_top {w : Nat} (hw : 0 < w) (a : BitVec w) :
    (sll a (BitVec.ofNat w (w - 1))).toNat = a.toNat % 2 * 2 ^ (w - 1) := by
  have hlt : w - 1 < 2 ^ w := (Nat.sub_le w 1).trans_lt Nat.lt_two_pow_self
  have hpow : 2 ^ w = 2 * 2 ^ (w - 1) := by rw [← Nat.pow_succ', Nat.succ_eq_add_one, Nat.sub_add_cancel hw]
  rw [toNat_sll, BitVec.toNat_ofNat, Nat.mod_eq_of_lt hlt, hpow, Nat.mul_mod_mul_right]

/-- The smallest count out of range: `w` itself, which a `w`-bit count can hold. -/
theorem sll_width {w : Nat} (a : BitVec w) : sll a (BitVec.ofNat w w) = 0#w := by
  apply sll_of_le
  rw [BitVec.toNat_ofNat, Nat.mod_eq_of_lt Nat.lt_two_pow_self]

/-- Settles O17: the two branches of the lane function, split between the counts w - 1 and w. -/
theorem shiftOfElement : Obligations.ShiftOfElement := by
  unfold Obligations.ShiftOfElement
  intro e a c
  exact ⟨fun h => sll_of_le a c (Nat.le_of_pred_lt h), fun _ => toNat_sll a c⟩

/-- Settles O18: each law follows from the product modulo 2^w. -/
theorem shiftLaws : Obligations.ShiftLaws := by
  unfold Obligations.ShiftLaws
  intro e a c d
  exact ⟨toNat_sll a c, sll_sll a, sll_zero a, zero_sll c, toNat_sll_top (elem_bits_pos e) a, sll_width a⟩

/-! ### The vector function (R83) -/

/-- Settles O19: the elements and the upper bits of the vector function. -/
theorem vectorShiftFunction : Obligations.VectorShiftFunction := by
  unfold Obligations.VectorShiftFunction
  intro f masked zeroing k old s1 s2
  refine ⟨fun j hj => ?_, fun n hn => vsllv_high f masked zeroing k old s1 s2 hn⟩
  rw [lane_vsllv f masked zeroing k old s1 s2 hj]
  cases masked with
  | false => simp
  | true => cases zeroing <;> simp

end Sys2Proof.Machine
end

section
/-! PROOFS. The destination register of an instruction that completes (40_common_semantics.md R84 to R88): what it holds, and what
that value depends on (R30, R91); and the faults of a form whose count operand is a register (R92). -/

namespace Sys2Proof.Machine

/-! ### The new destination register (R84, R85, R87) -/

@[simp] theorem zmmAt_completed_dest (f : Form) (o : Operands) (s : State) :
    (completed f o s).zmmAt o.dest = shifted f o s :=
  State.zmmAt_setZmm_same (s.spend (countDraws f o s)) o.dest (shifted f o s)

/-- An instruction that completes leaves the shifted vector in its destination register. -/
theorem zmmAt_dest_of_exec_next {i : Instr} {s t : State} (h : exec i s = .next t) :
    t.zmmAt (operandsOf i).dest = shifted i.form (operandsOf i) s := by
  rw [exec_next_eq_completed h, zmmAt_completed_dest]

theorem shifted_high (f : Form) (o : Operands) (s : State) {n : Nat} (hn : f.vl.bits ≤ n) :
    (shifted f o s).getLsbD n = false :=
  vsllv_high f _ _ _ _ _ _ hn

/-- An enabled element is the lane function of the elements of the sources (R83, R84). -/
theorem lane_shifted_of_enabled {f : Form} {o : Operands} {s : State} {j : Nat} (hj : j < f.lanes) (hen : EnabledLane o s j) :
    lane f.elem.bits j (shifted f o s) =
      sll (lane f.elem.bits j (s.zmmAt o.src1)) (lane f.elem.bits j (countVector f o s)) :=
  (lane_vsllv f _ _ _ _ _ _ hj).trans (if_pos ((enabled_iff o s j).2 hen))

/-- An element that is not enabled is zeroed or kept (R85). -/
theorem lane_shifted_of_not_enabled {f : Form} {o : Operands} {s : State} {j : Nat} (hj : j < f.lanes)
    (hoff : ¬ EnabledLane o s j) :
    lane f.elem.bits j (shifted f o s) = if o.z then 0#_ else lane f.elem.bits j (s.zmmAt o.dest) :=
  (lane_vsllv f _ _ _ _ _ _ hj).trans (if_neg fun h => hoff ((enabled_iff o s j).1 h))

/-- Settles O29: the destination holds the shifted vector, whose counts are those of the operand. -/
theorem everyCompletionWritesTheResult : Obligations.EveryCompletionWritesTheResult := by
  unfold Obligations.EveryCompletionWritesTheResult
  intro i s t hexec
  rw [zmmAt_dest_of_exec_next hexec]
  exact ⟨_, countVector_is i.form (operandsOf i) s, shifted_is i.form (operandsOf i) s⟩

theorem not_enabledLane_of_mask {o : Operands} {s : State} {j : Nat} (haaa : o.aaa ≠ 0#3)
    (hmask : (s.kAt o.aaa).getLsbD j = false) : ¬ EnabledLane o s j := by
  rintro (h | h)
  · exact haaa h
  · exact Bool.false_ne_true (hmask.symm.trans h)

/-- Settles O30: a completed form has legal fields (R72), and its elements with mask bit 0 are not enabled. -/
theorem maskedOffElements : Obligations.MaskedOffElements := by
  unfold Obligations.MaskedOffElements
  intro i s t hexec
  obtain ⟨-, ⟨hzeroing, -⟩, -⟩ := completionNeedsEveryCheck i s t hexec
  rw [zmmAt_dest_of_exec_next hexec]
  refine ⟨fun haaa => ?_, fun j hj haaa hmask => ?_, fun n hn => shifted_high _ _ _ hn⟩
  · exact Bool.eq_false_iff.2 fun hz => hzeroing ⟨hz, haaa⟩
  · have hlane := lane_shifted_of_not_enabled hj (not_enabledLane_of_mask haaa hmask)
    exact ⟨fun hz => by simpa [hz] using hlane, fun hz => by simpa [hz] using hlane⟩

/-! ### Register count operands (R92) -/

/-- Settles O44: the read of a register never stops, so only the checks before it can fault. -/
theorem registerFormsFaultOnlyUdNm : Obligations.RegisterFormsFaultOnlyUdNm := by
  unfold Obligations.RegisterFormsFaultOnlyUdNm
  intro i s r x hreg hexec
  rw [exec_eq_execShift, execShift_fault_iff] at hexec
  obtain hstop | ⟨-, hstop⟩ := hexec
  · obtain h | h | ⟨h, -⟩ := unavailable_cases hstop
    · cases h
      exact .inl rfl
    · cases h
      exact .inr rfl
    · cases h
  · obtain ⟨m, hmem, -⟩ := countStop_some hstop
    cases hreg.symm.trans hmem

/-! ### Vectors by their elements and elements by their bytes -/

theorem getLsbD_eq_lane {w : Nat} (hw : 0 < w) (v : Zmm) (n : Nat) :
    v.getLsbD n = (lane w (n / w) v).getLsbD (n % w) := by
  rw [getLsbD_lane, Nat.div_add_mod, decide_eq_true (Nat.mod_lt n hw), Bool.true_and]

/-- A vector with zeros from VL on is given by its elements below KL. -/
theorem eq_of_lane_eq {f : Form} {u v : Zmm} (hlane : ∀ j < f.lanes, lane f.elem.bits j u = lane f.elem.bits j v)
    (hu : ∀ n, f.vl.bits ≤ n → u.getLsbD n = false) (hv : ∀ n, f.vl.bits ≤ n → v.getLsbD n = false) : u = v := by
  apply BitVec.eq_of_getLsbD_eq
  intro n _
  obtain hlow | hhigh := Nat.lt_or_ge n f.vl.bits
  · rw [getLsbD_eq_lane (elem_bits_pos f.elem) u, getLsbD_eq_lane (elem_bits_pos f.elem) v, hlane _ (bit_lane_lt hlow)]
  · rw [hu n hhigh, hv n hhigh]

/-- An element below KL is given by the bits of its range, all below VL. -/
theorem lane_eq_of_bits {f : Form} {u v : Zmm} {j : Nat} (hj : j < f.lanes)
    (h : ∀ n < f.vl.bits, n / f.elem.bits = j → u.getLsbD n = v.getLsbD n) :
    lane f.elem.bits j u = lane f.elem.bits j v := by
  apply BitVec.eq_of_getLsbD_eq
  intro i hi
  have hdiv : (f.elem.bits * j + i) / f.elem.bits = j := by
    rw [Nat.mul_add_div (elem_bits_pos f.elem), Nat.div_eq_of_lt hi, Nat.add_zero]
  have hlt : f.elem.bits * j + i < f.vl.bits := by
    calc f.elem.bits * j + i < f.elem.bits * (j + 1) := by rw [Nat.mul_succ]; omega
      _ ≤ f.elem.bits * f.lanes := Nat.mul_le_mul_left _ hj
      _ = f.vl.bits := lanes_mul_bits f
  rw [getLsbD_lane, getLsbD_lane, h _ hlt hdiv]

theorem lane_eq_of_bytes {e : Elem} {u v : Zmm} {j : Nat}
    (h : ∀ n < e.bits / 8,
      u.extractLsb' (8 * (j * (e.bits / 8) + n)) 8 = v.extractLsb' (8 * (j * (e.bits / 8) + n)) 8) :
    lane e.bits j u = lane e.bits j v := by
  apply BitVec.eq_of_toNat_eq
  rw [← elemNat_eq_lane, ← elemNat_eq_lane, elemNat_eq_sum_bytes, elemNat_eq_sum_bytes]
  exact congrArg List.sum (List.map_congr_left fun n hn => by rw [h n (List.mem_range.1 hn)])

/-! ### The footprint (R30, R91) -/

/-- Byte `n` of an enabled element is an accessed byte of the memory operand: byte `n` of the one element of a broadcast, else
byte `n` of element `j` (R46, R86). -/
theorem accessedByte_of_enabledLane {f : Form} {o : Operands} {s : State} {j n : Nat} (hj : j < f.lanes)
    (hen : EnabledLane o s j) (hn : n < f.elem.bits / 8) :
    (if o.b = true then n else j * (f.elem.bits / 8) + n) < countBytes f o.b ∧
      AccessedByte f o s (if o.b = true then n else j * (f.elem.bits / 8) + n) := by
  unfold AccessedByte countBytes
  split
  next => exact ⟨hn, j, hj, hen⟩
  next =>
    have hdiv : (j * (f.elem.bits / 8) + n) / (f.elem.bits / 8) = j := by
      rw [Nat.mul_comm, Nat.mul_add_div (Nat.zero_lt_of_lt hn), Nat.div_eq_of_lt hn, Nat.add_zero]
    refine ⟨?_, hdiv.symm ▸ hen⟩
    have hbytes : 8 * (f.elem.bits / 8 * f.lanes) = f.vl.bits := by
      rw [← Nat.mul_assoc, ← elem_bits_eq_bytes, lanes_mul_bits]
    have hlast : f.elem.bits / 8 * (j + 1) ≤ f.elem.bits / 8 * f.lanes := Nat.mul_le_mul_left _ hj
    rw [Nat.mul_succ, Nat.mul_comm] at hlast
    omega

section Footprint

variable {f : Form} {o : Operands} {s s' : State}

theorem SameFootprint.enabledLane_iff (h : SameFootprint f o s s') {j : Nat} (hj : j < f.lanes) :
    EnabledLane o s j ↔ EnabledLane o s' j := by
  by_cases haaa : o.aaa = 0#3
  · exact ⟨fun _ => .inl haaa, fun _ => .inl haaa⟩
  · have hbit : (s.k.get o.aaa.toFin).getLsbD j = (s'.k.get o.aaa.toFin).getLsbD j := h.mask haaa j hj
    rw [EnabledLane, EnabledLane, hbit]

theorem SameFootprint.lane_src1 (h : SameFootprint f o s s') {j : Nat} (hj : j < f.lanes) :
    lane f.elem.bits j (s.zmmAt o.src1) = lane f.elem.bits j (s'.zmmAt o.src1) :=
  lane_eq_of_bits hj fun n hn _ => h.src1 n hn

/-- An enabled element has the same count: its bits of the register, or its accessed bytes of memory. -/
theorem SameFootprint.lane_countVector (h : SameFootprint f o s s') {j : Nat} (hj : j < f.lanes) (hen : EnabledLane o s j) :
    lane f.elem.bits j (countVector f o s) = lane f.elem.bits j (countVector f o s') := by
  have hcount := countVector_is f o s
  have hcount' := countVector_is f o s'
  unfold CountIs at hcount hcount'
  cases hc : o.count with
  | reg r =>
    simp only [hc] at hcount hcount'
    rw [hcount, hcount']
    exact lane_eq_of_bits hj fun n hn _ => h.countReg r hc n hn
  | mem m =>
    simp only [hc] at hcount hcount'
    refine lane_eq_of_bytes fun n hn => ?_
    obtain ⟨hlt, hacc⟩ := accessedByte_of_enabledLane hj hen hn
    rw [hcount j hj hen n hn, hcount' j hj ((h.enabledLane_iff hj).1 hen) n hn]
    exact h.countMem m hc _ hlt hacc

theorem SameFootprint.lane_kept (h : SameFootprint f o s s') {j : Nat} (hj : j < f.lanes) (hoff : ¬ EnabledLane o s j)
    (hz : o.z = false) : lane f.elem.bits j (s.zmmAt o.dest) = lane f.elem.bits j (s'.zmmAt o.dest) :=
  lane_eq_of_bits hj fun n hn hdiv => h.kept hz n hn (hdiv.symm ▸ hoff)

/-- The new destination register depends on the footprint alone: element by element below VL, and zeros from there on. -/
theorem SameFootprint.shifted_eq (h : SameFootprint f o s s') : shifted f o s = shifted f o s' := by
  refine eq_of_lane_eq (fun j hj => ?_) (fun n hn => shifted_high f o s hn) (fun n hn => shifted_high f o s' hn)
  by_cases hen : EnabledLane o s j
  · rw [lane_shifted_of_enabled hj hen, lane_shifted_of_enabled hj ((h.enabledLane_iff hj).1 hen), h.lane_src1 hj,
      h.lane_countVector hj hen]
  · rw [lane_shifted_of_not_enabled hj hen, lane_shifted_of_not_enabled hj (mt (h.enabledLane_iff hj).2 hen)]
    cases hz : o.z with
    | false => exact h.lane_kept hj hen hz
    | true => rfl

end Footprint

/-- Settles O48: both states leave the shifted vector, which the footprint determines. -/
theorem resultDependsOnlyOnFootprint : Obligations.ResultDependsOnlyOnFootprint := by
  unfold Obligations.ResultDependsOnlyOnFootprint
  intro i s s' t t' hexec hexec' hsame
  rw [zmmAt_dest_of_exec_next hexec, zmmAt_dest_of_exec_next hexec', hsame.shifted_eq]

end Sys2Proof.Machine
end

section
/-! PROOFS. What an instruction that passes every check does (40_common_semantics.md R88): it completes with the result of R80 and R83
to R87, and nothing else changes (R30). -/

namespace Sys2Proof.Machine

/-- An available, legal instruction whose count operand can be read completes with its result (R88). The witnesses are the machine's
own: its count vector and its shifted vector. -/
theorem completesWithResult_of_countReadable {i : Instr} {s : State} (havail : Available i.form s)
    (hlegal : LegalFields i.form (operandsOf i)) (hread : CountReadable i.form (operandsOf i) s) : CompletesWithResult i s :=
  ⟨countVector i.form (operandsOf i) s, shifted i.form (operandsOf i) s, countVector_is i.form (operandsOf i) s,
    shifted_is i.form (operandsOf i) s, exec_of_countReadable havail hlegal hread⟩

/-- Settles O23: what holds of every instruction holds of the three VPSLLVW forms. -/
theorem vpsllvwFormsComplete : Obligations.VpsllvwFormsComplete := by
  unfold Obligations.VpsllvwFormsComplete
  intro a s i _ havail hlegal hread
  exact completesWithResult_of_countReadable havail hlegal hread

end Sys2Proof.Machine
end

section
/-! PROOFS. The VPSLLVD forms (42_vpsllvd.md R97 to R101) complete with their result; the fields of a VEX form are always legal. -/

namespace Sys2Proof.Machine

/-- A VEX form has no field that R72 could reject: it neither masks, zeroes nor broadcasts. -/
theorem legalFields_ofVex (f : Form) (a : VexArgs) : LegalFields f (ofVex a) :=
  ⟨fun ⟨hz, _⟩ => Bool.false_ne_true hz, fun hb => absurd hb Bool.false_ne_true⟩

theorem legalFields_of_vex_args {i : Instr} {a : VexArgs} (hargs : i.args = .vex a) : LegalFields i.form (operandsOf i) := by
  rw [operandsOf, hargs]
  exact legalFields_ofVex i.form a

/-- Settles O24: both forms take VEX operands, whose fields are legal. -/
theorem vpsllvdVexFormsComplete : Obligations.VpsllvdVexFormsComplete := by
  unfold Obligations.VpsllvdVexFormsComplete
  intro a s i hi havail hread
  have hargs : i.args = .vex a := by
    simp only [List.mem_cons, List.not_mem_nil, or_false] at hi
    obtain rfl | rfl := hi <;> rfl
  exact completesWithResult_of_countReadable havail (legalFields_of_vex_args hargs) hread

/-- Settles O25: the R72 conditions are a hypothesis here, so what holds of every legal instruction holds of the three EVEX forms. -/
theorem vpsllvdEvexFormsComplete : Obligations.VpsllvdEvexFormsComplete := by
  unfold Obligations.VpsllvdEvexFormsComplete
  intro a s i _ havail hlegal hread
  exact completesWithResult_of_countReadable havail hlegal hread

end Sys2Proof.Machine
end

section
/-! PROOFS. The VPSLLVQ forms (43_vpsllvq.md R102 to R106) complete with their result. The forms differ in encoding, not in what
makes an instruction complete: a VEX form needs only to be available and to have a readable count, an EVEX form legal fields too. -/

namespace Sys2Proof.Machine

/-- A VEX instruction needs no condition on its fields to complete (R72 has none for it). -/
theorem completesWithResult_of_vex_args {i : Instr} {a : VexArgs} {s : State} (hargs : i.args = .vex a)
    (havail : Available i.form s) (hread : CountReadable i.form (operandsOf i) s) : CompletesWithResult i s :=
  completesWithResult_of_countReadable havail (legalFields_of_vex_args hargs) hread

theorem args_of_mem_vpsllvqVex {i : Instr} {a : VexArgs} (hi : i ∈ [Instr.vpsllvqVex128 a, .vpsllvqVex256 a]) :
    i.args = .vex a := by
  simp only [List.mem_cons, List.not_mem_nil, or_false] at hi
  obtain rfl | rfl := hi
  · rfl
  · rfl

/-- Settles O26: both forms take VEX operands, so what holds of every VEX instruction holds of them. -/
theorem vpsllvqVexFormsComplete : Obligations.VpsllvqVexFormsComplete := by
  unfold Obligations.VpsllvqVexFormsComplete
  intro a s i hi havail hread
  exact completesWithResult_of_vex_args (args_of_mem_vpsllvqVex hi) havail hread

/-- Settles O27: with the R72 conditions as a hypothesis, what holds of every legal instruction holds of the three EVEX forms. -/
theorem vpsllvqEvexFormsComplete : Obligations.VpsllvqEvexFormsComplete := by
  unfold Obligations.VpsllvqEvexFormsComplete
  intro a s i _ havail hlegal hread
  exact completesWithResult_of_countReadable havail hlegal hread

end Sys2Proof.Machine
end

section
/-! PROOFS. The conditions before execution in 64-bit mode (60_exceptions.md R109 to R112, 30_encoding.md R72): when an instruction
raises #UD and when #NM, in the order of R120; and what each fault records (R108, R119). -/

namespace Sys2Proof.Machine

/-! ### The checks of R109 to R112 -/

theorem not_enabled64_iff (f : Form) (s : State) :
    (!s.osxsave || !s.xcr0Enables f.evex || !featuresPresent f s.params.feat) = true ↔ ¬ Enabled64 f s := by
  rw [enabled64_iff, ← Bool.not_and, ← Bool.not_and, Bool.not_eq_true', ← Bool.not_eq_true, Bool.and_eq_true,
    Bool.and_eq_true, and_assoc]

theorem illegalFields_isSome_iff (f : Form) (o : Operands) :
    (illegalFields f.elem o.z o.b o.aaa o.isMemory).isSome = true ↔ ¬ LegalFields f o := by
  rw [Option.isSome_iff_ne_none, Ne, illegalFields_none_iff]

section Mode64

variable {f : Form} {o : Operands} {s : State} (h64 : Mode64 s)

include h64

/-- In 64-bit mode the mode stops no form, and the other checks of R120 remain. -/
theorem unavailable_of_mode64 :
    unavailable f o s =
      if !s.osxsave || !s.xcr0Enables f.evex || !featuresPresent f s.params.feat then some (.fault .invalidOpcode)
      else if (illegalFields f.elem o.z o.b o.aaa o.isMemory).isSome then some (.fault .invalidOpcode)
      else if s.ts then some (.fault .deviceNotAvailable)
      else none := by
  have hprotected : ¬ s.realOrV86 = true := by
    rw [realOrV86_iff, h64.protectedMode, h64.notV86]
    decide
  rw [unavailable, if_neg hprotected, (in64_iff s).2 h64, Bool.not_true, if_neg Bool.false_ne_true]

/-- A form that is not enabled, or whose own fields are illegal, is undefined before CR0.TS is looked at (R120). -/
theorem unavailable_of_undefined (hundefined : ¬ (Enabled64 f s ∧ LegalFields f o)) :
    unavailable f o s = some (.fault .invalidOpcode) := by
  rw [unavailable_of_mode64 h64]
  by_cases henabled : Enabled64 f s
  · have hillegal : ¬ LegalFields f o := fun hlegal => hundefined ⟨henabled, hlegal⟩
    rw [if_neg (mt (not_enabled64_iff f s).1 (not_not_intro henabled)), if_pos ((illegalFields_isSome_iff f o).2 hillegal)]
  · rw [if_pos ((not_enabled64_iff f s).2 henabled)]

/-- Past the #UD conditions CR0.TS alone decides (R112). -/
theorem unavailable_of_defined (henabled : Enabled64 f s) (hlegal : LegalFields f o) :
    unavailable f o s = if s.ts then some (.fault .deviceNotAvailable) else none := by
  rw [unavailable_of_mode64 h64, if_neg (mt (not_enabled64_iff f s).1 (not_not_intro henabled)),
    if_neg (mt (illegalFields_isSome_iff f o).1 (not_not_intro hlegal))]

theorem unavailable_invalidOpcode_iff :
    unavailable f o s = some (.fault .invalidOpcode) ↔ ¬ (Enabled64 f s ∧ LegalFields f o) := by
  refine ⟨fun hstop hdefined => ?_, unavailable_of_undefined h64⟩
  rw [unavailable_of_defined h64 hdefined.1 hdefined.2] at hstop
  split at hstop <;> cases hstop

theorem unavailable_deviceNotAvailable_iff :
    unavailable f o s = some (.fault .deviceNotAvailable) ↔ s.ts = true ∧ Enabled64 f s ∧ LegalFields f o := by
  by_cases hdefined : Enabled64 f s ∧ LegalFields f o
  · rw [unavailable_of_defined h64 hdefined.1 hdefined.2]
    simp [hdefined]
  · rw [unavailable_of_undefined h64 hdefined]
    simp [hdefined]

end Mode64

/-! ### Which check a fault comes from -/

/-- The read of the count operand raises neither #UD nor #NM (R113 to R116). -/
theorem countStop_fault_ne {f : Form} {o : Operands} {s : State} {x : Fault} (h : countStop f o s = some (.fault x)) :
    x ≠ .invalidOpcode ∧ x ≠ .deviceNotAvailable := by
  obtain ⟨m, -, hmem⟩ := countStop_some h
  obtain ⟨k, -, -, ⟨rfl | rfl, -⟩ | ⟨code, rfl, -⟩ | ⟨rfl, -⟩⟩ := memoryStop_fault_cause hmem
  · exact ⟨nofun, nofun⟩
  · exact ⟨nofun, nofun⟩
  · exact ⟨nofun, nofun⟩
  · exact ⟨nofun, nofun⟩

/-- An instruction raises #UD or #NM exactly where the checks before execution do. -/
theorem exec_fault_iff_unavailable {i : Instr} {s : State} {x : Fault} (hx : x = .invalidOpcode ∨ x = .deviceNotAvailable) :
    exec i s = .fault x ↔ unavailable i.form (operandsOf i) s = some (.fault x) := by
  rw [exec_eq_execShift, execShift_fault_iff]
  refine or_iff_left fun ⟨_, hstop⟩ => ?_
  obtain ⟨hud, hnm⟩ := countStop_fault_ne hstop
  exact hx.elim hud hnm

/-- Settles O34: the read of the operand raises no #UD, and the checks before it raise it exactly on R109 to R111 and R72. -/
theorem undefinedInstructionExactly : Obligations.UndefinedInstructionExactly := by
  unfold Obligations.UndefinedInstructionExactly
  intro i s h64
  rw [exec_fault_iff_unavailable (.inl rfl), unavailable_invalidOpcode_iff h64]

/-- Settles O38: as for #UD, and CR0.TS is looked at after every #UD condition. -/
theorem taskSwitchedFaults : Obligations.TaskSwitchedFaults := by
  unfold Obligations.TaskSwitchedFaults
  intro i s h64
  rw [exec_fault_iff_unavailable (.inr rfl), unavailable_deviceNotAvailable_iff h64, State.ts]

/-- Settles O37: a form that lacks a flag is not enabled; each row of R111 asks for flags that the default set has. -/
theorem missingFeatureFaults : Obligations.MissingFeatureFaults := by
  unfold Obligations.MissingFeatureFaults
  refine ⟨fun i s h64 hmissing => ?_, fun f => ?_⟩
  · refine (undefinedInstructionExactly i s h64).2 fun ⟨henabled, _⟩ => ?_
    exact Bool.false_ne_true (hmissing.symm.trans henabled.features)
  · unfold requiredFlags
    split <;> rfl

/-! ### The records (R108, R119) -/

/-- Settles O46: the three functions of a fault are tables, and these are their rows. -/
theorem faultRecords : Obligations.FaultRecords := by
  unfold Obligations.FaultRecords
  exact ⟨rfl, rfl, rfl, rfl, fun code cr2 => rfl, rfl, rfl⟩

/-! ### The privilege level (R126) -/

section Cpl

variable {f : Form} {o : Operands} {s : State} {r : BitVec 5} (hreg : o.count = .reg r) (c : BitVec 2)

include hreg

theorem countStop_of_reg : countStop f o s = none := by rw [countStop, hreg]

/-- The CPL enters a completed state only through the draws of a memory read. -/
theorem completed_cpl_of_reg : completed f o { s with cpl := c } = { completed f o s with cpl := c } := by
  have hdraws : countDraws f o { s with cpl := c } = countDraws f o s := by simp only [countDraws, hreg]
  rw [completed_eq, completed_eq, hdraws]
  rfl

end Cpl

/-- Settles O51: no check before execution reads the CPL, a register read never stops, and the completed state keeps the CPL. -/
theorem registerFormsIgnorePrivilege : Obligations.RegisterFormsIgnorePrivilege := by
  unfold Obligations.RegisterFormsIgnorePrivilege
  intro i s r c hreg
  rw [exec_eq_execShift, exec_eq_execShift]
  refine execShift_comm (fun t => { t with cpl := c }) rfl ?_ (completed_cpl_of_reg hreg c)
  rw [countStop_of_reg hreg, countStop_of_reg hreg]

end Sys2Proof.Machine
end

section
/-! PROOFS. What a page fault reports (60_exceptions.md R115, 20_memory.md R45), the faults of a fetch (R114, R115), and the debug
trap (R131), in the order of R120. -/

namespace Sys2Proof.Machine

/-! ### The page fault of an access -/

/-- A page fault of an access is that of a denying page at the first address of the access in it (R45, log 13). -/
theorem find_of_mem_pageFaults {s : State} {kind : AccessKind} {as : List Addr} {x : Fault} (h : x ∈ s.pageFaults kind as) :
    ∃ d ∈ s.denials, ∃ a, as.find? (d.denies kind s.cpl) = some a ∧ x = .pageFault d.code a := by
  unfold State.pageFaults at h
  split at h
  next =>
    obtain ⟨d, hd, hfault⟩ := List.mem_filterMap.1 h
    obtain ⟨a, ha, hx⟩ := Option.map_eq_some_iff.1 hfault
    exact ⟨d, hd, a, ha, hx.symm⟩
  next => cases h

/-- An access to a denied address is reported, at the first address of the access in one of the denying pages; which page that is,
is free (R115, log 12). -/
theorem reportedPageFault_of_denied {s : State} {kind : AccessKind} {as : List Addr} {a : Addr} (ha : a ∈ as)
    (hdenied : Denied s kind a) :
    ∃ d ∈ s.denials, ∃ b, as.find? (d.denies kind s.cpl) = some b ∧
      s.reportedPageFault kind as = some (.pageFault d.code b) := by
  have hsome : s.reportedPageFault kind as ≠ none := fun hnone => (reportedPageFault_none_iff s kind as).1 hnone a ha hdenied
  obtain ⟨x, hx⟩ := Option.ne_none_iff_exists'.1 hsome
  obtain ⟨d, hd, b, hfind, rfl⟩ := find_of_mem_pageFaults (reportedPageFault_mem hx)
  exact ⟨d, hd, b, hfind, hx⟩

/-- The error code has six bits (log 6). -/
theorem getLsbD_code_of_ge (d : PageDenial) {b : Nat} (hb : 6 ≤ b) : d.code.getLsbD b = false := by
  rw [PageDenial.code, BitVec.getLsbD_setWidth, BitVec.getLsbD_of_ge _ _ hb, Bool.and_false]

/-- The error code bit by bit (R115). -/
theorem code_bits (d : PageDenial) :
    d.code.getLsbD 0 = d.protection ∧ d.code.getLsbD 1 = false ∧ d.code.getLsbD 2 = (d.cpl == 3#2) ∧
      d.code.getLsbD 3 = d.reservedBit ∧ d.code.getLsbD 4 = (d.kind == .fetch && d.executeDisable) ∧
      d.code.getLsbD 5 = d.protectionKey ∧ ∀ b, 6 ≤ b → d.code.getLsbD b = false := by
  refine ⟨?_, ?_, ?_, ?_, ?_, ?_, fun b => getLsbD_code_of_ge d⟩
  all_goals
    simp only [PageDenial.code, BitVec.getLsbD_setWidth, BitVec.getLsbD_append]
    simp

/-! ### The fetch -/

/-- Past the canonical check device memory refuses the fetch (D20, log 20). -/
theorem fetchStop_of_device {s : State} {a : Addr} (hcanon : CanonicalAddr s.params a) (hdevice : ¬ Ordinary s a) :
    fetchStop s a = some (.refuse .deviceMemory) := by
  rw [fetchStop, (canonical_iff _ _).2 hcanon, (isDevice_iff s a).2 hdevice, Bool.not_true, Bool.and_false,
    if_neg Bool.false_ne_true, if_pos rfl]

/-- Past both checks a denied fetch faults with a page that denies it. -/
theorem fetchStop_of_denied {s : State} {a : Addr} (hcanon : CanonicalAddr s.params a) (hord : Ordinary s a)
    (hdenied : Denied s .fetch a) :
    ∃ d ∈ s.denials, d.kind = .fetch ∧ d.cpl = s.cpl ∧ Covers d.base d.size a ∧
      fetchStop s a = some (.fault (.pageFault d.code a)) := by
  obtain ⟨d, hd, b, hfind, hreport⟩ := reportedPageFault_of_denied (List.mem_singleton_self a) hdenied
  obtain rfl : b = a := List.mem_singleton.1 (List.mem_of_find?_eq_some hfind)
  obtain ⟨hkind, hcpl, hcovers⟩ := (denies_iff ..).1 (List.find?_some hfind)
  have hordinary : s.isDevice b = false := Bool.eq_false_iff.2 fun h => (isDevice_iff s b).1 h hord
  refine ⟨d, hd, hkind, hcpl, hcovers, ?_⟩
  rw [fetchStop, (canonical_iff _ _).2 hcanon, hordinary, hreport, Bool.not_true, Bool.and_false]
  rfl

section Fetch

variable {s : State} (h64 : Mode64 s)

include h64

theorem fetchStop_of_noncanonical {a : Addr} (hcanon : ¬ CanonicalAddr s.params a) :
    fetchStop s a = some (.fault .generalProtection) := by
  have hfalse : canonical s.params a = false := Bool.eq_false_iff.2 (mt (canonical_iff _ _).1 hcanon)
  rw [fetchStop, (in64_iff s).2 h64, hfalse]
  rfl

/-- Bytes that can be fetched and end inside the instruction, and a byte after them that cannot be fetched: the fetch stops there. -/
theorem fetchInstr_of_fetchStop {k : Nat} {st : Stop} (hk : k < 15)
    (hfetch : ∀ j < k, Fetchable s (s.pc + BitVec.ofNat 64 j)) (hd : decode (bytesAtPc s k) = .truncated)
    (hstop : fetchStop s (s.pc + BitVec.ofNat 64 k) = some st) : fetchInstr s = .stop st := by
  have hrest : fetchFrom s k (15 - k) = ([], some st) := by
    rw [show 15 - k = 14 - k + 1 by omega, fetchFrom, fetchAddr_of_mode64 h64, hstop]
  have hwindow : fetchWindow s = (bytesAtPc s k, some st) := by
    rw [fetchWindow_eq h64 hk.le hfetch, hrest, List.append_nil]
  have hadmitted : decodeAdmitted s.params (bytesAtPc s k) = .truncated := by
    rw [decodeAdmitted_of_not_ok (by simp [hd]), hd]
  rw [fetchInstr, if_pos ((in64_iff s).2 h64), fetched64, hwindow, hadmitted]
  rfl

end Fetch

/-- Settles O14: the step has the outcome of the first byte that cannot be fetched, by the three checks of a fetch in their order. -/
theorem fetchFaultsStopTheStep : Obligations.FetchFaultsStopTheStep := by
  unfold Obligations.FetchFaultsStopTheStep
  intro s k h64 hp hk hfetch hd
  have hstep {st : Stop} (hstop : fetchStop s (s.pc + BitVec.ofNat 64 k) = some st) : step s = st.outcome :=
    step_of_stop hp (fetchInstr_of_fetchStop h64 hk hfetch hd hstop)
  refine ⟨fun hcanon => hstep (fetchStop_of_noncanonical h64 hcanon),
    fun hcanon hdevice => hstep (fetchStop_of_device hcanon hdevice), fun hcanon hord hdenied => ?_⟩
  obtain ⟨d, hd, hkind, hcpl, hcovers, hstop⟩ := fetchStop_of_denied hcanon hord hdenied
  obtain ⟨-, hwrite, huser, -, hfetchBit, -⟩ := code_bits d
  refine ⟨d, hd, hkind, hcpl, hcovers, hstep hstop, ?_, hwrite, ?_⟩
  · rw [hfetchBit, hkind]
    rfl
  · rw [huser, hcpl]

/-! ### The debug trap (R131) -/

/-- Settles O15: the pending trap is the first thing a step looks at. -/
theorem pendingDebugTrapComesFirst : Obligations.PendingDebugTrapComesFirst := by
  unfold Obligations.PendingDebugTrapComesFirst
  intro s hpending
  refine ⟨?_, rfl⟩
  rw [step, if_pos hpending]
  rfl

theorem pendingDebug_of_step_next {s t : State} (h : step s = .next t) : t.pendingDebug = s.tf := by
  obtain ⟨i, -, rfl⟩ := step_next_completed h
  rfl

/-- Settles O16: a completed step leaves the trap of the old RFLAGS.TF pending, and the next step takes it. -/
theorem singleStepTrapFollows : Obligations.SingleStepTrapFollows := by
  unfold Obligations.SingleStepTrapFollows
  intro s t hstep
  have hpending := pendingDebug_of_step_next hstep
  refine ⟨fun hset => ?_, fun hclear => hpending.trans hclear⟩
  obtain ⟨hdebug, -⟩ := pendingDebugTrapComesFirst t (hpending.trans hset)
  exact hdebug

end Sys2Proof.Machine
end

section
/-! PROOFS. The faults of the read of a memory operand in the order of R120 (60_exceptions.md R113 to R116, 20_memory.md R45, R46):
a non-canonical byte by the segment of the operand, a page fault with its report, and the alignment check, which is open. -/

namespace Sys2Proof.Machine

/-! ### From the checks to the instruction -/

/-- The read of an available, legal form's memory operand stops the form, or nothing does. -/
theorem exec_of_memoryStop {i : Instr} {s : State} {m : MemOperand} (havail : Available i.form s)
    (hlegal : LegalFields i.form (operandsOf i)) (hm : (operandsOf i).count = .mem m) :
    exec i s = (memoryStop i.form (operandsOf i) s m (linearAddress i.form (operandsOf i) m s)).elim
      (.next (completed i.form (operandsOf i) s)) Stop.outcome := by
  have hnone : unavailable i.form (operandsOf i) s = none := (unavailable_none_iff ..).2 ⟨havail, hlegal⟩
  have hcount : countStop i.form (operandsOf i) s =
      memoryStop i.form (operandsOf i) s m (linearAddress i.form (operandsOf i) m s) := by rw [countStop, hm]
  rw [exec_eq_execShift, execShift, hnone, hcount]
  cases memoryStop i.form (operandsOf i) s m (linearAddress i.form (operandsOf i) m s) <;> rfl

/-- A fault of the read is the fault of the form. -/
theorem exec_of_memoryStop_fault {i : Instr} {s : State} {m : MemOperand} {x : Fault} (havail : Available i.form s)
    (hlegal : LegalFields i.form (operandsOf i)) (hm : (operandsOf i).count = .mem m)
    (hstop : memoryStop i.form (operandsOf i) s m (linearAddress i.form (operandsOf i) m s) = some (.fault x)) :
    exec i s = .fault x := by
  rw [exec_of_memoryStop havail hlegal hm, hstop]
  rfl

/-! ### The segment of the operand (R44, R113, R114) -/

theorem stackBased_iff (m : MemOperand) : stackBased m = true ↔ StackBase m := by
  cases m <;> simp [stackBased, StackBase]

theorem isNullOverride_iff (p : LegacyPrefix) : isNullOverride p = true ↔ NullOverride p := by
  cases p <;> simp [isNullOverride, NullOverride]

/-- An FS or GS override names another segment than SS. -/
theorem throughSS_of_fs_gs {o : Operands} (h : .fs ∈ o.prefixes ∨ .gs ∈ o.prefixes) (m : MemOperand) (s : State) :
    throughSS o m s = false := by
  have hcontains : (o.prefixes.contains .fs || o.prefixes.contains .gs) = true := by
    rw [Bool.or_eq_true, List.contains_iff_mem, List.contains_iff_mem]
    exact h
  rw [throughSS, if_pos hcontains]

/-- Overrides that agree with the default segment, or none, leave it in force. -/
theorem throughSS_of_agree {o : Operands} {m : MemOperand} (hfs : .fs ∉ o.prefixes) (hgs : .gs ∉ o.prefixes)
    (hagree : ∀ p ∈ o.prefixes, NullOverride p → (p = .ss ↔ StackBase m)) (s : State) : throughSS o m s = stackBased m := by
  have hcontains : ¬ (o.prefixes.contains .fs || o.prefixes.contains .gs) = true := by
    rw [Bool.or_eq_true, List.contains_iff_mem, List.contains_iff_mem]
    exact fun h => h.elim hfs hgs
  have hall : (o.prefixes.filter isNullOverride).all (fun p => (p == .ss) == stackBased m) = true := by
    rw [List.all_eq_true]
    intro p hp
    obtain ⟨hmem, hnull⟩ := List.mem_filter.1 hp
    rw [beq_iff_eq, Bool.eq_iff_iff, beq_iff_eq, stackBased_iff]
    exact hagree p hmem ((isNullOverride_iff p).1 hnull)
  rw [throughSS, if_neg hcontains, if_pos hall]

theorem any_noncanonical_iff {f : Form} {o : Operands} {s : State} {la : Addr} :
    (accessedAddrs f o s la).any (fun a => !canonical s.params a) = true ↔
      ∃ k < countBytes f o.b, AccessedByte f o s k ∧ ¬ CanonicalAddr s.params (byteAddr la k) := by
  simp only [List.any_eq_true, mem_accessedAddrs, ← canonical_iff, Bool.not_eq_true, Bool.not_eq_true']
  constructor
  · rintro ⟨a, ⟨k, hk, hacc, rfl⟩, hcanon⟩
    exact ⟨k, hk, hacc, hcanon⟩
  · rintro ⟨k, hk, hacc, hcanon⟩
    exact ⟨_, ⟨k, hk, hacc, rfl⟩, hcanon⟩

/-- A non-canonical accessed byte stops the read before any other check (R120). -/
theorem memoryStop_of_noncanonical {f : Form} {o : Operands} {s : State} {m : MemOperand} {la : Addr} {k : Nat}
    (hk : k < countBytes f o.b) (hacc : AccessedByte f o s k) (hcanon : ¬ CanonicalAddr s.params (byteAddr la k)) :
    memoryStop f o s m la = some (.fault (if throughSS o m s then .stackSegment else .generalProtection)) := by
  simp only [memoryStop]
  rw [if_pos (any_noncanonical_iff.2 ⟨k, hk, hacc, hcanon⟩)]

/-- Settles O39: the canonical check is the first of the read, and the segment of the operand names the fault. -/
theorem nonCanonicalOperandFaults : Obligations.NonCanonicalOperandFaults := by
  unfold Obligations.NonCanonicalOperandFaults
  intro i s m k havail hlegal hm hk hacc hcanon
  have hexec : exec i s = .fault (if throughSS (operandsOf i) m s then .stackSegment else .generalProtection) :=
    exec_of_memoryStop_fault havail hlegal hm (memoryStop_of_noncanonical hk hacc hcanon)
  refine ⟨?_, fun hoverride => ?_, fun hfs hgs hagree => ?_⟩
  · cases hss : throughSS (operandsOf i) m s with
    | true => exact .inl (by rw [hexec, hss]; rfl)
    | false => exact .inr (by rw [hexec, hss]; rfl)
  · rw [hexec, throughSS_of_fs_gs hoverride]
    rfl
  · rw [hexec, throughSS_of_agree hfs hgs hagree]
    exact ⟨fun hstack => by rw [if_pos ((stackBased_iff m).2 hstack)],
      fun hstack => by rw [if_neg (mt (stackBased_iff m).1 hstack)]⟩

/-! ### Page faults (R45, R115) -/

/-- The first of the accessed addresses with a property is that of the first accessed byte with it. -/
theorem find_accessedAddrs {f : Form} {o : Operands} {s : State} {la a : Addr} {p : Addr → Bool}
    (h : (accessedAddrs f o s la).find? p = some a) :
    ∃ n < countBytes f o.b, AccessedByte f o s n ∧ byteAddr la n = a ∧ p a = true ∧
      ∀ n' < n, AccessedByte f o s n' → ¬ p (byteAddr la n') = true := by
  rw [accessedAddrs, List.find?_map, List.find?_filter, Option.map_eq_some_iff] at h
  obtain ⟨n, hfind, rfl⟩ := h
  obtain ⟨hn, hmem, hfirst⟩ := List.find?_range_eq_some.1 hfind
  simp only [Function.comp, decide_eq_true_eq, accessed_iff] at hn
  refine ⟨n, List.mem_range.1 hmem, hn.1, rfl, hn.2, fun n' hn' hacc hp => ?_⟩
  have hnot := hfirst n' hn'
  simp [(accessed_iff f o s n').2 hacc, hp] at hnot

/-- Past the checks on addresses, the translation and then the alignment check decide (R120). -/
theorem memoryStop_of_canonical {f : Form} {o : Operands} {s : State} {la : Addr}
    (h : ∀ n < countBytes f o.b, Ordinary s (byteAddr la n) ∧ (AccessedByte f o s n → CanonicalAddr s.params (byteAddr la n)))
    (m : MemOperand) :
    memoryStop f o s m la =
      (s.reportedPageFault .read (accessedAddrs f o s la)).elim
        (if alignmentOpen f o s la && Config.alignmentDraw s.draws then some (.fault .alignmentCheck) else none)
        (fun p => some (.fault p)) := by
  have hcanon : ¬ (accessedAddrs f o s la).any (fun a => !canonical s.params a) = true := by
    rw [any_noncanonical_iff]
    rintro ⟨n, hn, hacc, hnot⟩
    exact hnot ((h n hn).2 hacc)
  have hord : ¬ (List.range (countBytes f o.b)).any (fun n => s.isDevice (byteAddr la n)) = true := by
    simp only [List.any_eq_true, List.mem_range, isDevice_iff, not_exists, not_and, not_not]
    exact fun n hn => (h n hn).1
  simp only [memoryStop]
  rw [if_neg hcanon, if_neg hord]
  cases s.reportedPageFault .read (accessedAddrs f o s la) <;> rfl

/-- Settles O40: the reported page fault is that of a denying page at the first accessed byte in it. -/
theorem pageFaultReport : Obligations.PageFaultReport := by
  unfold Obligations.PageFaultReport
  intro i s m k havail hlegal hm hbytes hk hacc hdenied
  have hmem : byteAddr (linearAddress i.form (operandsOf i) m s) k ∈
      accessedAddrs i.form (operandsOf i) s (linearAddress i.form (operandsOf i) m s) :=
    (mem_accessedAddrs ..).2 ⟨k, hk, hacc, rfl⟩
  obtain ⟨d, hd, a, hfind, hreport⟩ := reportedPageFault_of_denied hmem hdenied
  obtain ⟨n, hn, hnacc, rfl, hdenies, hfirst⟩ := find_accessedAddrs hfind
  obtain ⟨hkind, hcpl, hcovers⟩ := (denies_iff ..).1 hdenies
  obtain ⟨hpresent, hwrite, huser, hreserved, hfetch, hkey, hhigh⟩ := code_bits d
  have hstop : memoryStop i.form (operandsOf i) s m (linearAddress i.form (operandsOf i) m s) =
      some (.fault (.pageFault d.code (byteAddr (linearAddress i.form (operandsOf i) m s) n))) := by
    rw [memoryStop_of_canonical hbytes, hreport, Option.elim_some]
  refine ⟨d, hd, n, hn, hkind, hcpl, hnacc, hcovers,
    fun n' hn' hacc' hcovers' => hfirst n' hn' hacc' ((denies_iff ..).2 ⟨hkind, hcpl, hcovers'⟩),
    exec_of_memoryStop_fault havail hlegal hm hstop, hpresent, hwrite, ?_, hreserved, ?_, hkey, hhigh⟩
  · rw [huser, hcpl]
  · rw [hfetch, hkind]
    rfl

/-! ### The alignment check (R116) -/

/-- With every byte canonical, ordinary and granted, an open alignment check leaves the read to a free value (log 11). -/
theorem memoryStop_of_alignmentOpen {f : Form} {o : Operands} {s : State} {la : Addr}
    (h : ∀ n < countBytes f o.b,
      CanonicalAddr s.params (byteAddr la n) ∧ Ordinary s (byteAddr la n) ∧ ¬ Denied s .read (byteAddr la n))
    (hopen : alignmentOpen f o s la = true) (m : MemOperand) :
    memoryStop f o s m la = if Config.alignmentDraw s.draws then some (.fault .alignmentCheck) else none := by
  have hgranted : s.reportedPageFault .read (accessedAddrs f o s la) = none := by
    rw [reportedPageFault_none_iff]
    intro a ha
    obtain ⟨n, hn, -, rfl⟩ := (mem_accessedAddrs ..).1 ha
    exact (h n hn).2.2
  rw [memoryStop_of_canonical (fun n hn => ⟨(h n hn).2.1, fun _ => (h n hn).1⟩), hgranted, hopen,
    Bool.true_and, Option.elim_none]

/-- A completed read with an open alignment check has used one free value (log 25). -/
theorem completed_of_alignmentOpen {i : Instr} {s : State} {m : MemOperand} (hm : (operandsOf i).count = .mem m)
    (hopen : alignmentOpen i.form (operandsOf i) s (linearAddress i.form (operandsOf i) m s) = true) :
    completed i.form (operandsOf i) s =
      ((s.spend 1).setZmm (operandsOf i).dest (shifted i.form (operandsOf i) s)).setPc
        (s.pc + BitVec.ofNat 64 i.length) := by
  have hdraws : countDraws i.form (operandsOf i) s = 1 := by simp only [countDraws, hm, hopen, if_true]
  rw [completed, hdraws, State.advance, operandsOf_len, State.setZmm_pc, State.spend_pc]

/-- Settles O33: the free value chooses between #AC(0) and the completed state, which has used it. -/
theorem alignmentCheckIsOpen : Obligations.AlignmentCheckIsOpen := by
  unfold Obligations.AlignmentCheckIsOpen
  intro i s m havail hlegal hm hb hactive hlane halign hbytes
  have hopen : alignmentOpen i.form (operandsOf i) s (linearAddress i.form (operandsOf i) m s) = true :=
    (alignmentOpen_iff ..).2 ⟨hactive, hb, hlane, halign⟩
  have hcount : countBytes i.form (operandsOf i).b = i.form.elem.bits / 8 := by rw [countBytes, if_pos hb]
  have hstop := memoryStop_of_alignmentOpen (hcount.symm ▸ hbytes) hopen m
  cases hdraw : Config.alignmentDraw s.draws with
  | true =>
    rw [hdraw, if_pos rfl] at hstop
    exact .inl (exec_of_memoryStop_fault havail hlegal hm hstop)
  | false =>
    rw [hdraw, if_neg Bool.false_ne_true] at hstop
    refine .inr ⟨countVector i.form (operandsOf i) s, shifted i.form (operandsOf i) s, countVector_is .., shifted_is .., ?_⟩
    rw [exec_of_memoryStop havail hlegal hm, hstop, completed_of_alignmentOpen hm hopen, Option.elim_none]

end Sys2Proof.Machine
end

section
/-! PROOFS. The first fetch and every form right after reset (70_reset_and_hazards.md R132, 10_state.md R31), and the ends of a run
(R139, 60_exceptions.md R122). -/

namespace Sys2Proof.Machine

/-! ### Reset (R31, R132) -/

/-- Outside 64-bit mode the pc is an offset from the base of the code segment (R31, log 32). -/
theorem fetchAddr_of_not_mode64 {s : State} (h : ¬ Mode64 s) (k : Nat) : s.fetchAddr k = byteAddr (s.csBase + s.pc) k := by
  rw [State.fetchAddr, State.codeBase, if_neg (mt (in64_iff s).1 h)]

/-- Reset leaves CR0.PE clear, which is real-address mode (R26). -/
theorem reset_pe_clear : State.reset.cr0.getLsbD 0 = false := by decide

/-- The reset pc with the reset base of the code segment (R31). -/
theorem reset_fetchAddr_zero : State.reset.fetchAddr 0 = 0xFFFFFFF0#64 := by
  rw [fetchAddr_of_not_mode64 not_mode64_reset]
  decide

/-- Settles O55: reset is real-address mode, where every form raises #UD (R26). -/
theorem resetRaisesInvalidOpcode : Obligations.ResetRaisesInvalidOpcode := by
  unfold Obligations.ResetRaisesInvalidOpcode
  have hud (i : Instr) : exec i State.reset = .fault .invalidOpcode := realAndVirtual8086Fault i State.reset (.inl reset_pe_clear)
  exact ⟨reset_fetchAddr_zero, reset_pe_clear, rfl, by decide, hud⟩

/-! ### The end of a run (R122, R139) -/

/-- At the end address a run is completed, whatever number of steps is left. -/
theorem runTo_of_pc_eq {s : State} {e : Addr} (n : Nat) (h : s.pc = e) : runTo e n s = .completed s := by
  cases n with
  | zero => rw [runTo, if_pos h]
  | succ n => rw [runTo, if_pos h]

section Step

variable {s : State} {e : Addr} (n : Nat) (hpc : s.pc ≠ e)
include hpc

theorem runTo_of_step_fault {x : Fault} (hstep : step s = .fault x) : runTo e (n + 1) s = .faulted x s := by
  rw [runTo, if_neg hpc, hstep]

theorem runTo_of_step_refused {r : Refusal} (hstep : step s = .refused r) : runTo e (n + 1) s = .refused r s := by
  rw [runTo, if_neg hpc, hstep]

end Step

/-- Settles O57: the end address is looked at first, then the outcome of the step. -/
theorem faultEndsRun : Obligations.FaultEndsRun := by
  unfold Obligations.FaultEndsRun
  intro s e n
  exact ⟨runTo_of_pc_eq n, fun _ hpc hstep => runTo_of_step_fault n hpc hstep, fun _ hpc hstep => runTo_of_step_refused n hpc hstep⟩

end Sys2Proof.Machine
end
